-- ==== Sys2Proof/Word.lean ====
section
/-! DEFINITION. The words of FLASHCMD: bytes, flash addresses, host operands (00_scope.md R10, R12). -/
namespace Sys2Proof

/-- R12: "A byte is an 8-bit unsigned value, bit 7 the most significant". -/
abbrev Byte := BitVec 8

/-- A flash address on the wire: `ADDR_BITS` = 24 (R10, R60). -/
abbrev Addr := BitVec 24

/-- A host operand: `HOST_ADDR_BITS` = `LEN_BITS` = 32 (R10, R102). -/
abbrev Word := BitVec 32

end Sys2Proof
end

