-- ==== Sys2Proof/Syntax.lean ====
section
/-! DEFINITION. The instructions: one constructor per row of spec/opcode_table.json, and the two packets they travel
in, SPI frames (30_encoding.md R91, R92) and host requests (R100). -/
namespace Sys2Proof

/-- An SPI frame as the chip sees it (R93, R251): the bytes it receives, command phase and data-out phase, and the
number of bytes it sends. -/
structure Frame where
  sent : List Byte
  nIn  : Nat
deriving DecidableEq, Repr, Inhabited

/-- R100: a host request `{op : 4 bits, arg0 : 32 bits, arg1 : 32 bits, payload : byte list}`. -/
structure Request where
  op      : BitVec 4
  arg0    : Word
  arg1    : Word
  payload : List Byte
deriving DecidableEq, Repr, Inhabited

/-- The opcode table. The first six rows are SPI frames, the chip's commands (46_chip_model.md); the others are host
requests (R101). An ignored request field is kept, since acceptance latches it and "a model must not constrain it". -/
inductive Instr where
  /-- RDSR, `[0x05]` then 1 byte out of the chip (R252). -/
  | rdsr
  /-- WREN, `[0x06]` (R253). -/
  | wren
  /-- READ a, `[0x03, a2, a1, a0]` then `n` bytes out of the chip (R255). -/
  | read (a : Addr) (n : Nat)
  /-- PP a, `[0x02, a2, a1, a0] ++ d` (R258). -/
  | pp (a : Addr) (d : List Byte)
  /-- RDID, `[0x9F]` then 3 bytes out of the chip (R257). -/
  | rdid
  /-- SE a, `[ERASE_OPCODE, a2, a1, a0]` (R263). -/
  | se (a : Addr)
  /-- `bind h`, op 0x0 (R140). -/
  | bind (h ignored : Word)
  /-- `read_identity`, op 0x1 (R150). -/
  | readIdentity (ignored0 ignored1 : Word)
  /-- `read_status`, op 0x2 (R152). -/
  | readStatus (ignored0 ignored1 : Word)
  /-- `write_enable`, op 0x3 (R180). -/
  | writeEnable (ignored0 ignored1 : Word)
  /-- `read_data a, N`, op 0x4 (R155). -/
  | readData (addr len : Word)
  /-- `page_program a, data`, op 0x5 (R200). -/
  | pageProgram (addr len : Word) (data : List Byte)
  /-- `sector_erase a`, op 0x6 (R210). -/
  | sectorErase (addr ignored : Word)
  /-- `wait_ready B`, op 0x7 (R230). -/
  | waitReady (ignored bound : Word)
  /-- A reserved request, op 0x8 to 0xF: `low` is bits 2:0 of the op code (R306). -/
  | reserved (low : BitVec 3) (arg0 arg1 : Word)
deriving DecidableEq, Repr

/-- R111, R112: the mnemonic of each row, as the spec's text writes it. -/
def Instr.mnemonic : Instr → String
  | .rdsr => "RDSR"
  | .wren => "WREN"
  | .read _ _ => "READ"
  | .pp _ _ => "PP"
  | .rdid => "RDID"
  | .se _ => "SE"
  | .bind _ _ => "bind"
  | .readIdentity _ _ => "read_identity"
  | .readStatus _ _ => "read_status"
  | .writeEnable _ _ => "write_enable"
  | .readData _ _ => "read_data"
  | .pageProgram _ _ _ => "page_program"
  | .sectorErase _ _ => "sector_erase"
  | .waitReady _ _ => "wait_ready"
  | .reserved _ _ _ => "reserved (IllegalOp)"

/-- R111, R112: the assembler text of an instruction, numbers in decimal. -/
def Instr.asm (i : Instr) : String :=
  match i with
  | .read a _ => i.mnemonic ++ " " ++ toString a.toNat
  | .pp a _ => i.mnemonic ++ " " ++ toString a.toNat
  | .se a => i.mnemonic ++ " " ++ toString a.toNat
  | .bind h _ => i.mnemonic ++ " " ++ toString h.toNat
  | .readData a n => i.mnemonic ++ " " ++ toString a.toNat ++ ", " ++ toString n.toNat
  | .pageProgram a _ d =>
    i.mnemonic ++ " " ++ toString a.toNat ++ ", [" ++ String.intercalate ", " (d.map fun b => toString b.toNat) ++ "]"
  | .sectorErase a _ => i.mnemonic ++ " " ++ toString a.toNat
  | .waitReady _ b => i.mnemonic ++ " " ++ toString b.toNat
  | _ => i.mnemonic

end Sys2Proof
end

