-- ==== Sys2Proof/Config.lean ====
section
/-! DEFINITION. The parameters of 00_scope.md R10 as plain data, the values and moves the spec leaves to the outside,
and the uninterpreted constants that stand for them where nothing has chosen them. -/
namespace Sys2Proof

/-- R10: the OPEN parameters of a model. They are held in the state and changed by no step, so a statement about every
state holds for every parameter value (log entry 1). -/
structure Params where
  /-- `ERASE_OPCODE` (R10, R11). -/
  eraseOpcode        : Byte
  /-- `PAGE_SIZE`, a power of two. -/
  pageSize           : Nat
  /-- `SECTOR_SIZE`, a power of two, at least `PAGE_SIZE`. -/
  sectorSize         : Nat
  /-- `FLASH_SIZE`, at most 2^24. -/
  flashSize          : Nat
  /-- `ID_VALUE` (R257, R271). -/
  idValue            : BitVec 24
  /-- `READ_WRAP` (R256): none, or the table of the `((a, i), t)` at which byte `i` of a read at `a` comes from `t`
  and not from `a + i` (DESIGN CHOICE, log entry 3). -/
  readWrap           : Option (List ((Nat × Nat) × Nat))
  /-- `TRANSPORT_WORD_BYTES`: "no effect on the wire" (R10, R127). -/
  transportWordBytes : Nat
  /-- `NUM_SLOTS`. -/
  numSlots           : Nat
  /-- `slot_bound(h)`: the handles bound in the transport, as a list (DESIGN CHOICE, log entry 4). -/
  boundSlots         : List Nat
  /-- `STATUS_OPAQUE`: bits 7:2 of every status byte, or none for "a draw per read" (R10, R272). -/
  statusOpaque       : Option (BitVec 6)
  /-- The slot the modelled chip is wired to (DESIGN CHOICE, log entry 2). -/
  chipSlot           : Nat
deriving DecidableEq, Repr

/-- A power of two. -/
def isPowerOfTwo (n : Nat) : Bool := n == 2 ^ n.log2

/-- R11: the opcode "must differ from the five fixed opcodes 0x02, 0x03, 0x05, 0x06 and 0x9F". -/
def eraseOpcodeAllowed (b : Byte) : Bool :=
  b != 0x02 && b != 0x03 && b != 0x05 && b != 0x06 && b != 0x9F

/-- The bounds R10 and R11 put on the parameters. Of an erase opcode that is a fixed opcode R11 says "a model refuses a
configuration that breaks this"; THE MODEL'S CHOICE (log entry 38): a configuration outside R10's other bounds, of which
the spec does not say what a model does, is refused too. -/
def Params.allowed (p : Params) : Bool :=
  eraseOpcodeAllowed p.eraseOpcode && isPowerOfTwo p.pageSize && isPowerOfTwo p.sectorSize
    && decide (p.pageSize ≤ p.sectorSize) && decide (p.flashSize ≤ 2 ^ 24) && decide (1 ≤ p.numSlots)

/-- R144: the handle is valid iff `h < NUM_SLOTS and slot_bound(h)`. -/
def Params.slotValid (p : Params) (h : Word) : Bool :=
  decide (h.toNat < p.numSlots) && p.boundSlots.contains h.toNat

/-- The parameter values of the test vectors (95_test_vectors.md, Conventions): "test choices, not source values".
DESIGN CHOICE for `State.reset` and for `decodeTableWord` (log entry 1). -/
def Params.vectors : Params where
  eraseOpcode := 0x20
  pageSize := 256
  sectorSize := 4096
  flashSize := 16777216
  idValue := 0xEF4018
  readWrap := none
  transportWordBytes := 1
  numSlots := 1
  boundSlots := [0]
  statusOpaque := none
  chipSlot := 0

/-- R250 `busy`: the program or erase still running. -/
inductive Pending where
  | prog (a : Nat) (d : List Byte)
  | erase (base : Nat)
deriving DecidableEq, Repr, Inhabited

/-- R130: the transport's answer to one call. `ok none` delivers the bytes the chip drives, `ok (some bs)` bytes of the
transport's own choice; `silent` is the call that has not returned (R131). Log entry 6. -/
inductive Answer where
  | ok (bytes : Option (List Byte))
  | err
  | silent
deriving DecidableEq, Repr, Inhabited

/-- What can happen next (R4, R9): FLASHCMD's own move, the chip's completion (R265), the host putting a request on the
port (R100) or taking a response (R103), a reset of FLASHCMD (R330), or a frame another agent puts on the chip. -/
inductive Event where
  | block
  | complete
  | request (r : Request)
  | take
  | reset
  | frame (f : Frame)
deriving DecidableEq, Repr, Inhabited

/-- FREE VALUE: the `n`-th drawn value (R5, R250). -/
opaque Config.freeDraw : Nat → Nat

/-- FREE VALUE: the transport's answer to a call nothing has chosen an answer for (R130). -/
opaque Config.freeAnswer : Nat → Answer

/-- FREE VALUE: the next move where nothing has chosen it (R265, R266, R319). -/
opaque Config.freeEvent : Nat → Event

/-- FREE VALUE: byte `t` of an array whose contents are drawn; each drawing of a whole array has its own first
argument (R43, R250, R269). -/
opaque Config.freeByte : Nat → Nat → Byte

/-- FREE VALUE: the write-enable latch at the start of a run (R43, R250). -/
opaque Config.powerUpWel : Bool

/-- FREE VALUE: what the chip is doing at the start of a run (R43, R250). -/
opaque Config.powerUpBusy : Option Pending

end Sys2Proof
end

