-- ==== Sys2Proof/WellFormed.lean ====
section
/-! DEFINITION. Well-formed requests (30_encoding.md R100) and instructions. -/
namespace Sys2Proof

/-- R100: "well formed iff `len(payload) = arg1` when `op` = 5 (page_program) and `len(payload) = 0` otherwise". -/
def Request.wellFormed (r : Request) : Bool :=
  if r.op = 5#4 then r.payload.length == r.arg1.toNat else r.payload.isEmpty

/-- R72, R100, R258: a read moves fewer than 2^32 bytes, a program frame carries 1 to 2^32 - 1 payload bytes, and a
page_program's payload has `arg1` bytes. Every other operand is bounded by its type. -/
def Instr.wellFormed : Instr → Bool
  | .rdsr => true
  | .wren => true
  | .read _ n => decide (n < 2 ^ 32)
  | .pp _ d => !d.isEmpty && decide (d.length < 2 ^ 32)
  | .rdid => true
  | .se _ => true
  | .bind _ _ => true
  | .readIdentity _ _ => true
  | .readStatus _ _ => true
  | .writeEnable _ _ => true
  | .readData _ _ => true
  | .pageProgram _ n d => d.length == n.toNat
  | .sectorErase _ _ => true
  | .waitReady _ _ => true
  | .reserved _ _ _ => true

end Sys2Proof
end

