-- ==== Sys2Proof/Decode.lean ====
section
/-! DEFINITION. The decoder, total on every frame and every request, and the encoder (30_encoding.md R90 to R97, R100,
R101). -/
namespace Sys2Proof

/-- What carries an instruction: an SPI frame or a host request. -/
inductive Packet where
  | frame (f : Frame)
  | request (r : Request)
deriving DecidableEq, Repr

/-- Why a packet is no instruction. -/
inductive DecodeError where
  /-- A frame without a byte. -/
  | emptyFrame
  /-- A first byte "none of the six opcodes" (R268). -/
  | unknownOpcode (b : Byte)
  /-- A frame "whose length does not match 30_encoding.md rule R97" (R268). -/
  | frameLength (b : Byte)
  /-- A request that is not well formed (R100). -/
  | payloadLength
deriving DecidableEq, Repr

/-- R94: `enc_addr(a) = [a[23:16], a[15:8], a[7:0]]`. -/
def encAddr (a : Addr) : List Byte :=
  [a.extractLsb' 16 8, a.extractLsb' 8 8, a.extractLsb' 0 8]

/-- R92: the address of the bytes `addr_hi`, `addr_mid`, `addr_lo`. -/
def decAddr (a2 a1 a0 : Byte) : Addr := a2 ++ a1 ++ a0

/-- R97: which frame a byte list is. The command phase is 1 byte for 0x05, 0x06 and 0x9F and 4 bytes for 0x03, 0x02 and
`ERASE_OPCODE`; the data phase is 1 byte in for 0x05, 3 for 0x9F, none for 0x06 and `ERASE_OPCODE`, and runs to the
end of the interval for 0x03 (in) and 0x02 (out). A program frame without payload is no frame of R258 (`n` ≥ 1; R201
calls it "malformed"): log entry 20. -/
def decodeFrame (eraseOpcode : Byte) (f : Frame) : Except DecodeError Instr :=
  match f.sent with
  | [] => .error .emptyFrame
  | b :: rest =>
    if b = 0x05#8 then
      (if rest = [] ∧ f.nIn = 1 then .ok .rdsr else .error (.frameLength b))
    else if b = 0x06#8 then
      (if rest = [] ∧ f.nIn = 0 then .ok .wren else .error (.frameLength b))
    else if b = 0x9F#8 then
      (if rest = [] ∧ f.nIn = 3 then .ok .rdid else .error (.frameLength b))
    else if b = 0x03#8 then
      match rest with
      | [a2, a1, a0] => .ok (.read (decAddr a2 a1 a0) f.nIn)
      | _ => .error (.frameLength b)
    else if b = 0x02#8 then
      match rest with
      | a2 :: a1 :: a0 :: d0 :: d =>
        if f.nIn = 0 then .ok (.pp (decAddr a2 a1 a0) (d0 :: d)) else .error (.frameLength b)
      | _ => .error (.frameLength b)
    else if b = eraseOpcode then
      match rest with
      | [a2, a1, a0] => if f.nIn = 0 then .ok (.se (decAddr a2 a1 a0)) else .error (.frameLength b)
      | _ => .error (.frameLength b)
    else .error (.unknownOpcode b)

/-- R101: the operation of a request, by its op code. -/
def requestInstr (r : Request) : Instr :=
  if r.op = 0x0#4 then .bind r.arg0 r.arg1
  else if r.op = 0x1#4 then .readIdentity r.arg0 r.arg1
  else if r.op = 0x2#4 then .readStatus r.arg0 r.arg1
  else if r.op = 0x3#4 then .writeEnable r.arg0 r.arg1
  else if r.op = 0x4#4 then .readData r.arg0 r.arg1
  else if r.op = 0x5#4 then .pageProgram r.arg0 r.arg1 r.payload
  else if r.op = 0x6#4 then .sectorErase r.arg0 r.arg1
  else if r.op = 0x7#4 then .waitReady r.arg0 r.arg1
  else .reserved (r.op.extractLsb' 0 3) r.arg0 r.arg1

/-- R100: a request decodes iff it is well formed. -/
def decodeRequest (r : Request) : Except DecodeError Instr :=
  if r.wellFormed then .ok (requestInstr r) else .error .payloadLength

/-- The decoder, on either kind of packet. -/
def decode (eraseOpcode : Byte) : Packet → Except DecodeError Instr
  | .frame f => decodeFrame eraseOpcode f
  | .request r => decodeRequest r

/-- The encoder, from the same tables (R91, R92, R93, R101). -/
def encode (eraseOpcode : Byte) : Instr → Packet
  | .rdsr => .frame ⟨[0x05], 1⟩
  | .wren => .frame ⟨[0x06], 0⟩
  | .read a n => .frame ⟨0x03 :: encAddr a, n⟩
  | .pp a d => .frame ⟨0x02 :: (encAddr a ++ d), 0⟩
  | .rdid => .frame ⟨[0x9F], 3⟩
  | .se a => .frame ⟨eraseOpcode :: encAddr a, 0⟩
  | .bind h g => .request ⟨0x0, h, g, []⟩
  | .readIdentity g0 g1 => .request ⟨0x1, g0, g1, []⟩
  | .readStatus g0 g1 => .request ⟨0x2, g0, g1, []⟩
  | .writeEnable g0 g1 => .request ⟨0x3, g0, g1, []⟩
  | .readData a n => .request ⟨0x4, a, n, []⟩
  | .pageProgram a n d => .request ⟨0x5, a, n, d⟩
  | .sectorErase a g => .request ⟨0x6, a, g, []⟩
  | .waitReady g b => .request ⟨0x7, g, b, []⟩
  | .reserved low a0 a1 => .request ⟨1#1 ++ low, a0, a1, []⟩

/-- R100: the 68-bit bundle `Q`: `op = Q[67:64]`, `arg0 = Q[63:32]`, `arg1 = Q[31:0]`. -/
def Request.bundle (r : Request) : BitVec 68 := r.op ++ r.arg0 ++ r.arg1

/-- R100: the request of a bundle and the payload that travels beside it. -/
def Request.ofBundle (q : BitVec 68) (payload : List Byte) : Request where
  op := q.extractLsb' 64 4
  arg0 := q.extractLsb' 32 32
  arg1 := q.extractLsb' 0 32
  payload := payload

/-- R97: the bytes a one-byte command sends back, which the table's rows give no bits. -/
def f1DataIn (b : Byte) : Nat := if b = 0x05#8 then 1 else if b = 0x9F#8 then 3 else 0

/-- The packet of an opcode-table row's bits, numbered as the table numbers them: an 8-bit F1 opcode, the 32-bit
header word `H` of F4 (R92), or the 68-bit bundle `Q`. What the table gives no bits is zero: a program frame carries
one zero payload byte, a page_program its `arg1` zero bytes (log entry 22). -/
def tablePacket (nbits w : Nat) : Packet :=
  if nbits ≤ 8 then .frame ⟨[BitVec.ofNat 8 w], f1DataIn (BitVec.ofNat 8 w)⟩
  else if nbits ≤ 32 then
    let h := BitVec.ofNat 32 w
    let header : List Byte := [h.extractLsb' 24 8, h.extractLsb' 16 8, h.extractLsb' 8 8, h.extractLsb' 0 8]
    .frame ⟨if h.extractLsb' 24 8 = 0x02#8 then header ++ [0] else header, 0⟩
  else
    let r := Request.ofBundle (BitVec.ofNat 68 w) []
    .request (if r.op = 5#4 then { r with payload := List.replicate r.arg1.toNat 0 } else r)

/-- The instruction the decoder reads from an opcode-table row's bits, with the table's own erase opcode. -/
def decodeTableWord (nbits w : Nat) : Option Instr :=
  if w < 2 ^ (if nbits ≤ 8 then 8 else if nbits ≤ 32 then 32 else 68) then
    match decode Params.vectors.eraseOpcode (tablePacket nbits w) with
    | .ok i => some i
    | .error _ => none
  else none

end Sys2Proof
end

