-- ==== Sys2Proof/Machine/State.lean ====
section
/-! DEFINITION. The state of FLASHCMD, its host port, the transport and the chip, as plain data (10_state.md,
40_transport.md R120 to R129, 46_chip_model.md R250); the reasons a step stops; the state after reset. -/
namespace Sys2Proof.Machine

/-- R34 and R109: the phases, in the order of their codes 0 to 7. `idle` is also the phase code `NONE` of a response. -/
inductive Phase where
  | idle
  | select
  | wrenWrite
  | statusCmd
  | statusRead
  | cmdWrite
  | dataWrite
  | dataRead
deriving DecidableEq, Repr

/-- R104: the result codes 0 to 6; code 7 is "never produced". -/
inductive ResultCode where
  | ok
  | transportError
  | invalidAddress
  | writeNotEnabled
  | timeout
  | configError
  | illegalOp
deriving DecidableEq, Repr

/-- R38, R103: `CODE`, `EPHASE`, `VALUE` and `RDATA`. -/
structure Response where
  code   : ResultCode
  ephase : Phase
  value  : BitVec 24
  rdata  : List Byte
deriving DecidableEq, Repr

/-- FLASHCMD's registers (R32 to R38). `resp` is none while no response is pending. -/
structure Regs where
  bound  : Bool
  handle : Word
  phase  : Phase
  op     : BitVec 4
  arg0   : Word
  arg1   : Word
  sr     : Byte
  polls  : Word
  resp   : Option Response
deriving DecidableEq, Repr

/-- The host's side of the request port: the requests that wait (R319), oldest first, and the payload the host still
holds for the operation in progress (R31: payload bytes "stream from the host" and are not FLASHCMD's). -/
structure HostPort where
  waiting : List Request
  stream  : List Byte
deriving DecidableEq, Repr

/-- R121: an open frame: whether its bytes are known (an error or a reset adds unknown ones, which are draws: R126);
whether the chip was busy when it was opened, or left open by an error; the bytes sent in it; how many bytes a failed
`spi_read` has shifted in; whether bytes out have followed bytes in, which makes it no frame of R97. -/
structure OpenFrame where
  known   : Bool
  sawBusy : Bool
  sent    : List Byte
  nIn     : Nat
  mixed   : Bool
deriving DecidableEq, Repr

/-- The transport: the target slot of `spi_select`; the chip-select lines that are asserted, by slot number, each with its
open frame (R18: a slot is a line of its own; R45: asserted iff a frame is open), in rising order; and the bytes the chip
shifted out in its last frame. -/
structure Bus where
  target : Word
  lines  : List (Nat × OpenFrame)
  rx     : List Byte
deriving DecidableEq, Repr

/-- What the bytes of the array that are not listed hold: one value, or the drawn contents of number `epoch`. -/
inductive MemBase where
  | fixed (b : Byte)
  | drawn (epoch : Nat)
deriving DecidableEq, Repr

/-- R250 `mem`: the listed bytes, by address, over a background. -/
structure Memory where
  base  : MemBase
  cells : List Host.Cell
deriving DecidableEq, Repr

/-- R250: the chip. -/
structure Chip where
  mem    : Memory
  wel    : Bool
  busy   : Option Pending
  hazard : Bool
deriving DecidableEq, Repr

/-- The model's own: what the outside has already chosen, and the counter the uninterpreted constants of Config are
applied to where it has chosen nothing (log entries 5, 6, 7). -/
structure Env where
  sched   : List Event
  answers : List Answer
  draws   : List Nat
  drawn   : Nat
deriving DecidableEq, Repr

/-- R129: the events of the trace. `rd n none` is a read that returned `err`. -/
inductive TraceEvent where
  | req (op : BitVec 4) (arg0 arg1 : Word) (payload : List Byte)
  | sel (h : Word)
  | w (bs : List Byte)
  | wc (bs : List Byte)
  | rd (n : Nat) (rs : Option (List Byte))
  | err (phase : Phase)
  | rsp (r : Response)
deriving DecidableEq, Repr

/-- The machine. `trace` is newest first. -/
structure State where
  cfg   : Params
  reg   : Regs
  port  : HostPort
  bus   : Bus
  chip  : Chip
  env   : Env
  trace : List TraceEvent
deriving DecidableEq, Repr

/-- The faults. -/
inductive Fault where
  /-- Raised by a host operation in a phase it never passes through (R34, R110), and by a step whose latches hold no
  well-formed request during an operation. No run reaches it. Safe: the machine stops. -/
  | phaseOutOfSequence
deriving DecidableEq, Repr

/-- The refusals. -/
inductive Refusal where
  /-- Raised by `exec` for an instruction without a meaning. Safe. -/
  | notModelled (mnemonic : String)
  /-- Raised by a step that puts or accepts a request that is not well formed (R100: "a model refuses"). Safe. -/
  | malformedRequest
  /-- Raised by every step under a forbidden erase opcode (R11: "a model refuses") and, which is the model's choice (log
  entry 38), under parameters outside the other bounds of R10. Safe. -/
  | badConfiguration
  /-- Raised by a step in which another agent puts a frame on the chip during an operation (93_implementation_defined.md
  part 2: "refuse: no model of interleaved frames"; R319, R346). Safe. -/
  | interleavedFrame
deriving DecidableEq, Repr

/-- The state after reset (R46, R330), at the start of a run (R43, R250). `BOUND` = 0, `PHASE` = IDLE, no response
pending and `hazard` = 0 are the spec's; the chip's latch, its busy state and its array are free values; every other
value is named in the log (entries 1, 5 to 9, 11, 12, 13, 25, 26). -/
def State.reset : State where
  cfg := Params.vectors
  reg := { bound := false, handle := 0, phase := .idle, op := 0, arg0 := 0, arg1 := 0, sr := 0, polls := 0, resp := none }
  port := { waiting := [], stream := [] }
  bus := { target := 0, lines := [], rx := [] }
  chip :=
    { mem := { base := .drawn 0, cells := [] }, wel := Config.powerUpWel, busy := Config.powerUpBusy, hazard := false }
  env := { sched := [], answers := [], draws := [], drawn := 0 }
  trace := []

end Sys2Proof.Machine
end

