-- ==== Sys2Proof/Machine/Ops.lean ====
section
/-! DEFINITION. The operations every meaning is made of: codes, drawn values, the array, updates of the registers,
accepting a request, responding, and taking an error (60_exceptions.md R309). -/
namespace Sys2Proof.Machine

/-! Codes -/

/-- R34, R109: the number of a phase. -/
def Phase.toBits : Phase → BitVec 3
  | .idle => 0
  | .select => 1
  | .wrenWrite => 2
  | .statusCmd => 3
  | .statusRead => 4
  | .cmdWrite => 5
  | .dataWrite => 6
  | .dataRead => 7

/-- R104: the number of a result code. -/
def ResultCode.toBits : ResultCode → BitVec 3
  | .ok => 0
  | .transportError => 1
  | .invalidAddress => 2
  | .writeNotEnabled => 3
  | .timeout => 4
  | .configError => 5
  | .illegalOp => 6

/-- R103: the 30-bit bundle `P`: `code = P[29:27]`, `ephase = P[26:24]`, `value = P[23:0]`. -/
def Response.bundle (r : Response) : BitVec 30 := r.code.toBits ++ r.ephase.toBits ++ r.value

/-! Drawn values -/

/-- The drawn value that is next. -/
def Env.value (e : Env) : Nat :=
  match e.draws with
  | d :: _ => d
  | [] => Config.freeDraw e.drawn

/-- The environment after a drawn value is used. -/
def Env.next (e : Env) : Env := { e with draws := e.draws.tail, drawn := e.drawn + 1 }

/-- A drawn bit. -/
def Env.bit (e : Env) : Bool := e.value % 2 == 1

/-- A drawn byte. -/
def Env.byte (e : Env) : Byte := BitVec.ofNat 8 e.value

/-- A drawn 32-bit value. -/
def Env.word (e : Env) : Word := BitVec.ofNat 32 e.value

/-- `n` drawn bytes. -/
def drawBytes : Nat → Env → List Byte × Env
  | 0, e => ([], e)
  | n + 1, e => (e.byte :: (drawBytes n e.next).1, (drawBytes n e.next).2)

/-- Exactly `n` bytes: the first `n` of a list, drawn bytes where the list is shorter. -/
def fitBytes : Nat → List Byte → Env → List Byte × Env
  | 0, _, e => ([], e)
  | n + 1, [], e => (e.byte :: (fitBytes n [] e.next).1, (fitBytes n [] e.next).2)
  | n + 1, b :: bs, e => (b :: (fitBytes n bs e).1, (fitBytes n bs e).2)

/-- A drawn `busy` (R43, R262, R269): none, an erase or a program. -/
def drawPending (e : Env) : Option Pending × Env :=
  match e.value % 3 with
  | 0 => (none, e.next)
  | 1 => (some (.erase e.next.value), e.next.next)
  | _ =>
    let d := drawBytes e.next.next.value e.next.next.next
    (some (.prog e.next.value d.1), d.2)

/-! Sparse data by number: the array by address, the asserted chip-select lines by slot -/

/-- What is listed at a number. -/
def lookupCell {α : Type} (t : Nat) : List (Nat × α) → Option α
  | [] => none
  | (u, b) :: cs => if t = u then some b else lookupCell t cs

/-- The list without a number. -/
def removeCell {α : Type} (t : Nat) : List (Nat × α) → List (Nat × α)
  | [] => []
  | (u, b) :: cs => if t = u then removeCell t cs else (u, b) :: removeCell t cs

/-- The list with a value at a number, in rising order. -/
def insertCell {α : Type} (t : Nat) (v : α) : List (Nat × α) → List (Nat × α)
  | [] => [(t, v)]
  | (u, b) :: cs =>
    if t < u then (t, v) :: (u, b) :: cs
    else if t = u then (t, v) :: cs
    else (u, b) :: insertCell t v cs

/-- The numbers of a list rise strictly from a bound. -/
def cellsRise {α : Type} (lo : Nat) : List (Nat × α) → Bool
  | [] => true
  | (u, _) :: cs => decide (lo ≤ u) && cellsRise (u + 1) cs

/-! The array -/

/-- What an unlisted address reads as: THE definition (log entry 12). -/
def MemBase.byte : MemBase → Nat → Byte
  | .fixed b, _ => b
  | .drawn epoch, t => Config.freeByte epoch t

/-- `MemRead(t, 1)` (R14). -/
def Memory.read (m : Memory) (t : Nat) : Byte :=
  match lookupCell t m.cells with
  | some b => b
  | none => m.base.byte t

/-- `mem[t] <- v` (R14), in canonical form: a byte equal to the background is not listed. -/
def Memory.write (m : Memory) (t : Nat) (v : Byte) : Memory :=
  if v = m.base.byte t then { m with cells := removeCell t m.cells }
  else { m with cells := insertCell t v m.cells }

/-- `mem[t] <- v` for the `n` addresses from `lo`, the highest first. -/
def Memory.fill (m : Memory) (lo : Nat) (v : Byte) : Nat → Memory
  | 0 => m
  | n + 1 => (m.write (lo + n) v).fill lo v n

/-- The canonical form: addresses strictly rising, no entry equal to what an unlisted address reads as. -/
def Memory.wf (m : Memory) : Bool := cellsRise 0 m.cells && m.cells.all fun c => c.2 != m.base.byte c.1

/-- Every listed byte lies below a bound (R60: the array is `0 .. FLASH_SIZE - 1`). -/
def Memory.below (m : Memory) (size : Nat) : Bool := m.cells.all fun c => decide (c.1 < size)

/-! The chip-select lines -/

/-- R45: the open frame on the line of slot `h`; none where the line is deasserted. -/
def Bus.line (b : Bus) (h : Nat) : Option OpenFrame := lookupCell h b.lines

/-- The line of slot `h` is asserted with a frame, or deasserted; every other line stays (R18, R120). -/
def Bus.setLine (b : Bus) (h : Nat) (f : Option OpenFrame) : Bus :=
  match f with
  | some f => { b with lines := insertCell h f b.lines }
  | none => { b with lines := removeCell h b.lines }

/-- R121: a frame opened by the bytes `bs`; `busy` says that the chip is busy. -/
def OpenFrame.start (busy : Bool) (bs : List Byte) : OpenFrame := ⟨true, busy, bs, 0, false⟩

/-- More bytes out in an open frame. -/
def OpenFrame.push (f : OpenFrame) (bs : List Byte) : OpenFrame :=
  { f with sent := f.sent ++ bs, mixed := f.mixed || (decide (0 < f.nIn) && !bs.isEmpty) }

/-- R120: the open frame on the line of the target slot. -/
def Bus.frame (b : Bus) : Option OpenFrame := b.line b.target.toNat

/-! Updates -/

/-- R129: an event is added to the trace. -/
def State.log (s : State) (e : TraceEvent) : State := { s with trace := e :: s.trace }

/-- `phase <- P` (R14). -/
def goto (p : Phase) (s : State) : State := { s with reg := { s.reg with phase := p } }

/-- `SR <- b` (R36). -/
def setSr (b : Byte) (s : State) : State := { s with reg := { s.reg with sr := b } }

/-- `POLLS <- v` (R37). -/
def setPolls (v : Word) (s : State) : State := { s with reg := { s.reg with polls := v } }

/-- The rest of a bind: `HANDLE <- h`, `BOUND <- 1` (R140). -/
def setBound (h : Word) (s : State) : State := { s with reg := { s.reg with bound := true, handle := h } }

/-- R47: "ready to accept a host request exactly when `PHASE` = `IDLE` and no response is pending". -/
def State.ready (s : State) : Bool := s.reg.phase == .idle && s.reg.resp.isNone

/-! Responses and errors -/

/-- `respond(code, phase, value, rdata)` (R14, R103): the response registers are written once, `PHASE <- IDLE`, and the
host drops the payload it held. -/
def respond (code : ResultCode) (ephase : Phase) (value : BitVec 24) (rdata : List Byte) (s : State) : State :=
  { s with
    reg := { s.reg with phase := .idle, resp := some ⟨code, ephase, value, rdata⟩ }
    port := { s.port with stream := [] }
    trace := .rsp ⟨code, ephase, value, rdata⟩ :: s.trace }

/-- TAKING AN ERROR, `raise E(phase, value)` (R14, R309): no further call, an empty `RDATA`, `PHASE <- IDLE`; neither
`BOUND` nor `HANDLE` changes. There is no return from an error (R310): the host takes the response. -/
def raiseError (code : ResultCode) (ephase : Phase) (value : BitVec 24) (s : State) : State :=
  respond code ephase value [] s

/-- R100: a request is accepted: the latches are written, the payload stays with the host. -/
def latch (op : BitVec 4) (arg0 arg1 : Word) (payload : List Byte) (s : State) : State :=
  { s with
    reg := { s.reg with op := op, arg0 := arg0, arg1 := arg1 }
    port := { s.port with stream := payload }
    trace := .req op arg0 arg1 payload :: s.trace }

/-- R100: "A request is accepted only when FLASHCMD is ready"; otherwise nothing happens (log entry 15). -/
def accept (op : BitVec 4) (arg0 arg1 : Word) (payload : List Byte) (k : State → State) (s : State) : State :=
  if s.ready then k (latch op arg0 arg1 payload s) else s

/-- `if BOUND = 0: raise ConfigError(0, 0)` (R305). -/
def requireBound (k : State → State) (s : State) : State :=
  if s.reg.bound then k s else raiseError .configError .idle 0 s

end Sys2Proof.Machine
end

