-- ==== Sys2Proof/Machine/Operands.lean ====
section
/-! DEFINITION. Operand forms: the address check (20_memory.md R63), the identity and the status byte as values
(30_encoding.md R95, R105), the address on the wire (R94) and the read address sequence (46_chip_model.md R256). -/
namespace Sys2Proof.Machine

/-- R63: "valid iff `a < 2^24`". -/
def addressValid (a : Word) : Bool := decide (a.toNat < 2 ^ 24)

/-- The wire address of a valid operand; R63: an invalid one is never masked, it is rejected before this is used. -/
def wireAddr (a : Word) : Addr := a.extractLsb' 0 24

/-- `if a >= 2^24: raise InvalidAddress(0, 0)` (R302). -/
def requireAddress (a : Word) (k : State → State) (s : State) : State :=
  if addressValid a then k s else raiseError .invalidAddress .idle 0 s

/-- R95: `{r0, r1, r2}`, big-endian. -/
def identityOf (rs : List Byte) : BitVec 24 := rs.getD 0 0 ++ rs.getD 1 0 ++ rs.getD 2 0

/-- R257: `[ID_VALUE[23:16], ID_VALUE[15:8], ID_VALUE[7:0]]`. -/
def identityBytes (v : BitVec 24) : List Byte := [v.extractLsb' 16 8, v.extractLsb' 8 8, v.extractLsb' 0 8]

/-- `zext_24(s)` (R105). -/
def zext24 (b : Byte) : BitVec 24 := b.zeroExtend 24

/-- The entry of a `READ_WRAP` table. -/
def lookupWrap (k : Nat × Nat) : List ((Nat × Nat) × Nat) → Option Nat
  | [] => none
  | (j, t) :: l => if k = j then some t else lookupWrap k l

/-- R256, R270: the address byte `i` of a read at `a` comes from, or none where the byte is a draw. -/
def readTarget (p : Params) (a i : Nat) : Option Nat :=
  let t := match p.readWrap with
    | none => a + i
    | some table => (lookupWrap (a, i) table).getD (a + i)
  if t < p.flashSize then some t else none

/-- R264: the aligned sector that contains an address, `a − (a mod SECTOR_SIZE)` (R263). -/
def sectorBase (p : Params) (a : Nat) : Nat := a - a % p.sectorSize

/-- The first address of the page that contains an address (R260). -/
def pageBase (p : Params) (a : Nat) : Nat := a - a % p.pageSize

/-- R258, R260: `(a mod PAGE_SIZE) + n ≤ PAGE_SIZE`. -/
def withinPage (p : Params) (a n : Nat) : Bool := decide (a % p.pageSize + n ≤ p.pageSize)

end Sys2Proof.Machine
end

