-- ==== Sys2Proof/Machine/Bind.lean ====
section
/-! DEFINITION. The operations without traffic: bind (41_bind.md R140) and the reserved requests (60_exceptions.md
R306). -/
namespace Sys2Proof.Machine

/-- R140: already bound, or an invalid handle: `ConfigError`; else `HANDLE <- h`, `BOUND <- 1`. -/
def bindSlot (h : Word) (s : State) : State :=
  if s.reg.bound then raiseError .configError .idle 0 s
  else if s.cfg.slotValid h then respond .ok .idle 0 [] (setBound h s)
  else raiseError .configError .idle 0 s

/-- `bind h` (R140, R141). -/
def execBind (h ignored : Word) (s : State) : Host.Outcome State Fault Refusal :=
  match s.reg.phase with
  | .idle => .next (accept 0x0 h ignored [] (bindSlot h) s)
  | _ => .fault .phaseOutOfSequence

/-- A reserved request: `IllegalOp`, bound or not, with no call (R306). -/
def execReserved (low : BitVec 3) (arg0 arg1 : Word) (s : State) : Host.Outcome State Fault Refusal :=
  match s.reg.phase with
  | .idle => .next (accept (1#1 ++ low) arg0 arg1 [] (raiseError .illegalOp .idle 0) s)
  | _ => .fault .phaseOutOfSequence

end Sys2Proof.Machine
end

