-- ==== Sys2Proof/Machine/Flags.lean ====
section
/-! DEFINITION. The flags of the system, the chip's status bits (10_state.md R40, R41; 30_encoding.md R96;
46_chip_model.md R252). FLASHCMD has none of its own. -/
namespace Sys2Proof.Machine

/-- R96: `WIP = s[0]`. -/
def statusWip (b : Byte) : Bool := b.getLsbD 0

/-- R96: `WEL = s[1]`. -/
def statusWel (b : Byte) : Bool := b.getLsbD 1

/-- R41: bits 7:2, "never interpreted". -/
def statusOpaqueBits (b : Byte) : BitVec 6 := b.extractLsb' 2 6

/-- R252: `s = {opq, w, wip}`. -/
def statusByte (opq : BitVec 6) (w wip : Bool) : Byte := opq ++ BitVec.ofBool w ++ BitVec.ofBool wip

/-- R252: `wip = 1` iff `busy ≠ None`. -/
def Chip.wip (c : Chip) : Bool := c.busy.isSome

/-- R252, R267: the WEL a status read shows: the latch when idle, a draw while busy. -/
def shownWel (c : Chip) (e : Env) : Bool × Env :=
  match c.busy with
  | none => (c.wel, e)
  | some _ => (e.bit, e.next)

/-- R272: bits 7:2 of a status read: the parameter, or a draw. -/
def shownOpaque (p : Params) (e : Env) : BitVec 6 × Env :=
  match p.statusOpaque with
  | some o => (o, e)
  | none => (BitVec.ofNat 6 e.value, e.next)

end Sys2Proof.Machine
end

