-- ==== Sys2Proof/Machine/Chip.lean ====
section
/-! DEFINITION. The reference chip (46_chip_model.md): what a frame does to the chip and the bytes it sends, its
completion step, and its state where no rule settles it. -/
namespace Sys2Proof.Machine

/-- What a frame leaves: the bytes the chip sent, the chip, the drawn values used. -/
structure ChipOut where
  rx   : List Byte
  chip : Chip
  env  : Env
deriving DecidableEq, Repr

/-- `mem`, `wel` and `busy` become draws (R262, R269); `hazard` stays. -/
def unknownChip (c : Chip) (e : Env) : Chip × Env :=
  let b := drawPending e.next
  ({ c with mem := ⟨.drawn (e.drawn + 1), []⟩, wel := e.bit, busy := b.1 }, b.2)

/-- R261, R262, R268, R270: `hazard` is set, the effect is a draw, and so are the `nIn` bytes sent. -/
def hazardOut (nIn : Nat) (c : Chip) (e : Env) : ChipOut :=
  let u := unknownChip { c with hazard := true } e
  let d := drawBytes nIn u.2
  ⟨d.1, u.1, d.2⟩

/-- R260, R270: the bytes that follow the opcode of a program or an erase hold an address from `FLASH_SIZE` up, or a
payload that crosses its page. -/
def operandsBreak (p : Params) : List Byte → Bool
  | a2 :: a1 :: a0 :: d =>
    decide (p.flashSize ≤ (decAddr a2 a1 a0).toNat) || !withinPage p (decAddr a2 a1 a0).toNat d.length
  | _ => false

/-- Read status (R252): legal while busy, no effect. -/
def chipRdsr (p : Params) (c : Chip) (e : Env) : ChipOut :=
  let w := shownWel c e
  let o := shownOpaque p w.2
  ⟨[statusByte o.1 w.1 c.wip], c, o.2⟩

/-- Write enable (R253): when idle, `wel <- 1`, or, as a draw, unchanged. -/
def chipWren (c : Chip) (e : Env) : ChipOut :=
  match c.busy with
  | some _ => hazardOut 0 c e
  | none => ⟨[], { c with wel := c.wel || e.bit }, e.next⟩

/-- R256: the `n` bytes of a read at `a` from byte `i` on. -/
def readBytes (p : Params) (m : Memory) (a : Nat) : Nat → Nat → Env → List Byte × Env
  | 0, _, e => ([], e)
  | n + 1, i, e =>
    match readTarget p a i with
    | some t => (m.read t :: (readBytes p m a n (i + 1) e).1, (readBytes p m a n (i + 1) e).2)
    | none => (e.byte :: (readBytes p m a n (i + 1) e.next).1, (readBytes p m a n (i + 1) e.next).2)

/-- Read data (R255): no effect; `N` bytes. -/
def chipRead (p : Params) (a : Addr) (n : Nat) (c : Chip) (e : Env) : ChipOut :=
  match c.busy with
  | some _ => hazardOut n c e
  | none => ⟨(readBytes p c.mem a.toNat n 0 e).1, c, (readBytes p c.mem a.toNat n 0 e).2⟩

/-- Read identity (R257): no effect; the fixed three bytes. -/
def chipRdid (p : Params) (c : Chip) (e : Env) : ChipOut :=
  match c.busy with
  | some _ => hazardOut 3 c e
  | none => ⟨identityBytes p.idValue, c, e⟩

/-- Page program (R258). The preconditions in their order: idle (R262), `wel = 1` (R261), `a < FLASH_SIZE` (R270); a
program that crosses its page sets `hazard` and runs (R260). -/
def chipPp (p : Params) (a : Addr) (d : List Byte) (c : Chip) (e : Env) : ChipOut :=
  match c.busy with
  | some _ => hazardOut 0 c e
  | none =>
    if c.wel = true ∧ a.toNat < p.flashSize then
      ⟨[], { c with busy := some (.prog a.toNat d), hazard := c.hazard || !withinPage p a.toNat d.length }, e⟩
    else hazardOut 0 c e

/-- Sector erase (R263): `busy <- Erase(a − (a mod SECTOR_SIZE))`. -/
def chipSe (p : Params) (a : Addr) (c : Chip) (e : Env) : ChipOut :=
  match c.busy with
  | some _ => hazardOut 0 c e
  | none =>
    if c.wel = true ∧ a.toNat < p.flashSize then
      ⟨[], { c with busy := some (.erase (sectorBase p a.toNat)) }, e⟩
    else hazardOut 0 c e

/-- R251, R97: the chip dispatches a frame on its first byte. `sawBusy` says that the chip was busy when the frame
began: R262 then holds of it whatever has completed since (log entry 23). -/
def chipFrame (p : Params) (f : Frame) (sawBusy : Bool) (c : Chip) (e : Env) : ChipOut :=
  match decodeFrame p.eraseOpcode f with
  | .ok .rdsr => chipRdsr p c e
  | .ok i =>
    if sawBusy then hazardOut f.nIn c e
    else match i with
      | .wren => chipWren c e
      | .read a n => chipRead p a n c e
      | .pp a d => chipPp p a d c e
      | .rdid => chipRdid p c e
      | .se a => chipSe p a c e
      | _ => hazardOut f.nIn c e
  | .error _ => hazardOut f.nIn c e

/-- The end of an open frame on the modelled chip, with `n` more bytes in, which are the last it sends. Bytes out after
bytes in make it no frame of R97, so it sets `hazard` (R268). -/
def chipEnds (f : OpenFrame) (n : Nat) (p : Params) (c : Chip) (e : Env) : ChipOut :=
  if f.mixed then hazardOut n c e
  else
    let r := chipFrame p ⟨f.sent, f.nIn + n⟩ f.sawBusy c e
    { r with rx := r.rx.drop f.nIn }

/-- Whether the bytes sent in the open frame `f` leave it no end that keeps `hazard` clear: it has no shape of R97 (R268);
the chip is busy, or was when the frame began (log entry 23), and it is no read status (R262); it is a program or an
erase, and the latch is clear (R261), its address is from `FLASH_SIZE` up (R270) or it crosses its page (R260). -/
def frameBreaks (p : Params) (f : OpenFrame) (c : Chip) : Bool :=
  f.mixed ||
    match f.sent with
    | [] => false
    | b :: rest =>
      if b = 0x05#8 then !rest.isEmpty
      else if f.sawBusy || c.busy.isSome then true
      else if b = 0x06#8 ∨ b = 0x9F#8 then !rest.isEmpty
      else if b = 0x03#8 then decide (3 < rest.length)
      else if b = 0x02#8 then !c.wel || operandsBreak p rest
      else if b = p.eraseOpcode then !c.wel || operandsBreak p rest || decide (3 < rest.length)
      else true

/-- R259: the bytes of a program go to consecutive addresses: the new byte where the array held 0xFF, a draw elsewhere;
no byte outside the array (R250). -/
def programBytes (size : Nat) : List Byte → Nat → Memory → Env → Memory × Env
  | [], _, m, e => (m, e)
  | b :: bs, t, m, e =>
    if t < size then
      if m.read t = 0xFF#8 then programBytes size bs (t + 1) (m.write t b) e
      else programBytes size bs (t + 1) (m.write t e.byte) e.next
    else programBytes size bs (t + 1) m e

/-- R260: `n` bytes from `t` become draws. -/
def drawRange (size : Nat) : Nat → Nat → Memory → Env → Memory × Env
  | 0, _, m, e => (m, e)
  | n + 1, t, m, e =>
    if t < size then drawRange size n (t + 1) (m.write t e.byte) e.next
    else drawRange size n (t + 1) m e

/-- The array when a program or erase has completed (R259, R260, R264). THE MODEL'S CHOICE (log entry 28): a crossing
program draws its page and leaves the next one. -/
def completedMemory (p : Params) (m : Memory) (e : Env) : Pending → Memory × Env
  | .prog a d =>
    if withinPage p a d.length then programBytes p.flashSize d a m e
    else drawRange p.flashSize p.pageSize (pageBase p a) m e
  | .erase base => (m.fill base 0xFF (min p.sectorSize (p.flashSize - base)), e)

/-- R265: completion, "enabled while `busy ≠ None`": the array changes, `busy <- None`, `wel <- 0`. -/
def chipComplete (p : Params) (c : Chip) (e : Env) : Chip × Env :=
  match c.busy with
  | none => (c, e)
  | some b =>
    ({ c with mem := (completedMemory p c.mem e b).1, busy := none, wel := false }, (completedMemory p c.mem e b).2)

/-- A chip operation in the machine: the bytes sent stand on the bus. -/
def State.onChip (s : State) (f : Params → Chip → Env → ChipOut) : State :=
  let r := f s.cfg s.chip s.env
  { s with chip := r.chip, env := r.env, bus := { s.bus with rx := r.rx } }

end Sys2Proof.Machine
end

