-- ==== Sys2Proof/Machine/ChipCommands.lean ====
section
/-! DEFINITION. The six SPI rows as instructions: the chip runs one frame (46_chip_model.md R252 to R263). -/
namespace Sys2Proof.Machine

/-- RDSR (R252). -/
def execRdsr (s : State) : Host.Outcome State Fault Refusal := .next (s.onChip fun p c e => chipRdsr p c e)

/-- WREN (R253). -/
def execWren (s : State) : Host.Outcome State Fault Refusal := .next (s.onChip fun _ c e => chipWren c e)

/-- READ (R255). -/
def execRead (a : Addr) (n : Nat) (s : State) : Host.Outcome State Fault Refusal :=
  .next (s.onChip fun p c e => chipRead p a n c e)

/-- PP (R258). A frame without payload is none of R258's (R268; log entry 20). -/
def execPp (a : Addr) (d : List Byte) (s : State) : Host.Outcome State Fault Refusal :=
  .next (s.onChip fun p c e => if d.isEmpty then hazardOut 0 c e else chipPp p a d c e)

/-- RDID (R257). -/
def execRdid (s : State) : Host.Outcome State Fault Refusal := .next (s.onChip fun p c e => chipRdid p c e)

/-- SE (R263). -/
def execSe (a : Addr) (s : State) : Host.Outcome State Fault Refusal := .next (s.onChip fun p c e => chipSe p a c e)

end Sys2Proof.Machine
end

