-- ==== Sys2Proof/Machine/Transport.lean ====
section
/-! DEFINITION. The four transport primitives (40_transport.md R120 to R126), the frames they make, and `try` (R14). -/
namespace Sys2Proof.Machine

/-- What a primitive returns (R120); `silent` is no return (R131). -/
inductive CallResult where
  | ok (rs : List Byte)
  | err
  | silent
deriving DecidableEq, Repr

/-- R130: the transport's answer to the next call. -/
def State.answer (s : State) : Answer :=
  match s.env.answers with
  | a :: _ => a
  | [] => Config.freeAnswer s.env.drawn

/-- The state after an answer is used. -/
def State.answered (s : State) : State :=
  { s with env := { s.env with answers := s.env.answers.tail, drawn := s.env.drawn + 1 } }

/-- R120: the chip select of the target slot is asserted if it is not, and bytes are shifted out. -/
def shiftOut (bs : List Byte) (s : State) : State :=
  let f := match s.bus.frame with
    | none => .start s.chip.wip bs
    | some f => f.push bs
  { s with bus := s.bus.setLine s.bus.target.toNat (some f) }

/-- A frame held open sets `hazard` as soon as its bytes break a rule of the chip however it ends (R261, R262, R268,
R270), even if an error or a reset cuts it afterwards. -/
def commandSeen (s : State) : State :=
  match s.bus.frame with
  | some f =>
    if s.bus.target.toNat = s.cfg.chipSlot then
      { s with chip := { s.chip with hazard := s.chip.hazard || frameBreaks s.cfg f s.chip } }
    else s
  | none => s

/-- R121, R251: the chip select of the target slot is deasserted after `nIn` bytes in, and the chip of that slot has its
frame. A slot without the modelled chip answers drawn bytes (log entry 2); so does a line without an open frame (log
entry 24). -/
def endFrame (nIn : Nat) (s : State) : State :=
  match s.bus.frame with
  | none => s.onChip fun _ c e => ⟨(drawBytes nIn e).1, c, (drawBytes nIn e).2⟩
  | some f =>
    let closed : State := { s with bus := s.bus.setLine s.bus.target.toNat none }
    if s.bus.target.toNat = s.cfg.chipSlot then
      closed.onChip (chipEnds f nIn)
    else closed.onChip fun _ c e => ⟨(drawBytes nIn e).1, c, (drawBytes nIn e).2⟩

/-- The frame that an error or a reset leaves open on a line that had the frame `f`: the bytes of the cut call that reached
the chip are "unknown" (R126), so a drawn number of drawn bytes out, and of bytes in, follow those surely sent (log entry
18). `busy` says that the chip was busy before or after it. -/
def cutFrame (busy : Bool) (f : Option OpenFrame) (e : Env) : OpenFrame × Env :=
  let o := f.getD (.start false [])
  let d := drawBytes e.value e.next
  ({ o.push d.1 with known := false, sawBusy := o.sawBusy || busy, nIn := o.nIn + d.2.value }, d.2.next)

/-- R126, R269, R331: the chip is unknown, and so is the chip select of the bound slot (R45): a drawn bit says whether a
frame is open on it, with unknown bytes. The lines of other slots stay (log entry 31). `hazard` is not set by it (R269).
THE MODEL'S CHOICE (log entry 36): a frame left open on another slot's line does not note that the chip is drawn busy. -/
def lineUnknown (s : State) : State :=
  let u := unknownChip s.chip s.env.next
  let slot := s.reg.handle.toNat
  let f := cutFrame (s.chip.wip || u.1.wip) (s.bus.line slot) u.2
  { s with
    chip := u.1
    env := f.2
    bus := s.bus.setLine slot (if s.env.bit then some f.1 else none) }

/-- `spi_select(h)`: "makes slot `h` the target of the following primitives", with no bus effect. After an `err` chip and
line are unknown, as after any transport error (R126, R269, R312; vector PP-9, "unchanged", is one value of the draw: log
entry 17). Which slot is the target then is not said; THE MODEL'S CHOICE keeps the old one (log entry 32). -/
def spiSelect (h : Word) (s : State) : CallResult × State :=
  match s.answer with
  | .ok _ => (.ok [], { s.answered with bus := { s.bus with target := h } }.log (.sel h))
  | .err => (.err, (lineUnknown s.answered).log (.sel h))
  | .silent => (.silent, s.answered)

/-- `spi_write(bs)`: shifts out `bs`, then deasserts. THE MODEL'S CHOICE for every primitive (log entry 33): its whole effect
on line and chip is taken when it returns. -/
def spiWrite (bs : List Byte) (s : State) : CallResult × State :=
  match s.answer with
  | .ok _ => (.ok [], (endFrame 0 (shiftOut bs s.answered)).log (.w bs))
  | .err => (.err, (lineUnknown s.answered).log (.w bs))
  | .silent => (.silent, s.answered)

/-- `spi_write_continue(bs)`: shifts out `bs`, keeps the chip select asserted; the chip has seen the bytes. -/
def spiWriteContinue (bs : List Byte) (s : State) : CallResult × State :=
  match s.answer with
  | .ok _ => (.ok [], (commandSeen (shiftOut bs s.answered)).log (.wc bs))
  | .err => (.err, (lineUnknown s.answered).log (.wc bs))
  | .silent => (.silent, s.answered)

/-- The bytes of a read that the transport answers with `ok`: the chip's, or the transport's own (R130). -/
def lineBytes (bytes : Option (List Byte)) (s : State) : List Byte := bytes.getD s.bus.rx

/-- `spi_read(n)`: shifts in exactly `n` bytes (R130), then deasserts. -/
def spiRead (n : Nat) (s : State) : CallResult × State :=
  match s.answer with
  | .ok bytes =>
    let t := endFrame n s.answered
    let r := fitBytes n (lineBytes bytes t) t.env
    (.ok r.1, { t with env := r.2 }.log (.rd n (some r.1)))
  | .err => (.err, (lineUnknown s.answered).log (.rd n none))
  | .silent => (.silent, s.answered)

/-- R125, R301: `raise TransportError(P, 0)` with `P` the phase of the failed call. -/
def transportError (s : State) : State :=
  raiseError .transportError s.reg.phase 0 (s.log (.err s.reg.phase))

/-- `try p` (R14): `ok` goes on, `err` raises, and a call without an answer leaves the operation in its phase (R131). -/
def attempt (r : CallResult × State) (k : List Byte → State → State) : State :=
  match r.1 with
  | .ok rs => k rs r.2
  | .err => transportError r.2
  | .silent => r.2

/-- The first call of every operation with traffic: `spi_select(HANDLE)` (R123). -/
def callSelect (next : Phase) (s : State) : State := attempt (spiSelect s.reg.handle s) fun _ => goto next

/-- The command phase of a status read, `spi_write_continue([0x05])` (R122). -/
def callStatusCmd (s : State) : State := attempt (spiWriteContinue [0x05] s) fun _ => goto .statusRead

/-- The status byte of a status read: `rs <- try spi_read(1); SR <- rs[0]`, then `k` of the byte. -/
def callStatusRead (k : Byte → State → State) (s : State) : State :=
  attempt (spiRead 1 s) fun rs t => k (rs.getD 0 0) (setSr (rs.getD 0 0) t)

/-- The write-enable frame, `spi_write([0x06])` (R122). -/
def callWren (k : State → State) (s : State) : State := attempt (spiWrite [0x06] s) fun _ => k

/-- The end of `GATE()` (R182): `if SR[1] = 0: raise WriteNotEnabled(0, zext_24(SR))`, else the caller goes on. -/
def gateCheck (k : State → State) (b : Byte) (s : State) : State :=
  if statusWel b then k s else raiseError .writeNotEnabled .idle (zext24 b) s

end Sys2Proof.Machine
end

