-- ==== Sys2Proof/Machine/Poller.lean ====
section
/-! DEFINITION. wait_ready, the status-register poller (45_poller.md R230, R231). -/
namespace Sys2Proof.Machine

/-- The start of wait_ready: `POLLS <- 0`; `B` = 0 is a `Timeout` with no traffic (R230, R232). -/
def startPolling (bound : Word) (s : State) : State :=
  if bound = 0#32 then raiseError .timeout .idle 0 (setPolls 0 s) else goto .select (setPolls 0 s)

/-- The end of a poll (R230, R231): `POLLS <- POLLS + 1`; WIP = 0 is `OK`; `POLLS` = `B` is `Timeout`; else poll again. -/
def afterPoll (bound : Word) (b : Byte) (s : State) : State :=
  if statusWip b then
    if s.reg.polls + 1#32 = bound then raiseError .timeout .idle (zext24 b) (setPolls (s.reg.polls + 1#32) s)
    else goto .statusCmd (setPolls (s.reg.polls + 1#32) s)
  else respond .ok .idle (zext24 b) [] (setPolls (s.reg.polls + 1#32) s)

/-- `wait_ready B` (R230). -/
def execWaitReady (ignored bound : Word) (s : State) : Host.Outcome State Fault Refusal :=
  match s.reg.phase with
  | .idle => .next (accept 0x7 ignored bound [] (requireBound (startPolling bound)) s)
  | .select => .next (callSelect .statusCmd s)
  | .statusCmd => .next (callStatusCmd s)
  | .statusRead => .next (callStatusRead (afterPoll bound) s)
  | _ => .fault .phaseOutOfSequence

end Sys2Proof.Machine
end

