-- ==== Sys2Proof/Machine/ProgramErase.lean ====
section
/-! DEFINITION. page_program and sector_erase (44_program_erase.md), the gating state machine of 43_write_enable.md
R185. -/
namespace Sys2Proof.Machine

/-- After the gating of a page_program: `N` = 0 ends with `OK` and no program frame (R201). -/
def programAfterGate (n : Word) (s : State) : State :=
  if n = 0#32 then respond .ok .idle 0 [] s else goto .cmdWrite s

/-- `page_program a, data` (R200). -/
def execPageProgram (a n : Word) (data : List Byte) (s : State) : Host.Outcome State Fault Refusal :=
  match s.reg.phase with
  | .idle => .next (accept 0x5 a n data (requireBound (requireAddress a (goto .select))) s)
  | .select => .next (callSelect .wrenWrite s)
  | .wrenWrite => .next (callWren (goto .statusCmd) s)
  | .statusCmd => .next (callStatusCmd s)
  | .statusRead => .next (callStatusRead (gateCheck (programAfterGate n)) s)
  | .cmdWrite => .next (attempt (spiWriteContinue (0x02 :: encAddr (wireAddr a)) s) fun _ => goto .dataWrite)
  | .dataWrite => .next (attempt (spiWrite data s) fun _ => respond .ok .idle 0 [])
  | _ => .fault .phaseOutOfSequence

/-- `sector_erase a` (R210). -/
def execSectorErase (a ignored : Word) (s : State) : Host.Outcome State Fault Refusal :=
  match s.reg.phase with
  | .idle => .next (accept 0x6 a ignored [] (requireBound (requireAddress a (goto .select))) s)
  | .select => .next (callSelect .wrenWrite s)
  | .wrenWrite => .next (callWren (goto .statusCmd) s)
  | .statusCmd => .next (callStatusCmd s)
  | .statusRead => .next (callStatusRead (gateCheck (goto .cmdWrite)) s)
  | .cmdWrite =>
    .next (attempt (spiWrite (s.cfg.eraseOpcode :: encAddr (wireAddr a)) s) fun _ => respond .ok .idle 0 [])
  | _ => .fault .phaseOutOfSequence

end Sys2Proof.Machine
end

