-- ==== Sys2Proof/Machine/ReadOps.lean ====
section
/-! DEFINITION. The operations that only read (42_read_ops.md), phase by phase (30_encoding.md R110). -/
namespace Sys2Proof.Machine

/-- `read_identity` (R150). -/
def execReadIdentity (ignored0 ignored1 : Word) (s : State) : Host.Outcome State Fault Refusal :=
  match s.reg.phase with
  | .idle => .next (accept 0x1 ignored0 ignored1 [] (requireBound (goto .select)) s)
  | .select => .next (callSelect .cmdWrite s)
  | .cmdWrite => .next (attempt (spiWriteContinue [0x9F] s) fun _ => goto .dataRead)
  | .dataRead => .next (attempt (spiRead 3 s) fun rs => respond .ok .idle (identityOf rs) [])
  | _ => .fault .phaseOutOfSequence

/-- `read_status` (R152). -/
def execReadStatus (ignored0 ignored1 : Word) (s : State) : Host.Outcome State Fault Refusal :=
  match s.reg.phase with
  | .idle => .next (accept 0x2 ignored0 ignored1 [] (requireBound (goto .select)) s)
  | .select => .next (callSelect .statusCmd s)
  | .statusCmd => .next (callStatusCmd s)
  | .statusRead => .next (callStatusRead (fun b => respond .ok .idle (zext24 b) []) s)
  | _ => .fault .phaseOutOfSequence

/-- `read_data a, N` (R155). -/
def execReadData (a n : Word) (s : State) : Host.Outcome State Fault Refusal :=
  match s.reg.phase with
  | .idle => .next (accept 0x4 a n [] (requireBound (requireAddress a (goto .select))) s)
  | .select => .next (callSelect .cmdWrite s)
  | .cmdWrite => .next (attempt (spiWriteContinue (0x03 :: encAddr (wireAddr a)) s) fun _ => goto .dataRead)
  | .dataRead => .next (attempt (spiRead n.toNat s) fun rs => respond .ok .idle 0 rs)
  | _ => .fault .phaseOutOfSequence

end Sys2Proof.Machine
end

