-- ==== Sys2Proof/Machine/WriteEnable.lean ====
section
/-! DEFINITION. write_enable (43_write_enable.md R180). -/
namespace Sys2Proof.Machine

/-- `write_enable` (R180). -/
def execWriteEnable (ignored0 ignored1 : Word) (s : State) : Host.Outcome State Fault Refusal :=
  match s.reg.phase with
  | .idle => .next (accept 0x3 ignored0 ignored1 [] (requireBound (goto .select)) s)
  | .select => .next (callSelect .wrenWrite s)
  | .wrenWrite => .next (callWren (respond .ok .idle 0 []) s)
  | _ => .fault .phaseOutOfSequence

end Sys2Proof.Machine
end

