-- ==== Sys2Proof/Machine/Dispatch.lean ====
section
/-! DEFINITION. The dispatch: one arm per instruction. -/
namespace Sys2Proof.Machine

/-- The meaning of an instruction. -/
def exec (i : Instr) (s : State) : Host.Outcome State Fault Refusal :=
  match i with
  | .rdsr => Sys2Proof.Machine.execRdsr s
  | .wren => Sys2Proof.Machine.execWren s
  | .read a n => Sys2Proof.Machine.execRead a n s
  | .pp a d => Sys2Proof.Machine.execPp a d s
  | .rdid => Sys2Proof.Machine.execRdid s
  | .se a => Sys2Proof.Machine.execSe a s
  | .bind h g => Sys2Proof.Machine.execBind h g s
  | .readIdentity g h => Sys2Proof.Machine.execReadIdentity g h s
  | .readStatus g h => Sys2Proof.Machine.execReadStatus g h s
  | .writeEnable g h => Sys2Proof.Machine.execWriteEnable g h s
  | .readData a n => Sys2Proof.Machine.execReadData a n s
  | .pageProgram a n d => Sys2Proof.Machine.execPageProgram a n d s
  | .sectorErase a g => Sys2Proof.Machine.execSectorErase a g s
  | .waitReady g b => Sys2Proof.Machine.execWaitReady g b s
  | .reserved k g h => Sys2Proof.Machine.execReserved k g h s

end Sys2Proof.Machine
end

