-- ==== Sys2Proof/Machine/Outside.lean ====
section
/-! DEFINITION. What the outside does: the next move, reset of FLASHCMD (70_reset_and_hazards.md R330, R331), and the
host's pseudo-operations (30_encoding.md R113). -/
namespace Sys2Proof.Machine

/-- The next move: the one already chosen, or a free one (log entry 7). -/
def State.event (s : State) : Event :=
  match s.env.sched with
  | ev :: _ => ev
  | [] => Config.freeEvent s.env.drawn

/-- The state after a move is taken up. -/
def State.moved (s : State) : State :=
  { s with env := { s.env with sched := s.env.sched.tail, drawn := s.env.drawn + 1 } }

/-- R46: the registers after a reset: `BOUND` = 0, `PHASE` = IDLE, no response pending, the others "unspecified": drawn
(log entry 10). -/
def resetRegs (e : Env) : Regs :=
  let e1 := e.next
  let e2 := e1.next
  let e3 := e2.next
  let e4 := e3.next
  let e5 := e4.next
  { bound := false, handle := e.word, phase := .idle, op := BitVec.ofNat 4 e1.value, arg0 := e2.word, arg1 := e3.word,
    sr := e4.byte, polls := e5.word, resp := none }

/-- R330: "Reset sends nothing to the transport or the chip and does not reset the chip"; R331: reset during an
operation abandons it, a frame may be left open, and the chip is unknown "as after a transport error". THE MODEL'S CHOICE
(log entry 34): the requests that wait at the port stay there, and are accepted after the reset. -/
def resetBlock (s : State) : State :=
  let t : State := if s.reg.phase = .idle then s else lineUnknown s
  { s with
    reg := resetRegs t.env
    env := t.env.next.next.next.next.next.next
    bus := t.bus
    chip := t.chip
    port := { s.port with stream := [] } }

/-- R265 in the machine. -/
def completeStep (s : State) : State :=
  { s with chip := (chipComplete s.cfg s.chip s.env).1, env := (chipComplete s.cfg s.chip s.env).2 }

/-- R103: the host takes the response; FLASHCMD is ready again (R47). -/
def takeResponse (s : State) : State := { s with reg := { s.reg with resp := none } }

/-- R100, R319: the host puts a request on the port, behind those that wait. -/
def putRequest (r : Request) (s : State) : State := { s with port := { s.port with waiting := s.port.waiting ++ [r] } }

/-- The port after its first request is taken. -/
def popRequest (s : State) : State := { s with port := { s.port with waiting := s.port.waiting.tail } }

/-- The request of the operation in progress: the latches, and for a page_program the payload the host holds. -/
def latchedRequest (s : State) : Request :=
  ⟨s.reg.op, s.reg.arg0, s.reg.arg1, if s.reg.op = 5#4 then s.port.stream else []⟩

/-- A frame of another agent on a closed line that is no instruction (R268). -/
def strayFrame (f : Frame) (s : State) : State := s.onChip fun _ c e => hazardOut f.nIn c e

/-- A frame of another agent on the chip's line where an error left it asserted: its bytes follow those of the open frame
`o`, and end it (log entries 18, 21). -/
def frameOnOpenLine (o : OpenFrame) (f : Frame) (s : State) : State :=
  { s with bus := s.bus.setLine s.cfg.chipSlot none }.onChip (chipEnds (o.push f.sent) f.nIn)

/-- R113: the pseudo-operations. -/
inductive Pseudo where
  | programSync (a : Word) (data : List Byte) (bound : Word)
  | eraseSync (a bound : Word)
deriving DecidableEq, Repr

/-- R113: the first request of a pseudo-operation. -/
def Pseudo.first : Pseudo → Request
  | .programSync a data _ => ⟨0x5, a, BitVec.ofNat 32 data.length, data⟩
  | .eraseSync a _ => ⟨0x6, a, 0, []⟩

/-- R113: "then, if it responds `OK`, `wait_ready B`". -/
def Pseudo.second (q : Pseudo) (r : Response) : Option Request :=
  match r.code, q with
  | .ok, .programSync _ _ b => some ⟨0x7, 0, b, []⟩
  | .ok, .eraseSync _ b => some ⟨0x7, 0, b, []⟩
  | _, _ => none

end Sys2Proof.Machine
end

