-- ==== Sys2Proof/Machine/Step.lean ====
section
/-! DEFINITION. One step (00_scope.md R9): "one transport primitive call or one host handshake" of FLASHCMD, one
completion of the chip (46_chip_model.md R265), or one move of the outside. -/
namespace Sys2Proof.Machine

/-- FLASHCMD's move. Idle: it waits for its response to be taken or for a request (R332), or accepts the first request
that waits (R100) and runs its operation's first part. During an operation: the call its phase names (R34). -/
def blockStep (s : State) : Host.Outcome State Fault Refusal :=
  match s.reg.phase with
  | .idle =>
    if s.reg.resp.isSome then .next s
    else match s.port.waiting with
      | [] => .next s
      | r :: _ =>
        match decodeRequest r with
        | .ok i => exec i (popRequest s)
        | .error _ => .refused .malformedRequest
  | _ =>
    match decodeRequest (latchedRequest s) with
    | .ok i => exec i s
    | .error _ => .fault .phaseOutOfSequence

/-- Another agent puts a frame on the chip: refused during an operation (R346); else the chip runs it. -/
def frameStep (f : Frame) (s : State) : Host.Outcome State Fault Refusal :=
  match s.reg.phase with
  | .idle =>
    match s.bus.line s.cfg.chipSlot with
    | some o => .next (frameOnOpenLine o f s)
    | none =>
      match decodeFrame s.cfg.eraseOpcode f with
      | .ok i => exec i s
      | .error _ => .next (strayFrame f s)
  | _ => .refused .interleavedFrame

/-- One move. -/
def stepEvent (ev : Event) (s : State) : Host.Outcome State Fault Refusal :=
  match ev with
  | .block => blockStep s
  | .complete => .next (completeStep s)
  | .request r => if r.wellFormed then .next (putRequest r s) else .refused .malformedRequest
  | .take => .next (takeResponse s)
  | .reset => .next (resetBlock s)
  | .frame f => frameStep f s

/-- One step. R11, of the erase opcode: "a model refuses a configuration that breaks this"; the other bounds of R10 are
refused too (log entry 38). -/
def step (s : State) : Host.Outcome State Fault Refusal :=
  if s.cfg.allowed then stepEvent s.event s.moved else .refused .badConfiguration

/-- The state whose very next step runs the instruction of an opcode-table row's bits: a request becomes the first that
waits at the port of an idle FLASHCMD and the next move is FLASHCMD's; a frame is the next move, on a closed line
(log entry 8). -/
def State.withFetchWord (s : State) (nbits w : Nat) : State :=
  match tablePacket nbits w with
  | .frame f =>
    { s with
      reg := { s.reg with phase := .idle }
      bus := s.bus.setLine s.cfg.chipSlot none
      env := { s.env with sched := .frame f :: s.env.sched } }
  | .request r =>
    { s with
      reg := { s.reg with phase := .idle, resp := none }
      port := { s.port with waiting := r :: s.port.waiting }
      env := { s.env with sched := .block :: s.env.sched } }

end Sys2Proof.Machine
end

