-- ==== Sys2Proof/Safety.lean ====
section
/-! DEFINITION. What a safe run is (46_chip_model.md R273) and what the host owes (70_reset_and_hazards.md R333, R340,
R342), read from the trace the host can see. -/
namespace Sys2Proof.Machine

/-- R273: "a claim about a run takes "`hazard` = 0 at the end" as a premise". -/
abbrev Safe (s : State) : Prop := s.chip.hazard = false

/-- What the host knows of the chip from its own requests, status reads and responses: the operation in progress with
its `arg1`, whether it owes a status read showing WIP = 0 (R340), whether a wait_ready has responded `OK` (R333 step 4). -/
structure HostView where
  current : Option (BitVec 4 × Word)
  owes    : Bool
  booted  : Bool
deriving DecidableEq, Repr

/-- R340: a page_program or sector_erase. -/
def isProgramOrErase (op : BitVec 4) : Bool := op == 5 || op == 6

/-- R340: the operations whose frames read the status register. -/
def readsStatus (op : BitVec 4) : Bool := op == 2 || op == 5 || op == 6 || op == 7

/-- R340: the operations that send "a frame other than a status read". -/
def sendsOtherFrame (op : BitVec 4) : Bool := op == 1 || op == 3 || op == 4 || op == 5 || op == 6

/-- R340: the obligation begins with a program or erase that responded `OK` (with `N` ≥ 1 for a page_program), and with
"any `TransportError` or reset during one"; it ends with a status read showing WIP = 0. THE MODEL'S CHOICE
(log entry 35): the trace of R129 shows no reset, so `booted` stays across one. -/
def HostView.see (v : HostView) : TraceEvent → HostView
  | .req op _ n _ =>
    { v with current := some (op, n), owes := v.owes || v.current.any fun c => isProgramOrErase c.1 }
  | .rd _ (some [b]) =>
    if v.current.any (fun c => readsStatus c.1) && !statusWip b then { v with owes := false } else v
  | .rsp r =>
    { current := none
      owes := v.owes || v.current.any fun c =>
        isProgramOrErase c.1 && (r.code == .transportError || (r.code == .ok && !(c.1 == 5 && c.2 == 0)))
      booted := v.booted || v.current.any fun c => c.1 == 7 && r.code == .ok }
  | _ => v

/-- The host's view of a trace (newest event first). -/
def hostView : List TraceEvent → HostView
  | [] => ⟨none, false, false⟩
  | e :: es => (hostView es).see e

/-- A request that keeps R333 step 4, R340 and R342 and stays inside the array (R270). THE MODEL'S CHOICE (log entry 37): a
write_enable between steps 3 and 4 of R333 is let through, since step 4 holds back a program and an erase alone. -/
def hostObeys (s : State) (r : Request) : Bool :=
  !(sendsOtherFrame r.op && (hostView s.trace).owes)
    && (!isProgramOrErase r.op || ((hostView s.trace).booted && decide (r.arg0.toNat < s.cfg.flashSize)))
    && (!(r.op == 5 && r.arg1 != 0) || withinPage s.cfg r.arg0.toNat r.arg1.toNat)

/-! The invariants -/

/-- R122: the event before which a `W` is the second call of a frame and not a frame of its own. -/
def continuesFrame : List TraceEvent → Bool
  | .wc _ :: _ => true
  | _ => false

/-- R183: the events that must stand immediately before a program or erase frame, newest first: a status read that
returned WEL = 1 and, before it, the write enable. -/
def afterGating : List TraceEvent → Bool
  | .rd n (some [b]) :: .wc c :: .w d :: _ => n == 1 && c == [0x05] && d == [0x06] && statusWel b
  | _ => false

/-- R183 for one event: a program frame begins with `WC([02, ..])`, an erase frame is `W([ERASE_OPCODE, ..])`. -/
def gatedEvent (eraseOpcode : Byte) (e : TraceEvent) (older : List TraceEvent) : Bool :=
  match e with
  | .wc (b :: _) => b != 0x02 || afterGating older
  | .w (b :: _) => b != eraseOpcode || continuesFrame older || afterGating older
  | _ => true

/-- R183: "every program or erase frame in a trace is immediately preceded on the bus by a `WC([05]) Rd(1, [s])` pair
with `s[1]` = 1 and, before it, by `W([06])`". -/
def gatedTrace (eraseOpcode : Byte) : List TraceEvent → Bool
  | [] => true
  | e :: es => gatedEvent eraseOpcode e es && gatedTrace eraseOpcode es

/-- Where a page_program or sector_erase stands in its gating, read from the end of the trace. -/
def gatingProgress (op : BitVec 4) (p : Phase) (tr : List TraceEvent) : Bool :=
  if op = 5#4 ∨ op = 6#4 then
    match p, tr with
    | .statusCmd, .w d :: _ => d == [0x06]
    | .statusCmd, _ => false
    | .statusRead, .wc c :: .w d :: _ => c == [0x05] && d == [0x06]
    | .statusRead, _ => false
    | .cmdWrite, tr => afterGating tr
    | .dataWrite, tr => continuesFrame tr
    | _, _ => true
  else true

/-- THE WRITE-ENABLE INVARIANT (R83, R183), with what makes it inductive. -/
def GatingInv (s : State) : Prop :=
  gatedTrace s.cfg.eraseOpcode s.trace = true ∧ gatingProgress s.reg.op s.reg.phase s.trace = true

/-- R110: the phases of the calls of an operation. -/
def callPhases (op : BitVec 4) : List Phase :=
  if op = 1#4 then [.select, .cmdWrite, .dataRead]
  else if op = 2#4 then [.select, .statusCmd, .statusRead]
  else if op = 3#4 then [.select, .wrenWrite]
  else if op = 4#4 then [.select, .cmdWrite, .dataRead]
  else if op = 5#4 then [.select, .wrenWrite, .statusCmd, .statusRead, .cmdWrite, .dataWrite]
  else if op = 6#4 then [.select, .wrenWrite, .statusCmd, .statusRead, .cmdWrite]
  else if op = 7#4 then [.select, .statusCmd, .statusRead]
  else []

/-- R110, R129: the event of the call of a phase, where that call failed. -/
def failedCall (eraseOpcode : Byte) (handle : Word) (r : Request) : Phase → TraceEvent
  | .idle => .err .idle
  | .select => .sel handle
  | .wrenWrite => .w [0x06]
  | .statusCmd => .wc [0x05]
  | .statusRead => .rd 1 none
  | .cmdWrite =>
    if r.op = 1#4 then .wc [0x9F]
    else if r.op = 4#4 then .wc (0x03 :: encAddr (wireAddr r.arg0))
    else if r.op = 5#4 then .wc (0x02 :: encAddr (wireAddr r.arg0))
    else .w (eraseOpcode :: encAddr (wireAddr r.arg0))
  | .dataWrite => .w r.payload
  | .dataRead => .rd (if r.op = 1#4 then 3 else r.arg1.toNat) none

/-- THE SEQUENCER INVARIANT: during an operation FLASHCMD is bound (R305), no response is pending (R47), the latches
and the payload the host holds are a well-formed request (R100), the phase is one of the operation's (R34, R110), and a
latched address is valid (R63). -/
def SequencerInv (s : State) : Prop :=
  s.reg.phase = .idle ∨
    (s.reg.bound = true ∧ s.reg.resp = none ∧ (latchedRequest s).wellFormed = true ∧
      s.reg.phase ∈ callPhases s.reg.op ∧
      ((s.reg.op = 4#4 ∨ s.reg.op = 5#4 ∨ s.reg.op = 6#4) → addressValid s.reg.arg0 = true))

/-- R121, R122: the command a frame left open between two calls carries, where its bytes are known. -/
def openCommand (op : BitVec 4) (arg0 : Word) : Phase → Option (List Byte)
  | .statusRead => some [0x05]
  | .dataRead => some (if op = 1#4 then [0x9F] else 0x03 :: encAddr (wireAddr arg0))
  | .dataWrite => some (0x02 :: encAddr (wireAddr arg0))
  | _ => none

/-- THE FRAME INVARIANT (R121): after the first call of an operation the bound slot is the target (R123); a frame is open
between two calls in the phase that ends it; a frame whose bytes are known is on the bound slot's line, in such a phase,
and carries that phase's command, with no byte in yet; every other open frame, on whatever line, is one an error or a reset has left (R126,
R331). The lines are listed by slot, each once. -/
def FrameInv (s : State) : Prop :=
  (s.reg.phase ≠ .idle → s.reg.phase ≠ .select → s.bus.target = s.reg.handle) ∧
    ((openCommand s.reg.op s.reg.arg0 s.reg.phase).isSome = true → s.bus.frame.isSome = true) ∧
    (∀ h f, s.bus.line h = some f → f.known = true →
      h = s.reg.handle.toNat ∧ openCommand s.reg.op s.reg.arg0 s.reg.phase = some f.sent ∧ f.nIn = 0 ∧ f.mixed = false) ∧
    cellsRise 0 s.bus.lines = true

/-- THE ARRAY INVARIANT: canonical form, and no byte outside `0 .. FLASH_SIZE - 1` (R60). -/
def ArrayInv (s : State) : Prop := s.chip.mem.wf = true ∧ s.chip.mem.below s.cfg.flashSize = true

end Sys2Proof.Machine
end

