-- ==== Sys2Proof/Certificates/Slice0/Obligations.lean ====
section
/-! DEFINITION. The statements for the provers. Every statement holds for all parameters, all answers of the transport,
all states of the chip and all drawn values unless it says which. -/
namespace Sys2Proof.Claims
open Sys2Proof.Machine

/-- No call was made and nothing was drawn: transport, chip and environment are as before, and so are the parameters
and the requests that wait. -/
def NoTraffic (s t : State) : Prop :=
  t.bus = s.bus ∧ t.chip = s.chip ∧ t.env = s.env ∧ t.cfg = s.cfg ∧ t.port.waiting = s.port.waiting

/-- The operation has ended with a response: the response registers hold it, `PHASE` is IDLE, and the trace has grown
by the events `evs` (newest first) and the response (R103). -/
def Responds (s t : State) (evs : List TraceEvent) (r : Response) : Prop :=
  t.reg.phase = .idle ∧ t.reg.resp = some r ∧ t.trace = .rsp r :: (evs ++ s.trace)

/-- The operation goes on in phase `p`, with no response, and the trace has grown by `evs`. -/
def GoesOn (s t : State) (evs : List TraceEvent) (p : Phase) : Prop :=
  t.reg.phase = p ∧ t.reg.resp = s.reg.resp ∧ t.trace = evs ++ s.trace

/-- `i` is the host operation of request `r`. -/
def IsRequest (i : Instr) (r : Request) : Prop := ∃ e : Byte, encode e i = .request r

/-- `i` is one of the chip's commands. -/
def IsFrame (i : Instr) : Prop := ∃ e : Byte, ∃ f : Frame, encode e i = .frame f

/-- The next moves. -/
def Moves (evs : List Event) (s : State) : Prop := ∃ rest, s.env.sched = evs ++ rest

/-- The next `n` moves are FLASHCMD's. -/
def BlockMoves (n : Nat) (s : State) : Prop := Moves (List.replicate n .block) s

/-- The next drawn value is odd: an idle chip takes the next write enable (R253). -/
def WriteEnableTakes (s : State) : Prop := ∃ k ks, s.env.draws = k :: ks ∧ k % 2 = 1

/-- The modelled chip is the target and the line is closed. -/
def ClosedLine (s : State) : Prop := s.bus.target.toNat = s.cfg.chipSlot ∧ s.bus.frame = none

/-- The modelled chip is the target and `bs` has been sent in the open frame; `sawBusy` says that the chip was busy when
the frame began. -/
def FrameOn (sawBusy : Bool) (bs : List Byte) (s : State) : Prop :=
  s.bus.target.toNat = s.cfg.chipSlot ∧ s.bus.frame = some (.start sawBusy bs)

/-- The chip is busy, or was when the open frame began (log entry 23). -/
def BusyInFrame (sawBusy : Bool) (s : State) : Prop := sawBusy = true ∨ s.chip.busy ≠ none

/-- The open frame `o`, ended with `nIn` more bytes in, breaks a rule of the chip: bytes out follow bytes in, or it decodes to
nothing (R268); it is no read status on a chip that is busy, or was when it began (R262); it is a program or an erase,
and the latch is clear (R261), its address is from `FLASH_SIZE` up (R270), or it crosses its page (R260). -/
def FrameBreaksARule (s : State) (o : OpenFrame) (nIn : Nat) : Prop :=
  let d := decodeFrame s.cfg.eraseOpcode ⟨o.sent, o.nIn + nIn⟩
  o.mixed = true ∨ (∃ x, d = .error x) ∨ (BusyInFrame o.sawBusy s ∧ d ≠ .ok .rdsr) ∨
    (∃ a bs, d = .ok (.pp a bs) ∧ (s.chip.wel = false ∨ s.cfg.flashSize ≤ a.toNat ∨
      s.cfg.pageSize < a.toNat % s.cfg.pageSize + bs.length)) ∨
    ∃ a, d = .ok (.se a) ∧ (s.chip.wel = false ∨ s.cfg.flashSize ≤ a.toNat)

/-- Where the frame open on the modelled chip's line, ended by a read of `nIn` bytes, breaks a rule, `hazard` is set. -/
def EndSetsHazard (s t : State) (nIn : Nat) : Prop :=
  ∀ o, s.bus.target.toNat = s.cfg.chipSlot → s.bus.frame = some o → FrameBreaksARule s o nIn → t.chip.hazard = true

/-- Where the frame open on the modelled chip's line, ended by the bytes `bs`, breaks a rule, `hazard` is set. -/
def WriteSetsHazard (s t : State) (bs : List Byte) : Prop :=
  ∀ o, s.bus.target.toNat = s.cfg.chipSlot → s.bus.frame = some o → FrameBreaksARule s (o.push bs) 0 →
    t.chip.hazard = true

/-- R252: `b` is a status byte of the chip: WIP = 1 iff it is busy, the latch in bit 1 when it is idle, `STATUS_OPAQUE` in
bits 7:2 where that is given. -/
def ShowsStatus (s : State) (b : Byte) : Prop :=
  b.getLsbD 0 = s.chip.busy.isSome ∧ (s.chip.busy = none → b.getLsbD 1 = s.chip.wel) ∧
    ∀ o, s.cfg.statusOpaque = some o → b.extractLsb' 2 6 = o

/-- R253: what a write enable leaves of an idle chip: the latch set where the drawn bit is, else as before; all else as
before. -/
def TakesOrIgnoresWriteEnable (bit : Bool) (c d : Chip) : Prop :=
  (bit = true → d.wel = true) ∧ (bit = false → d.wel = c.wel) ∧ { d with wel := c.wel } = c

/-- The transport's next answers. -/
def Answers (as : List Answer) (s : State) : Prop := ∃ rest, s.env.answers = as ++ rest

end Sys2Proof.Claims

open Sys2Proof Sys2Proof.Machine Sys2Proof.Claims

/-! Encoding -/

/-- Words written out from R90 to R93, R100 and R101 (the requests from 95_test_vectors.md) decode to the instructions
they stand for. -/
def Obligations.WordsOfEveryRowDecode : Prop :=
  decode 0x20 (.frame ⟨[0b00000101], 1⟩) = .ok .rdsr ∧
  decode 0x20 (.frame ⟨[0b00000110], 0⟩) = .ok .wren ∧
  decode 0x20 (.frame ⟨[0b10011111], 3⟩) = .ok .rdid ∧
  decode 0x20 (.frame ⟨[0x03, 0x12, 0x34, 0x56], 2⟩) = .ok (.read 0x123456 2) ∧
  decode 0x20 (.frame ⟨[0x02, 0x00, 0x01, 0x00, 0xDE, 0xAD], 0⟩) = .ok (.pp 0x000100 [0xDE, 0xAD]) ∧
  decode 0x20 (.frame ⟨[0x20, 0x00, 0x12, 0x34], 0⟩) = .ok (.se 0x001234) ∧
  decode 0x20 (.request (.ofBundle 0x00000000000000000 [])) = .ok (.bind 0 0) ∧
  decode 0x20 (.request (.ofBundle 0x10000000000000000 [])) = .ok (.readIdentity 0 0) ∧
  decode 0x20 (.request (.ofBundle 0x20000000000000000 [])) = .ok (.readStatus 0 0) ∧
  decode 0x20 (.request (.ofBundle 0x30000000000000000 [])) = .ok (.writeEnable 0 0) ∧
  decode 0x20 (.request (.ofBundle 0x40012345600000002 [])) = .ok (.readData 0x123456 2) ∧
  decode 0x20 (.request (.ofBundle 0x50000010000000002 [0xDE, 0xAD])) = .ok (.pageProgram 0x100 2 [0xDE, 0xAD]) ∧
  decode 0x20 (.request (.ofBundle 0x60000123412345678 [])) = .ok (.sectorErase 0x1234 0x12345678) ∧
  decode 0x20 (.request (.ofBundle 0x7FFFFFFFF00000002 [])) = .ok (.waitReady 0xFFFFFFFF 2) ∧
  decode 0x20 (.request (.ofBundle 0xFFFFFFFFFFFFFFFFF [])) = .ok (.reserved 7 0xFFFFFFFF 0xFFFFFFFF)

/-- Every well-formed instruction, at every operand value, decodes from its encoding, for every erase opcode R11 allows
(R91, R92, R94, R97, R101). -/
def Obligations.DecodeOfEncodeIsTheInstruction : Prop :=
  ∀ (e : Byte) (i : Instr), eraseOpcodeAllowed e = true → i.wellFormed = true → decode e (encode e i) = .ok i

/-- Every frame and every request that decodes is the encoding of what it decodes to: no packet has two readings and no
bit of it is dropped (R91, R92, R97, R101). -/
def Obligations.DecodedPacketIsTheEncoding : Prop :=
  ∀ (e : Byte) (p : Packet) (i : Instr), decode e p = .ok i → encode e i = p

/-- R94: for every valid address, its big-endian encoding is `enc_addr(a)`, is bytes 1 to 3 of the read, program and erase
frames `encode` makes, and is bytes 1 to 3 of the bytes read_data, page_program and sector_erase send in phase
CMD_WRITE. -/
def Obligations.AddressBytesAreBigEndian : Prop :=
  ∀ a : Word, a.toNat < 2 ^ 24 →
    (encAddr (wireAddr a)).map BitVec.toNat = [a.toNat / 2 ^ 16, a.toNat / 2 ^ 8 % 2 ^ 8, a.toNat % 2 ^ 8] ∧
    (∀ (e : Byte) (i : Instr) (n : Nat) (d : List Byte) (f : Frame),
      (i = .read (wireAddr a) n ∨ i = .pp (wireAddr a) d ∨ i = .se (wireAddr a)) → encode e i = .frame f →
      ((f.sent.drop 1).take 3).map BitVec.toNat = [a.toNat / 2 ^ 16, a.toNat / 2 ^ 8 % 2 ^ 8, a.toNat % 2 ^ 8]) ∧
    (∀ (s : State) (i : Instr) (n : Word) (d : List Byte) (ov : Option (List Byte)),
      (i = .readData a n ∨ i = .pageProgram a n d ∨ i = .sectorErase a n) → s.reg.phase = .cmdWrite →
      s.answer = .ok ov →
      ∃ t bs, exec i s = .next t ∧
        (t.trace = .wc bs :: s.trace ∨ ∃ r, t.trace = .rsp r :: .w bs :: s.trace) ∧
        (bs.drop 1).map BitVec.toNat = [a.toNat / 2 ^ 16, a.toNat / 2 ^ 8 % 2 ^ 8, a.toNat % 2 ^ 8])

/-- R103, R104, R109: the response bundle carries `code`, `ephase` and `value` in its three fields, and codes and phases
have the numbers of the tables: no two codes and no two phases share one, and code 7 is "never produced". -/
def Obligations.ResponseBundleCarriesItsFields : Prop :=
  (∀ r : Response, r.bundle.extractLsb' 27 3 = r.code.toBits ∧ r.bundle.extractLsb' 24 3 = r.ephase.toBits ∧
    r.bundle.extractLsb' 0 24 = r.value ∧ r.code.toBits ≠ 7#3) ∧
  [ResultCode.ok, .transportError, .invalidAddress, .writeNotEnabled, .timeout, .configError, .illegalOp].map
    ResultCode.toBits = [0, 1, 2, 3, 4, 5, 6] ∧
  [Phase.idle, .select, .wrenWrite, .statusCmd, .statusRead, .cmdWrite, .dataWrite, .dataRead].map
    Phase.toBits = [0, 1, 2, 3, 4, 5, 6, 7]

/-- R268: a frame whose first byte is none of the six opcodes, or whose length does not match R97, is no command: put on a
closed line by another agent while FLASHCMD is idle, it sets `hazard`. That a program frame without a payload byte is
one of them is the model's reading (log entry 20, DEDUCED); that the registers, the port and the trace of FLASHCMD stay,
and that the frame gets its number of bytes back, is the model's choice (log entry 21). -/
def Obligations.FrameThatIsNoCommandSetsHazard : Prop :=
  ∀ (s : State) (f : Frame) (x : DecodeError), s.cfg.allowed = true → s.event = .frame f → s.reg.phase = .idle →
    s.bus.line s.cfg.chipSlot = none → decodeFrame s.cfg.eraseOpcode f = .error x →
    ∃ t, step s = .next t ∧ t.chip.hazard = true ∧ t.bus.rx.length = f.nIn ∧
      t.reg = s.reg ∧ t.port = s.port ∧ t.trace = s.trace ∧ t.cfg = s.cfg

/-! Reset and the step -/

/-- What the model's reset state holds. Of R46 and R250: not bound, idle, no response pending, ready, `hazard` = 0. The
model's choice: no request waits (log entry 8), every chip select is deasserted (R45 between frames; log entry 26), the
array lists no byte (log entry 12), and the parameters are the test vectors', which are allowed (log entry 1). -/
def Obligations.ResetStateIsIdleAndUnbound : Prop :=
  State.reset.reg.bound = false ∧ State.reset.reg.phase = .idle ∧ State.reset.reg.resp = none ∧
  State.reset.ready = true ∧ State.reset.port.waiting = [] ∧ State.reset.bus.lines = [] ∧
  State.reset.chip.mem.cells = [] ∧ State.reset.chip.hazard = false ∧ State.reset.cfg.allowed = true

/-- R330: a reset of FLASHCMD unbinds it, makes it idle and ready and drops a pending response; nothing is sent and the
chip is not reset: outside an operation transport and chip are as before. -/
def Obligations.BlockResetUnbindsAndSendsNothing : Prop :=
  ∀ s : State, s.cfg.allowed = true → s.event = .reset →
    ∃ t, step s = .next t ∧ t.reg.bound = false ∧ t.reg.phase = .idle ∧ t.reg.resp = none ∧ t.ready = true ∧
      t.trace = s.trace ∧ t.cfg = s.cfg ∧ t.chip.hazard = s.chip.hazard ∧
      (s.reg.phase = .idle → t.chip = s.chip ∧ t.bus = s.bus)

/-- A step runs the decoded instruction, in each of the three places one stands: the first request that waits, when
FLASHCMD is ready; the operation the latches hold, during an operation (R34, R35); a frame put on an idle chip. What the
step adds is that the move is taken up (`moved`) and the request leaves the port (`popRequest`); the moves and the port
are the model's (log entries 7, 8). A frame of another agent during an operation is refused (93_implementation_defined.md
part 2; log entry 21). On the chip's line, left open, it ends the open frame, whose bytes its own follow, and leaves every
other line (R18); where the whole frame breaks a rule, it sets `hazard` (R260 to R262, R268, R270; log entries 18, 23). -/
def Obligations.StepRunsTheDecodedInstruction : Prop :=
  (∀ (s : State) (r : Request) (rs : List Request) (i : Instr), s.cfg.allowed = true → s.event = .block →
    s.ready = true → s.port.waiting = r :: rs → decodeRequest r = .ok i → step s = exec i (popRequest s.moved)) ∧
  (∀ (s : State) (i : Instr), s.cfg.allowed = true → s.event = .block → s.reg.phase ≠ .idle →
    decodeRequest (latchedRequest s) = .ok i → step s = exec i s.moved) ∧
  (∀ (s : State) (f : Frame) (i : Instr), s.cfg.allowed = true → s.event = .frame f → s.reg.phase = .idle →
    s.bus.line s.cfg.chipSlot = none → decodeFrame s.cfg.eraseOpcode f = .ok i → step s = exec i s.moved) ∧
  (∀ (s : State) (f : Frame), s.cfg.allowed = true → s.event = .frame f → s.reg.phase ≠ .idle →
    step s = .refused .interleavedFrame) ∧
  (∀ (s : State) (f : Frame) (o : OpenFrame), s.cfg.allowed = true → s.event = .frame f → s.reg.phase = .idle →
    s.bus.line s.cfg.chipSlot = some o →
    ∃ t, step s = .next t ∧ t.bus.line s.cfg.chipSlot = none ∧ t.bus.rx.length = f.nIn ∧ t.reg = s.reg ∧
      t.port = s.port ∧ t.trace = s.trace ∧ t.cfg = s.cfg ∧
      (∀ h, h ≠ s.cfg.chipSlot → t.bus.line h = s.bus.line h) ∧
      (FrameBreaksARule s (o.push f.sent) f.nIn → t.chip.hazard = true))

/-- R47, R332: FLASHCMD waits while no request waits, and (R103) while its response has not been taken; taking it makes
it ready. -/
def Obligations.BlockWaitsForRequestAndForTake : Prop :=
  ∀ s : State, s.cfg.allowed = true → s.reg.phase = .idle →
    (s.event = .block → (s.port.waiting = [] ∨ s.reg.resp ≠ none) → step s = .next s.moved) ∧
    (s.event = .take → ∃ t, step s = .next t ∧ t.ready = true ∧ t.trace = s.trace ∧ t.chip = s.chip)

/-- R11: a configuration whose erase opcode is one of the five fixed opcodes is refused, and no step changes the erase
opcode; R271: nor the identity. That no step changes any other parameter is the model's choice (log entries 1, 4). -/
def Obligations.ParametersAreCheckedAndNeverChange : Prop :=
  (∀ s : State,
    (s.cfg.eraseOpcode = 0x02#8 ∨ s.cfg.eraseOpcode = 0x03#8 ∨ s.cfg.eraseOpcode = 0x05#8 ∨ s.cfg.eraseOpcode = 0x06#8 ∨
      s.cfg.eraseOpcode = 0x9F#8) → step s = .refused .badConfiguration) ∧
  ∀ s t : State, step s = .next t → t.cfg = s.cfg

/-- R100: a request whose payload does not match `arg1` (page_program) or is not empty (any other) is refused, when the
host puts it on the port and when it would be accepted; R100, R319: a well-formed request put on the port waits behind
those already there, and nothing else changes (that a request is put by a move, and waits at a port, is log entries 7
and 8). -/
def Obligations.MalformedRequestIsRefused : Prop :=
  (∀ (s : State) (r : Request), s.cfg.allowed = true →
    ((r.op = 5#4 ∧ r.payload.length ≠ r.arg1.toNat) ∨ (r.op ≠ 5#4 ∧ r.payload ≠ [])) →
    (s.event = .request r → step s = .refused .malformedRequest) ∧
    (∀ rs, s.event = .block → s.ready = true → s.port.waiting = r :: rs → step s = .refused .malformedRequest)) ∧
  ∀ (s : State) (r : Request), s.cfg.allowed = true → s.event = .request r →
    (r.op = 5#4 → r.payload.length = r.arg1.toNat) → (r.op ≠ 5#4 → r.payload = []) →
    ∃ t, step s = .next t ∧ t.port.waiting = s.port.waiting ++ [r] ∧ t.port.stream = s.port.stream ∧ t.reg = s.reg ∧
      t.bus = s.bus ∧ t.chip = s.chip ∧ t.trace = s.trace ∧ t.cfg = s.cfg

/-! Operations without traffic -/

/-- R140: bind. From ready it always responds: `OK` with `HANDLE <- h`, `BOUND <- 1` where it was unbound and the handle
is valid, `h < NUM_SLOTS and slot_bound(h)`, else `ConfigError` with both unchanged; no call is made (R141). -/
def Obligations.BindBindsOrReportsConfigError : Prop :=
  ∀ (s : State) (h g : Word), s.ready = true →
    ∃ t, exec (.bind h g) s = .next t ∧ NoTraffic s t ∧
      (s.reg.bound = false ∧ h.toNat < s.cfg.numSlots ∧ h.toNat ∈ s.cfg.boundSlots →
        t.reg.bound = true ∧ t.reg.handle = h ∧ Responds s t [.req 0x0 h g []] ⟨.ok, .idle, 0, []⟩) ∧
      (s.reg.bound = true ∨ s.cfg.numSlots ≤ h.toNat ∨ h.toNat ∉ s.cfg.boundSlots →
        t.reg.bound = s.reg.bound ∧ t.reg.handle = s.reg.handle ∧
          Responds s t [.req 0x0 h g []] ⟨.configError, .idle, 0, []⟩)

/-- R306: a reserved request gets `IllegalOp`, bound or not, with no call and no state change but the response and, as
for every accepted request (R100), the request latches (log entry 19). -/
def Obligations.ReservedRequestGetsIllegalOp : Prop :=
  ∀ (s : State) (k : BitVec 3) (x y : Word), s.ready = true →
    ∃ t, exec (.reserved k x y) s = .next t ∧ NoTraffic s t ∧
      t.reg = { s.reg with op := 1#1 ++ k, arg0 := x, arg1 := y, resp := some ⟨.illegalOp, .idle, 0, []⟩ } ∧
      Responds s t [.req (1#1 ++ k) x y []] ⟨.illegalOp, .idle, 0, []⟩

/-- R305: the causes of `ConfigError`, each without a call: a bind with an invalid handle (`h ≥ NUM_SLOTS` or not
`slot_bound(h)`, R144), a bind while bound, and every other operation, op 0x1 to 0x7, while unbound. -/
def Obligations.ConfigErrorIsRaisedForItsCauses : Prop :=
  (∀ (s : State) (h g : Word), s.ready = true →
    (s.cfg.numSlots ≤ h.toNat ∨ h.toNat ∉ s.cfg.boundSlots ∨ s.reg.bound = true) →
    ∃ t, exec (.bind h g) s = .next t ∧ NoTraffic s t ∧
      Responds s t [.req 0x0 h g []] ⟨.configError, .idle, 0, []⟩) ∧
  ∀ (s : State) (i : Instr) (r : Request), IsRequest i r → 1 ≤ r.op.toNat → r.op.toNat ≤ 7 → s.ready = true →
    s.reg.bound = false →
    ∃ t, exec i s = .next t ∧ NoTraffic s t ∧ t.reg.bound = false ∧ t.reg.handle = s.reg.handle ∧
      Responds s t [.req r.op r.arg0 r.arg1 r.payload] ⟨.configError, .idle, 0, []⟩

/-- R302: read_data, page_program and sector_erase with `ARG0 ≥ 2^24` get `InvalidAddress` before any call. -/
def Obligations.AddressAbove24BitsIsRejected : Prop :=
  ∀ (s : State) (i : Instr) (r : Request), IsRequest i r → (r.op = 4#4 ∨ r.op = 5#4 ∨ r.op = 6#4) → s.ready = true →
    s.reg.bound = true → 2 ^ 24 ≤ r.arg0.toNat →
    ∃ t, exec i s = .next t ∧ NoTraffic s t ∧ t.reg.bound = true ∧ t.reg.handle = s.reg.handle ∧
      Responds s t [.req r.op r.arg0 r.arg1 r.payload] ⟨.invalidAddress, .idle, 0, []⟩

/-- R232: a wait_ready of bound 0 is a `Timeout` with no traffic and `value` 0. -/
def Obligations.WaitReadyOfZeroTimesOut : Prop :=
  ∀ (s : State) (g : Word), s.ready = true → s.reg.bound = true →
    ∃ t, exec (.waitReady g 0) s = .next t ∧ NoTraffic s t ∧ t.reg.polls = 0#32 ∧
      Responds s t [.req 0x7 g 0 []] ⟨.timeout, .idle, 0, []⟩

/-- R100: an accepted request is latched and its operation starts with `spi_select` (R123, R110): every operation with
traffic, whose checks of R308 pass, goes to phase SELECT. THE MODEL'S: that acceptance is a step of its own, before the first
call, so that no call has been made after it (log entry 14, DEDUCED), and that the port keeps the payload (log entry 25). -/
def Obligations.AcceptedRequestIsLatched : Prop :=
  ∀ (s : State) (i : Instr) (r : Request), IsRequest i r → 1 ≤ r.op.toNat → r.op.toNat ≤ 7 → s.ready = true →
    s.reg.bound = true → ((r.op = 4#4 ∨ r.op = 5#4 ∨ r.op = 6#4) → r.arg0.toNat < 2 ^ 24) → (r.op = 7#4 → r.arg1 ≠ 0#32) →
    ∃ t, exec i s = .next t ∧ NoTraffic s t ∧ GoesOn s t [.req r.op r.arg0 r.arg1 r.payload] .select ∧
      t.reg.op = r.op ∧ t.reg.arg0 = r.arg0 ∧ t.reg.arg1 = r.arg1 ∧ t.port.stream = r.payload ∧
      t.reg.bound = true ∧ t.reg.handle = s.reg.handle ∧ (r.op = 7#4 → t.reg.polls = 0)

/-! Operations with traffic, call by call -/

/-- R123: the first call of every operation with traffic is `spi_select(HANDLE)`; it makes the bound slot the target and
has no bus effect, on its line or any other; the next phase is that of R110. -/
def Obligations.FirstCallSelectsTheBoundSlot : Prop :=
  ∀ (s : State) (i : Instr) (r : Request) (ov : Option (List Byte)), IsRequest i r → 1 ≤ r.op.toNat →
    r.op.toNat ≤ 7 → s.reg.phase = .select → s.answer = .ok ov →
    ∃ t, exec i s = .next t ∧ t.bus.target = s.reg.handle ∧ t.bus.lines = s.bus.lines ∧ t.chip = s.chip ∧
      GoesOn s t [.sel s.reg.handle]
        (if r.op = 1#4 ∨ r.op = 4#4 then .cmdWrite else if r.op = 2#4 ∨ r.op = 7#4 then .statusCmd else .wrenWrite)

/-- R150: read_identity sends 0x9F and answers the three bytes it reads, big-endian (R95), whatever answered them: the
transport's own choice, the modelled chip, another slot, or an open frame of unknown bytes. An idle modelled chip drives
`ID_VALUE` and is left as it was (R257); one that is busy when 0x9F is sent sets `hazard` with it, however the frame ends
(R262), and the read sets it where the frame it ends breaks a rule (R260 to R262, R268, R270; log entries 18, 23). -/
def Obligations.ReadIdentityReturnsTheThreeBytes : Prop :=
  ∀ (s : State) (g0 g1 : Word) (ov : Option (List Byte)) (sb : Bool), s.answer = .ok ov →
    (s.reg.phase = .cmdWrite →
      ∃ t, exec (.readIdentity g0 g1) s = .next t ∧ GoesOn s t [.wc [0x9F]] .dataRead ∧
        (ClosedLine s → s.chip.busy = none → t.chip = s.chip) ∧
        (s.bus.target.toNat = s.cfg.chipSlot → s.chip.busy ≠ none → t.chip.hazard = true)) ∧
    (s.reg.phase = .dataRead →
      ∃ t v r0 r1 r2, exec (.readIdentity g0 g1) s = .next t ∧
        v.toNat = r0.toNat * 2 ^ 16 + r1.toNat * 2 ^ 8 + r2.toNat ∧
        Responds s t [.rd 3 (some [r0, r1, r2])] ⟨.ok, .idle, v, []⟩ ∧
        (∀ b0 b1 b2, ov = some [b0, b1, b2] → r0 = b0 ∧ r1 = b1 ∧ r2 = b2) ∧
        (ov = none → FrameOn sb [0x9F] s → sb = false → s.chip.busy = none → t.chip = s.chip ∧ v = s.cfg.idValue) ∧
        EndSetsHazard s t 3)

/-- R152: read_status sends 0x05 and answers the byte it reads, unchanged, and keeps it in `SR`, whatever answered it. 0x05
is no hazard on a busy chip; a byte the chip drives is a status byte of the chip, busy or idle, and the chip is left as
it was (R252). On a line an error has left open the read sets `hazard` where the frame it ends breaks a rule (log
entry 18). -/
def Obligations.ReadStatusReturnsTheByte : Prop :=
  ∀ (s : State) (g0 g1 : Word) (ov : Option (List Byte)) (sb : Bool), s.answer = .ok ov →
    (s.reg.phase = .statusCmd →
      ∃ t, exec (.readStatus g0 g1) s = .next t ∧ GoesOn s t [.wc [0x05]] .statusRead ∧
        (ClosedLine s → t.chip = s.chip)) ∧
    (s.reg.phase = .statusRead →
      ∃ t v c, exec (.readStatus g0 g1) s = .next t ∧ v.toNat = c.toNat ∧ t.reg.sr = c ∧
        Responds s t [.rd 1 (some [c])] ⟨.ok, .idle, v, []⟩ ∧ (∀ b, ov = some [b] → c = b) ∧
        (ov = none → FrameOn sb [0x05] s → ShowsStatus s c ∧ t.chip = s.chip) ∧ EndSetsHazard s t 1)

/-- R180: write_enable sends 0x06 and responds `OK`, whatever the chip does with it. Where the modelled chip is the target:
on a closed line an idle chip's latch is set where the drawn bit is (log entry 5), else as before, and nothing else of
it changes (R253); a busy chip sets `hazard`, whatever its line (R262). On a line an error has left open 0x06 ends the open
frame: where the whole of it breaks a rule, it sets `hazard` (R260 to R262, R268, R270; log entry 18). -/
def Obligations.WriteEnableSendsOneByte : Prop :=
  ∀ (s : State) (g0 g1 : Word) (ov : Option (List Byte)), s.reg.phase = .wrenWrite → s.answer = .ok ov →
    ∃ t, exec (.writeEnable g0 g1) s = .next t ∧ Responds s t [.w [0x06]] ⟨.ok, .idle, 0, []⟩ ∧
      (ClosedLine s → s.chip.busy = none → TakesOrIgnoresWriteEnable s.answered.env.bit s.chip t.chip) ∧
      (s.bus.target.toNat = s.cfg.chipSlot → s.chip.busy ≠ none → t.chip.hazard = true) ∧
      WriteSetsHazard s t [0x06]

/-- R157, R155: read_data of a valid address sends `[0x03] ++ enc_addr(a)` and answers exactly the `N` bytes it reads, in
wire order; of an invalid one it fails with `InvalidAddress`, and the trace between `Req` and `Rsp` is empty. Where the
chip drives the bytes: an idle one gives its array's, below `FLASH_SIZE` and without a wrap table, and is left as it was
(R255); one that is busy when the command is sent sets `hazard` with it, however the frame ends (R262), and the read sets
it where the frame it ends breaks a rule (R260 to R262, R268, R270; log entries 18, 23). -/
def Obligations.ReadDataReturnsExactlyTheBytes : Prop :=
  ∀ (s : State) (a n : Word) (ov : Option (List Byte)) (sb : Bool),
    (a.toNat < 2 ^ 24 → s.answer = .ok ov → s.reg.phase = .cmdWrite →
      ∃ t, exec (.readData a n) s = .next t ∧ GoesOn s t [.wc (0x03 :: encAddr (wireAddr a))] .dataRead ∧
        (ClosedLine s → s.chip.busy = none → t.chip = s.chip) ∧
        (s.bus.target.toNat = s.cfg.chipSlot → s.chip.busy ≠ none → t.chip.hazard = true)) ∧
    (a.toNat < 2 ^ 24 → s.answer = .ok ov → s.reg.phase = .dataRead →
      ∃ t rs, exec (.readData a n) s = .next t ∧ rs.length = n.toNat ∧
        (∀ bs, ov = some bs → bs.length = n.toNat → rs = bs) ∧
        Responds s t [.rd n.toNat (some rs)] ⟨.ok, .idle, 0, rs⟩ ∧
        (ov = none → FrameOn sb (0x03 :: encAddr (wireAddr a)) s → sb = false → s.chip.busy = none →
          t.chip = s.chip ∧ (s.cfg.readWrap = none → ∀ i < n.toNat, a.toNat + i < s.cfg.flashSize →
            rs[i]? = some (s.chip.mem.read (a.toNat + i)))) ∧
        EndSetsHazard s t n.toNat) ∧
    (2 ^ 24 ≤ a.toNat → s.ready = true → s.reg.bound = true →
      ∃ t, exec (.readData a n) s = .next t ∧ NoTraffic s t ∧
        Responds s t [.req 4 a n []] ⟨.invalidAddress, .idle, 0, []⟩)

/-- R182, R184: the gating of a page_program or sector_erase: `W([06])`, `WC([05])`, `Rd(1, [s])`; with `s[1]` = 0 it
ends with `WriteNotEnabled`, `value` the status byte, and nothing further is sent; with `s[1]` = 1, whatever the other
bits, it falls through to the command frame, but a page_program of `N` = 0 responds `OK` (R201); whatever answered the
byte. On the modelled chip the write enable acts as R253 says on an idle chip with a closed line (log entry 5) and sets
`hazard` on a busy one (R262), and where it ends a frame, left open by an error, that breaks a rule (R260 to R262, R268, R270;
log entry 18); 0x05 alone does not; a gating byte the chip drives is a status byte of the chip, which is left as
it was (R252). -/
def Obligations.GatingReadsStatusAndTestsWel : Prop :=
  ∀ (s : State) (i : Instr) (a n : Word) (d : List Byte) (ov : Option (List Byte)) (sb : Bool),
    (i = .pageProgram a n d ∨ i = .sectorErase a n) → s.answer = .ok ov →
    (s.reg.phase = .wrenWrite →
      ∃ t, exec i s = .next t ∧ GoesOn s t [.w [0x06]] .statusCmd ∧
        (ClosedLine s → s.chip.busy = none → TakesOrIgnoresWriteEnable s.answered.env.bit s.chip t.chip) ∧
        (s.bus.target.toNat = s.cfg.chipSlot → s.chip.busy ≠ none → t.chip.hazard = true) ∧
        WriteSetsHazard s t [0x06]) ∧
    (s.reg.phase = .statusCmd →
      ∃ t, exec i s = .next t ∧ GoesOn s t [.wc [0x05]] .statusRead ∧ (ClosedLine s → t.chip = s.chip)) ∧
    (s.reg.phase = .statusRead →
      ∃ t c, exec i s = .next t ∧ t.reg.sr = c ∧ (∀ b, ov = some [b] → c = b) ∧
        (c.getLsbD 1 = false → ∃ v, v.toNat = c.toNat ∧
          Responds s t [.rd 1 (some [c])] ⟨.writeNotEnabled, .idle, v, []⟩) ∧
        (c.getLsbD 1 = true → i = .pageProgram a 0#32 d →
          Responds s t [.rd 1 (some [c])] ⟨.ok, .idle, 0, []⟩) ∧
        (c.getLsbD 1 = true → i ≠ .pageProgram a 0#32 d → GoesOn s t [.rd 1 (some [c])] .cmdWrite) ∧
        (ov = none → FrameOn sb [0x05] s → ShowsStatus s c ∧ t.chip = s.chip) ∧ EndSetsHazard s t 1)

/-- R200, R201: after a gating byte with WEL = 1, a page_program of `N` = 0 responds `OK` with no program frame; with
`N` ≥ 1 it sends `[0x02] ++ enc_addr(a)`, then exactly its payload, and responds `OK` without a poll (R202). With the
payload the program starts on a modelled chip that is the target, idle and with its latch set (R258). The chip sets
`hazard` with the command, however the frame ends, where it is busy (R262), its latch is clear (R261) or the address is
from `FLASH_SIZE` up (R270); and with the payload where the frame breaks any of these rules or R260 (log entry 23). -/
def Obligations.PageProgramSendsAddressThenPayload : Prop :=
  ∀ (s : State) (a n : Word) (d : List Byte) (ov : Option (List Byte)) (b : Byte) (sb : Bool),
    (s.reg.phase = .statusRead → s.answer = .ok (some [b]) → b.getLsbD 1 = true → n = 0#32 →
      ∃ t, exec (.pageProgram a n d) s = .next t ∧ Responds s t [.rd 1 (some [b])] ⟨.ok, .idle, 0, []⟩) ∧
    (s.reg.phase = .statusRead → s.answer = .ok (some [b]) → b.getLsbD 1 = true → n ≠ 0#32 →
      ∃ t, exec (.pageProgram a n d) s = .next t ∧ GoesOn s t [.rd 1 (some [b])] .cmdWrite ∧ t.reg.sr = b) ∧
    (s.reg.phase = .cmdWrite → s.answer = .ok ov →
      ∃ t, exec (.pageProgram a n d) s = .next t ∧
        GoesOn s t [.wc (0x02 :: encAddr (wireAddr a))] .dataWrite ∧
        (s.cfg.allowed = true → ClosedLine s → s.chip.busy = none → s.chip.wel = true →
          (wireAddr a).toNat < s.cfg.flashSize → t.chip = s.chip) ∧
        (ClosedLine s → s.chip.wel = false ∨ s.cfg.flashSize ≤ (wireAddr a).toNat → t.chip.hazard = true) ∧
        (s.bus.target.toNat = s.cfg.chipSlot → s.chip.busy ≠ none → t.chip.hazard = true)) ∧
    (s.reg.phase = .dataWrite → s.answer = .ok ov →
      ∃ t, exec (.pageProgram a n d) s = .next t ∧ Responds s t [.w d] ⟨.ok, .idle, 0, []⟩ ∧
        (FrameOn sb (0x02 :: encAddr (wireAddr a)) s → d ≠ [] → sb = false → s.chip.busy = none → s.chip.wel = true →
          (wireAddr a).toNat < s.cfg.flashSize →
          t.chip.busy = some (.prog (wireAddr a).toNat d) ∧ t.chip.wel = true ∧ t.chip.mem = s.chip.mem) ∧
        WriteSetsHazard s t d)

/-- R210: after a gating byte with WEL = 1, sector_erase sends `[ERASE_OPCODE] ++ enc_addr(a)`, the address as it was
given, and responds `OK` without a poll (R211). With it the erase of the aligned sector starts on a modelled chip that
is the target, idle and with its latch set, on a closed line (R263); a busy one sets `hazard`, whatever its
line (R262), and so does a clear latch (R261) or an address from `FLASH_SIZE` up (R270) on a closed line, and an open frame
that, with these bytes, breaks a rule (R260 to R262, R268, R270; log entry 18). -/
def Obligations.SectorEraseSendsTheAddressUnmasked : Prop :=
  ∀ (s : State) (a g : Word) (ov : Option (List Byte)) (b : Byte),
    (s.reg.phase = .statusRead → s.answer = .ok (some [b]) → b.getLsbD 1 = true →
      ∃ t, exec (.sectorErase a g) s = .next t ∧ GoesOn s t [.rd 1 (some [b])] .cmdWrite ∧ t.reg.sr = b) ∧
    (s.reg.phase = .cmdWrite → s.answer = .ok ov →
      ∃ t, exec (.sectorErase a g) s = .next t ∧
        Responds s t [.w (s.cfg.eraseOpcode :: encAddr (wireAddr a))] ⟨.ok, .idle, 0, []⟩ ∧
        (s.cfg.allowed = true → ClosedLine s → s.chip.busy = none → s.chip.wel = true →
          (wireAddr a).toNat < s.cfg.flashSize →
          t.chip =
            { s.chip with busy := some (.erase ((wireAddr a).toNat - (wireAddr a).toNat % s.cfg.sectorSize)) }) ∧
        (s.cfg.allowed = true → ClosedLine s → s.chip.wel = false ∨ s.cfg.flashSize ≤ (wireAddr a).toNat →
          t.chip.hazard = true) ∧
        (s.bus.target.toNat = s.cfg.chipSlot → s.chip.busy ≠ none → t.chip.hazard = true) ∧
        WriteSetsHazard s t (s.cfg.eraseOpcode :: encAddr (wireAddr a)))

/-- R230, R231: one poll of wait_ready sends 0x05, keeps the byte in `SR` and counts it in `POLLS`; WIP = 0 is `OK`, the
`B`-th poll with WIP = 1 is `Timeout`, both with the byte as `value`; otherwise the poller polls again; whatever answered
the byte. 0x05 is no hazard on a busy chip; a byte the modelled chip drives is a status byte of the chip, which is left as
it was (R252): so an idle chip ends the poll with `OK`, a busy one does not. A read that ends a frame which breaks a rule,
left open by an error, sets `hazard` (log entry 18). -/
def Obligations.WaitReadyPollsUntilReadyOrBound : Prop :=
  ∀ (s : State) (g bound : Word) (ov : Option (List Byte)) (sb : Bool), s.answer = .ok ov →
    (s.reg.phase = .statusCmd →
      ∃ t, exec (.waitReady g bound) s = .next t ∧ GoesOn s t [.wc [0x05]] .statusRead ∧
        (ClosedLine s → t.chip = s.chip)) ∧
    (s.reg.phase = .statusRead →
      ∃ t v c, exec (.waitReady g bound) s = .next t ∧ v.toNat = c.toNat ∧ t.reg.sr = c ∧
        t.reg.polls = s.reg.polls + 1#32 ∧ (∀ b, ov = some [b] → c = b) ∧
        (c.getLsbD 0 = false → Responds s t [.rd 1 (some [c])] ⟨.ok, .idle, v, []⟩) ∧
        (c.getLsbD 0 = true → s.reg.polls + 1#32 = bound →
          Responds s t [.rd 1 (some [c])] ⟨.timeout, .idle, v, []⟩) ∧
        (c.getLsbD 0 = true → s.reg.polls + 1#32 ≠ bound → GoesOn s t [.rd 1 (some [c])] .statusCmd) ∧
        (ov = none → FrameOn sb [0x05] s → ShowsStatus s c ∧ t.chip = s.chip) ∧ EndSetsHazard s t 1)

/-- R125, R301: a call that returns `err` ends the operation: no further call, `TransportError` with `ephase` the phase of
the failed call, `value` 0, no data; the trace shows the call of that phase (R110) and then `Err` (R129; a failed
`spi_read` without bytes, log entry 13); `BOUND` and `HANDLE` stay (R309); `hazard` is not set by it (R269). -/
def Obligations.FailedCallEndsWithTransportError : Prop :=
  ∀ (s : State) (i : Instr) (r : Request), IsRequest i r → s.reg.phase ∈ callPhases r.op → s.answer = .err →
    ∃ t, exec i s = .next t ∧
      Responds s t [.err s.reg.phase, failedCall s.cfg.eraseOpcode s.reg.handle r s.reg.phase]
        ⟨.transportError, s.reg.phase, 0, []⟩ ∧
      t.reg.bound = s.reg.bound ∧ t.reg.handle = s.reg.handle ∧ t.chip.hazard = s.chip.hazard

/-- THE MODEL'S CHOICE (log entry 16): in a phase it never passes through (R34, R110), an operation is the model's named
fault. No run comes there (`CoherentStateNeverFaults`). -/
def Obligations.OperationOutsideItsPhasesFaults : Prop :=
  ∀ (s : State) (i : Instr) (r : Request), IsRequest i r → s.reg.phase ≠ .idle → s.reg.phase ∉ callPhases r.op →
    exec i s = .fault .phaseOutOfSequence

/-- R131: a call that has not returned leaves the operation in the call's phase, with no response. That it leaves chip and
line as they were until it returns, and that the trace does not grow, is the model's choice (log entries 6, 13, 33). -/
def Obligations.CallWithoutAnswerKeepsThePhase : Prop :=
  ∀ (s : State) (i : Instr) (r : Request), IsRequest i r → s.reg.phase ∈ callPhases r.op → s.answer = .silent →
    ∃ t, exec i s = .next t ∧ t.reg = s.reg ∧ t.trace = s.trace ∧ t.chip = s.chip ∧ t.bus = s.bus ∧
      t.port = s.port

/-! Whole operations, by steps of the machine. How many steps a run takes is R9's, one step a call or a handshake, with the
model's reading of it (log entry 14, DEDUCED): acceptance is a step of its own, and the response belongs to the step of the
last call. Which agent moves when is a premise (log entry 7). -/

/-- R200: the trace of a page_program of `N` ≥ 1 bytes, from the waiting request to its response, is the one of R200's
example. That this is seven steps, one to accept and one for each of six calls, with the response in the last, is R9 with
the model's reading of it (log entry 14, DEDUCED). -/
def Obligations.PageProgramWholeTrace : Prop :=
  ∀ (s : State) (a n : Word) (d : List Byte) (b : Byte) (rs : List Request), s.cfg.allowed = true →
    s.ready = true → s.reg.bound = true → s.port.waiting = ⟨5, a, n, d⟩ :: rs → d.length = n.toNat → n ≠ 0#32 →
    a.toNat < 2 ^ 24 → b.getLsbD 1 = true → BlockMoves 7 s →
    Answers [.ok none, .ok none, .ok none, .ok (some [b]), .ok none, .ok none] s →
    ∃ t, Host.Core.run Sys2Proof.core 7 s = .next t ∧
      Responds s t [.w d, .wc (0x02 :: encAddr (wireAddr a)), .rd 1 (some [b]), .wc [0x05], .w [0x06],
        .sel s.reg.handle, .req 5 a n d] ⟨.ok, .idle, 0, []⟩

/-- R184: a page_program or sector_erase whose gating byte has WEL = 0 ends after four calls, "the mock transport records
zero additional writes". That this is five steps is R9 with the model's reading of it (log entry 14, DEDUCED). -/
def Obligations.GateFailureWholeTrace : Prop :=
  ∀ (s : State) (r : Request) (b : Byte) (rs : List Request), s.cfg.allowed = true → s.ready = true →
    s.reg.bound = true → s.port.waiting = r :: rs → r.wellFormed = true → (r.op = 5#4 ∨ r.op = 6#4) →
    r.arg0.toNat < 2 ^ 24 → b.getLsbD 1 = false → BlockMoves 5 s →
    Answers [.ok none, .ok none, .ok none, .ok (some [b])] s →
    ∃ t v, Host.Core.run Sys2Proof.core 5 s = .next t ∧ v.toNat = b.toNat ∧
      Responds s t [.rd 1 (some [b]), .wc [0x05], .w [0x06], .sel s.reg.handle, .req r.op r.arg0 r.arg1 r.payload]
        ⟨.writeNotEnabled, .idle, v, []⟩

/-- R151: on the reference chip, idle, read_identity returns `ID_VALUE`, whatever else the state holds, and changes nothing
of the chip. That this is four steps is R9 with the model's reading of it (log entry 14, DEDUCED). -/
def Obligations.ReadIdentityOfTheReferenceChip : Prop :=
  ∀ (s : State) (g0 g1 : Word) (rs : List Request), s.cfg.allowed = true → s.ready = true → s.reg.bound = true →
    s.port.waiting = ⟨1, g0, g1, []⟩ :: rs → s.reg.handle.toNat = s.cfg.chipSlot →
    s.bus.line s.cfg.chipSlot = none → s.chip.busy = none → BlockMoves 4 s → Answers (List.replicate 3 (.ok none)) s →
    ∃ t, Host.Core.run Sys2Proof.core 4 s = .next t ∧ t.chip = s.chip ∧
      Responds s t [.rd 3 (some (identityBytes s.cfg.idValue)), .wc [0x9F], .sel s.reg.handle, .req 1 g0 g1 []]
        ⟨.ok, .idle, s.cfg.idValue, []⟩

/-- R206: the round trip. On the reference chip, idle, without a wrap table, with its latch set or with a write enable
that takes, a page_program of `d` at `a`, within its page and the array, into bytes that are all 0xFF; its completion; a
wait_ready; a read_data of the same address and length returns `d`. `hazard` is as before. That this
is 18 steps is R9 with the model's reading of it (log entries 7, 14). -/
def Obligations.PageProgramThenReadDataReturnsTheData : Prop :=
  ∀ (s : State) (a n g b : Word) (d : List Byte) (rs : List Request), s.cfg.allowed = true → s.ready = true →
    s.reg.bound = true → s.reg.handle.toNat = s.cfg.chipSlot → s.bus.line s.cfg.chipSlot = none → s.chip.busy = none →
    (s.chip.wel = true ∨ WriteEnableTakes s) → s.cfg.readWrap = none → d.length = n.toNat → n ≠ 0#32 →
    a.toNat % s.cfg.pageSize + n.toNat ≤ s.cfg.pageSize → a.toNat + n.toNat ≤ s.cfg.flashSize →
    (∀ i < n.toNat, s.chip.mem.read (a.toNat + i) = 0xFF#8) → b ≠ 0#32 →
    s.port.waiting = ⟨5, a, n, d⟩ :: ⟨7, g, b, []⟩ :: ⟨4, a, n, []⟩ :: rs →
    Moves (List.replicate 7 .block ++ [.take, .complete] ++ List.replicate 4 .block ++ [.take] ++
      List.replicate 4 .block) s →
    Answers (List.replicate 12 (.ok none)) s →
    ∃ t, Host.Core.run Sys2Proof.core 18 s = .next t ∧ t.reg.resp = some ⟨.ok, .idle, 0, d⟩ ∧
      t.chip.busy = none ∧ t.chip.wel = false ∧ t.chip.hazard = s.chip.hazard

/-- R213: after a sector_erase of `a`, its completion and a wait_ready, a read_data of `n` bytes from `c`, anywhere inside
the aligned sector that holds `a` and inside the array, returns 0xFF in every byte (on the reference chip without a wrap
table). That this is 17 steps is R9 with the model's reading of it (log entries 7, 14). -/
def Obligations.SectorEraseThenReadDataReturnsOnes : Prop :=
  ∀ (s : State) (a c n g h b : Word) (rs : List Request), s.cfg.allowed = true → s.ready = true →
    s.reg.bound = true → s.reg.handle.toNat = s.cfg.chipSlot → s.bus.line s.cfg.chipSlot = none → s.chip.busy = none →
    (s.chip.wel = true ∨ WriteEnableTakes s) → s.cfg.readWrap = none → a.toNat < s.cfg.flashSize →
    a.toNat - a.toNat % s.cfg.sectorSize ≤ c.toNat →
    c.toNat + n.toNat ≤ a.toNat - a.toNat % s.cfg.sectorSize + s.cfg.sectorSize →
    c.toNat < s.cfg.flashSize → c.toNat + n.toNat ≤ s.cfg.flashSize → b ≠ 0#32 →
    s.port.waiting = ⟨6, a, g, []⟩ :: ⟨7, h, b, []⟩ :: ⟨4, c, n, []⟩ :: rs →
    Moves (List.replicate 6 .block ++ [.take, .complete] ++ List.replicate 4 .block ++ [.take] ++
      List.replicate 4 .block) s →
    Answers (List.replicate 11 (.ok none)) s →
    ∃ t, Host.Core.run Sys2Proof.core 17 s = .next t ∧
      t.reg.resp = some ⟨.ok, .idle, 0, List.replicate n.toNat 0xFF#8⟩ ∧ t.chip.busy = none ∧ t.chip.wel = false ∧
      t.chip.hazard = s.chip.hazard

/-- R233: if every transport call answers, with whatever result and whatever bytes, wait_ready responds after at most `B`
polls. That these are at most `2 B + 2` steps is R9 with the model's reading of it (log entry 14, DEDUCED). -/
def Obligations.WaitReadyAlwaysTerminates : Prop :=
  ∀ (s : State) (g bound : Word) (as : List Answer) (rs : List Request), s.cfg.allowed = true → s.ready = true →
    s.reg.bound = true → s.port.waiting = ⟨7, g, bound, []⟩ :: rs → bound ≠ 0#32 →
    BlockMoves (2 * bound.toNat + 2) s → as.length = 2 * bound.toNat + 1 → Answer.silent ∉ as → Answers as s →
    ∃ k t, k ≤ 2 * bound.toNat + 2 ∧ Host.Core.run Sys2Proof.core k s = .next t ∧ t.reg.phase = .idle ∧
      t.reg.resp.isSome = true ∧ t.reg.polls.toNat ≤ bound.toNat

/-- R230: `B` polls that all show WIP = 1 end in `Timeout`, after exactly `B` polls, with the last byte as `value`. That
these are `2 B + 2` steps is R9 with the model's reading of it (log entry 14, DEDUCED). -/
def Obligations.WaitReadyTimesOutAfterExactlyBound : Prop :=
  ∀ (s : State) (g bound : Word) (bs : List Byte) (b : Byte) (rs : List Request), s.cfg.allowed = true →
    s.ready = true → s.reg.bound = true → s.port.waiting = ⟨7, g, bound, []⟩ :: rs →
    bs.length + 1 = bound.toNat → (∀ x ∈ bs ++ [b], x.getLsbD 0 = true) → BlockMoves (2 * bound.toNat + 2) s →
    Answers (.ok none :: (bs ++ [b]).flatMap fun x => [.ok none, .ok (some [x])]) s →
    ∃ t v, Host.Core.run Sys2Proof.core (2 * bound.toNat + 2) s = .next t ∧ v.toNat = b.toNat ∧
      t.reg.polls = bound ∧
      Responds s t
        (((bs ++ [b]).reverse.flatMap fun x => [.rd 1 (some [x]), .wc [0x05]]) ++
          [.sel s.reg.handle, .req 7 g bound []])
        ⟨.timeout, .idle, v, []⟩

/-! Whole-machine rules -/

/-- R104: each result code is raised only by the operations its row names; code by code, for the response an operation
gives. -/
def Obligations.ResultCodesComeFromTheirOperations : Prop :=
  ∀ (s t : State) (i : Instr) (r : Request) (p : Response), IsRequest i r → s.reg.resp = none →
    exec i s = .next t → t.reg.resp = some p →
    (p.code = .transportError → 1 ≤ r.op.toNat ∧ r.op.toNat ≤ 7) ∧
    (p.code = .invalidAddress → r.op = 4#4 ∨ r.op = 5#4 ∨ r.op = 6#4) ∧
    (p.code = .writeNotEnabled → r.op = 5#4 ∨ r.op = 6#4) ∧
    (p.code = .timeout → r.op = 7#4) ∧
    (p.code = .configError → r.op = 0#4 ∨ s.reg.bound = false) ∧
    (p.code = .illegalOp ↔ 8 ≤ r.op.toNat)

/-- R105, R106, R107: `ephase` is 0 unless the code is `TransportError`, and then it is the phase of the failed call;
`value` is 0 but where R105 names it, and there the identity of the three bytes read (big-endian) or the status byte
read last; `rdata` is empty but in the `OK` of a read_data, where it is the `N` bytes read, in wire order. -/
def Obligations.ResponseFieldsFollowTheirRules : Prop :=
  ∀ (s t : State) (i : Instr) (r : Request) (p : Response), IsRequest i r → s.reg.resp = none →
    exec i s = .next t → t.reg.resp = some p →
    (p.code ≠ .transportError → p.ephase = .idle) ∧
    (p.code = .transportError → p.ephase = s.reg.phase ∧ p.ephase ≠ .idle ∧ p.value = 0#24) ∧
    (p.value ≠ 0#24 → (r.op = 1#4 ∧ p.code = .ok) ∨ (r.op = 2#4 ∧ p.code = .ok) ∨
      (r.op = 7#4 ∧ (p.code = .ok ∨ p.code = .timeout)) ∨ ((r.op = 5#4 ∨ r.op = 6#4) ∧ p.code = .writeNotEnabled)) ∧
    (r.op = 1#4 → p.code = .ok → ∃ b0 b1 b2 : Byte, t.trace = .rsp p :: .rd 3 (some [b0, b1, b2]) :: s.trace ∧
      p.value.toNat = b0.toNat * 2 ^ 16 + b1.toNat * 2 ^ 8 + b2.toNat) ∧
    ((r.op = 2#4 ∨ r.op = 7#4) → p.code = .ok → p.value.toNat = t.reg.sr.toNat) ∧
    (p.code = .writeNotEnabled → p.value.toNat = t.reg.sr.toNat) ∧
    (p.code = .timeout → p.value.toNat = t.reg.sr.toNat ∨ (r.arg1 = 0#32 ∧ p.value = 0#24)) ∧
    (p.rdata ≠ [] → r.op = 4#4 ∧ p.code = .ok) ∧
    (r.op = 4#4 → p.code = .ok → p.rdata.length = r.arg1.toNat ∧
      t.trace = .rsp p :: .rd r.arg1.toNat (some p.rdata) :: s.trace)

/-- R142, R309: only a reset returns `BOUND` to 0, and while the instance is bound no step but a reset changes
`HANDLE`. -/
def Obligations.OnlyResetUnbinds : Prop :=
  ∀ s t : State, step s = .next t → s.reg.bound = true → s.event ≠ .reset →
    t.reg.bound = true ∧ t.reg.handle = s.reg.handle

/-- R250: `hazard` is "never cleared". -/
def Obligations.HazardIsNeverCleared : Prop :=
  ∀ s t : State, step s = .next t → s.chip.hazard = true → t.chip.hazard = true

/-- R101: no rule reads an ignored field. Two requests that differ in their ignored fields alone do the same: during the
operation the next states are equal; at acceptance they are equal but for the latches and the one `Req` event, which
each show their own request; where neither is accepted, in phase IDLE with a response pending (log entry 15), the next
states are equal. -/
def Obligations.IgnoredFieldsHaveNoEffect : Prop :=
  ∀ (s t t' : State) (i i' : Instr) (r r' : Request) (h a b g g' k k' : Word),
    ((i = .bind h g ∧ i' = .bind h g') ∨ (i = .readIdentity g k ∧ i' = .readIdentity g' k') ∨
      (i = .readStatus g k ∧ i' = .readStatus g' k') ∨ (i = .writeEnable g k ∧ i' = .writeEnable g' k') ∨
      (i = .sectorErase a g ∧ i' = .sectorErase a g') ∨ (i = .waitReady g b ∧ i' = .waitReady g' b)) →
    IsRequest i r → IsRequest i' r' → exec i s = .next t → exec i' s = .next t' →
    { t' with reg := { t'.reg with arg0 := t.reg.arg0, arg1 := t.reg.arg1 }, trace := t.trace } = t ∧
      (s.reg.phase ≠ .idle → t' = t) ∧ (s.reg.phase = .idle → s.ready = false → t' = t) ∧
      (s.ready = true → ∃ evs, t.trace = evs ++ .req r.op r.arg0 r.arg1 r.payload :: s.trace ∧
        t'.trace = evs ++ .req r'.op r'.arg0 r'.arg1 r'.payload :: s.trace)

/-- R10: `TRANSPORT_WORD_BYTES` has "no effect on the wire": no instruction's result depends on it. -/
def Obligations.TransportWordSizeHasNoEffect : Prop :=
  ∀ (s t : State) (i : Instr) (n : Nat), exec i s = .next t →
    exec i { s with cfg := { s.cfg with transportWordBytes := n } } =
      .next { t with cfg := { t.cfg with transportWordBytes := n } }

/-! Frames -/

/-- What a host operation leaves unchanged of the registers, the port, the parameters and the schedule. That parameters,
schedule and waiting requests stay, and where the payload is kept, is the model's choice (log entries 1, 4, 7, 8, 25); so
is that an error leaves the lines of slots that are neither bound nor the target (log entry 31; else R18, R120). `BOUND` and
`HANDLE` change in a bind alone; the latches and the payload when a request is accepted (phase IDLE) and, for the
payload, when it responds; `SR` in a status read (phase STATUS_READ); `POLLS` in wait_ready; `RESP` only where the
operation ends; the target slot in phase SELECT. -/
def Obligations.HostOperationFrame : Prop :=
  ∀ (s t : State) (i : Instr) (r : Request), IsRequest i r → exec i s = .next t →
    t.cfg = s.cfg ∧ t.port.waiting = s.port.waiting ∧ t.env.sched = s.env.sched ∧
    (r.op ≠ 0#4 → t.reg.bound = s.reg.bound ∧ t.reg.handle = s.reg.handle) ∧
    (s.reg.phase ≠ .idle → t.reg.op = s.reg.op ∧ t.reg.arg0 = s.reg.arg0 ∧ t.reg.arg1 = s.reg.arg1) ∧
    (s.reg.phase ≠ .idle → t.reg.phase ≠ .idle → t.port.stream = s.port.stream) ∧
    (s.reg.phase ≠ .statusRead → t.reg.sr = s.reg.sr) ∧
    (r.op ≠ 7#4 → t.reg.polls = s.reg.polls) ∧
    (t.reg.phase ≠ .idle → t.reg.resp = s.reg.resp) ∧
    (s.reg.phase ≠ .select → t.bus.target = s.bus.target) ∧
    (∀ h, h ≠ s.reg.handle.toNat → h ≠ s.bus.target.toNat → t.bus.line h = s.bus.line h)

/-- A host operation writes no byte of the array by itself: a program or erase reaches it at its completion. For every
operation, in every phase, every byte reads as before, unless the call failed or `hazard` is set. In phase IDLE chip and transport stay whole, and so do chip and line in phase SELECT, where
`spi_select` has no bus effect (R120), unless the call failed. The operations that only read, and wait_ready, leave the
whole chip as it was (R74, R234), under the same two exceptions and where no error has left the frame open. -/
def Obligations.HostOperationMemoryFrame : Prop :=
  ∀ (s t : State) (i : Instr) (r : Request), IsRequest i r → exec i s = .next t →
    (s.reg.phase = .idle → t.chip = s.chip ∧ t.bus = s.bus) ∧
    (s.reg.phase = .select → s.answer ≠ .err → t.chip = s.chip ∧ t.bus.lines = s.bus.lines ∧ t.bus.rx = s.bus.rx) ∧
    (s.answer ≠ .err → t.chip.hazard = false → ∀ x, t.chip.mem.read x = s.chip.mem.read x) ∧
    (s.answer ≠ .err → (∀ f, s.bus.frame = some f → f.known = true) → t.chip.hazard = false → FrameInv s →
      latchedRequest s = r → (r.op = 1#4 ∨ r.op = 2#4 ∨ r.op = 4#4 ∨ r.op = 7#4) → t.chip = s.chip)

/-- What a chip command leaves unchanged: where `hazard` is clear afterwards, every byte of the array; and, which is the
model's choice for such a frame of another agent (log entry 21), the whole of FLASHCMD, the port, the trace, the
parameters, the target and the chip-select lines. -/
def Obligations.ChipCommandFrame : Prop :=
  ∀ (s t : State) (i : Instr), IsFrame i → exec i s = .next t →
    t.reg = s.reg ∧ t.port = s.port ∧ t.trace = s.trace ∧ t.cfg = s.cfg ∧ t.bus.target = s.bus.target ∧
    t.bus.lines = s.bus.lines ∧ t.env.sched = s.env.sched ∧ t.env.answers = s.env.answers ∧
    (t.chip.hazard = false → ∀ x, t.chip.mem.read x = s.chip.mem.read x)

/-- R265: what a completion does. The operation ends and the latch is cleared. A program within its page puts `d[i]` where
the array held 0xFF (R259), for its bytes inside the array (the model's choice, log entry 28); an erase puts 0xFF in its
sector below `FLASH_SIZE` (R264). Every byte outside the bytes it writes reads as before: a program's `len(d)` bytes
from `a`, a crossing program's page, an erase's sector. R260 says that a crossing program draws its page; that it leaves
every byte outside that page, the next page's too, is the model's choice (log entry 28). -/
def Obligations.CompletionEndsAndWritesOnlyItsBytes : Prop :=
  ∀ (s : State) (b : Pending), s.cfg.allowed = true → s.event = .complete → s.chip.busy = some b →
    ∃ t, step s = .next t ∧ t.chip.busy = none ∧ t.chip.wel = false ∧ t.chip.hazard = s.chip.hazard ∧
      t.reg = s.reg ∧ t.bus = s.bus ∧ t.port = s.port ∧ t.trace = s.trace ∧
      (∀ a d, b = .prog a d → a % s.cfg.pageSize + d.length ≤ s.cfg.pageSize →
        ∀ i v, d[i]? = some v → a + i < s.cfg.flashSize → s.chip.mem.read (a + i) = 0xFF#8 →
          t.chip.mem.read (a + i) = v) ∧
      (∀ base, b = .erase base → ∀ x, base ≤ x → x < base + s.cfg.sectorSize → x < s.cfg.flashSize →
        t.chip.mem.read x = 0xFF#8) ∧
      (∀ a d, b = .prog a d → a % s.cfg.pageSize + d.length ≤ s.cfg.pageSize →
        ∀ x, (x < a ∨ a + d.length ≤ x) → t.chip.mem.read x = s.chip.mem.read x) ∧
      (∀ a d, b = .prog a d → s.cfg.pageSize < a % s.cfg.pageSize + d.length →
        ∀ x, (x < pageBase s.cfg a ∨ pageBase s.cfg a + s.cfg.pageSize ≤ x) →
          t.chip.mem.read x = s.chip.mem.read x) ∧
      (∀ base, b = .erase base →
        ∀ x, (x < base ∨ base + s.cfg.sectorSize ≤ x) → t.chip.mem.read x = s.chip.mem.read x)

/-! The chip -/

/-- R252: read status is legal while busy, has no effect, and shows WIP = 1 iff the chip is busy, the latch in bit 1
when it is idle, and `STATUS_OPAQUE` in bits 7:2 where that is given. -/
def Obligations.ReadStatusCommandShowsWipAndWel : Prop :=
  ∀ s : State, ∃ t b, exec .rdsr s = .next t ∧ t.bus.rx = [b] ∧ t.chip = s.chip ∧
    b.getLsbD 0 = s.chip.busy.isSome ∧ (s.chip.busy = none → b.getLsbD 1 = s.chip.wel) ∧
    (∀ o, s.cfg.statusOpaque = some o → b.extractLsb' 2 6 = o)

/-- R253, R181: on an idle chip write enable sets the latch where the drawn bit is set (`Env.bit`, log entry 5), else leaves
it; a latch that is set stays set; the rest of the chip stays. -/
def Obligations.WriteEnableCommandSetsOrKeepsTheLatch : Prop :=
  ∀ s : State, s.chip.busy = none →
    ∃ t, exec .wren s = .next t ∧ t.bus.rx = [] ∧ TakesOrIgnoresWriteEnable s.env.bit s.chip t.chip ∧
      (s.chip.wel = true → t.chip = s.chip)

/-- R255, R256: an idle chip answers a read with `N` bytes and no effect. Byte `i` is `mem[a + i]` below `FLASH_SIZE`, but
where a wrap table has an entry `((a, i), t)`: there it is `mem[t]`, for `t` below `FLASH_SIZE` (the first entry counts;
that `READ_WRAP` is a table is log entry 3). -/
def Obligations.ReadCommandReturnsConsecutiveBytes : Prop :=
  ∀ (s : State) (a : Addr) (n : Nat), s.chip.busy = none →
    ∃ t, exec (.read a n) s = .next t ∧ t.chip = s.chip ∧ t.bus.rx.length = n ∧
      (s.cfg.readWrap = none → ∀ i < n, a.toNat + i < s.cfg.flashSize →
        t.bus.rx[i]? = some (s.chip.mem.read (a.toNat + i))) ∧
      (∀ table, s.cfg.readWrap = some table → ∀ i < n,
        (∀ x, table.find? (fun w => w.1 == (a.toNat, i)) = some ((a.toNat, i), x) → x < s.cfg.flashSize →
          t.bus.rx[i]? = some (s.chip.mem.read x)) ∧
        (table.find? (fun w => w.1 == (a.toNat, i)) = none → a.toNat + i < s.cfg.flashSize →
          t.bus.rx[i]? = some (s.chip.mem.read (a.toNat + i))))

/-- R257: an idle chip answers read identity with the three bytes of `ID_VALUE`, big-endian, and no effect. -/
def Obligations.ReadIdentityCommandReturnsTheConstant : Prop :=
  ∀ s : State, s.chip.busy = none →
    ∃ t, exec .rdid s = .next t ∧ t.chip = s.chip ∧
      t.bus.rx.map BitVec.toNat =
        [s.cfg.idValue.toNat / 2 ^ 16, s.cfg.idValue.toNat / 2 ^ 8 % 2 ^ 8, s.cfg.idValue.toNat % 2 ^ 8]

/-- R258, R260: on an idle chip with the latch set, a program below `FLASH_SIZE` starts: WIP is 1 and the array waits
for completion; `hazard` is set iff it crosses its page. -/
def Obligations.ProgramCommandStarts : Prop :=
  ∀ (s : State) (a : Addr) (d : List Byte), d ≠ [] → s.chip.busy = none → s.chip.wel = true →
    a.toNat < s.cfg.flashSize →
    ∃ t, exec (.pp a d) s = .next t ∧ t.bus.rx = [] ∧ t.chip.busy = some (.prog a.toNat d) ∧
      t.chip.wel = s.chip.wel ∧ t.chip.mem = s.chip.mem ∧
      (a.toNat % s.cfg.pageSize + d.length ≤ s.cfg.pageSize → t.chip.hazard = s.chip.hazard) ∧
      (s.cfg.pageSize < a.toNat % s.cfg.pageSize + d.length → t.chip.hazard = true)

/-- R263: on an idle chip with the latch set, an erase below `FLASH_SIZE` starts on the aligned sector of its address. -/
def Obligations.EraseCommandStarts : Prop :=
  ∀ (s : State) (a : Addr), s.chip.busy = none → s.chip.wel = true → a.toNat < s.cfg.flashSize →
    ∃ t, exec (.se a) s = .next t ∧ t.bus.rx = [] ∧
      t.chip = { s.chip with busy := some (.erase (a.toNat - a.toNat % s.cfg.sectorSize)) }

/-- R261, R262, R270: a command other than read status on a busy chip, and a program or erase with the latch clear or
from `FLASH_SIZE` up, set `hazard`; the command still answers its number of bytes. -/
def Obligations.BrokenObligationSetsHazard : Prop :=
  ∀ (s : State) (a : Addr) (n : Nat) (d : List Byte) (b : Pending),
    (s.chip.busy = some b →
      (∃ t, exec .wren s = .next t ∧ t.chip.hazard = true ∧ t.bus.rx.length = 0) ∧
      (∃ t, exec (.read a n) s = .next t ∧ t.chip.hazard = true ∧ t.bus.rx.length = n) ∧
      (∃ t, exec .rdid s = .next t ∧ t.chip.hazard = true ∧ t.bus.rx.length = 3) ∧
      (∃ t, exec (.pp a d) s = .next t ∧ t.chip.hazard = true ∧ t.bus.rx.length = 0) ∧
      (∃ t, exec (.se a) s = .next t ∧ t.chip.hazard = true ∧ t.bus.rx.length = 0)) ∧
    ((s.chip.wel = false ∨ s.cfg.flashSize ≤ a.toNat) →
      (∃ t, exec (.pp a d) s = .next t ∧ t.chip.hazard = true ∧ t.bus.rx.length = 0) ∧
      (∃ t, exec (.se a) s = .next t ∧ t.chip.hazard = true ∧ t.bus.rx.length = 0))

/-! Invariants -/

/-- R83, R183: every step keeps the write-enable invariant: no program or erase frame stands in the trace but right
after a gating status read that showed WEL = 1. -/
def Obligations.WriteEnableGatingIsKept : Prop :=
  ∀ s t : State, GatingInv s → step s = .next t → GatingInv t

/-- Every step keeps the sequencer invariant (R34, R47, R110, R305). -/
def Obligations.SequencerInvariantIsKept : Prop :=
  ∀ s t : State, SequencerInv s → step s = .next t → SequencerInv t

/-- From a state of the sequencer invariant no step ends in a fault: the model's one fault is reached by no run. -/
def Obligations.CoherentStateNeverFaults : Prop :=
  ∀ (s : State) (f : Fault), SequencerInv s → step s ≠ .fault f

/-- R121, R123: every step keeps the frame invariant: during the calls of an operation the bound slot is the target; on
every slot's line a frame is open between two calls only in the phase that ends it, or because an error or a reset left
it. -/
def Obligations.OpenFrameInvariantIsKept : Prop :=
  ∀ s t : State, FrameInv s → step s = .next t → FrameInv t

/-- Every step keeps the array in canonical form and inside `0 .. FLASH_SIZE - 1` (R60). -/
def Obligations.ArrayInvariantIsKept : Prop :=
  ∀ s t : State, ArrayInv s → step s = .next t → ArrayInv t

/-- The four invariants hold of the reset state. -/
def Obligations.ResetMeetsTheInvariants : Prop :=
  GatingInv State.reset ∧ SequencerInv State.reset ∧ FrameInv State.reset ∧ ArrayInv State.reset
end

