-- ==== Sys2Proof/Laws/Cells.lean ====
section
/-! SUPPORT. Sparse data listed by number: what is found after an update, and that the numbers keep rising. -/
namespace Sys2Proof.Machine

variable {α : Type}

theorem cellsRise_mono {lo lo' : Nat} (h : lo' ≤ lo) : ∀ {cs : List (Nat × α)}, cellsRise lo cs → cellsRise lo' cs
  | [], _ => rfl
  | (u, b) :: cs, hc => by
    simp only [cellsRise, Bool.and_eq_true, decide_eq_true_eq] at hc ⊢
    exact ⟨by omega, hc.2⟩

@[simp] theorem lookupCell_insert_same (t : Nat) (v : α) : ∀ cs, lookupCell t (insertCell t v cs) = some v
  | [] => by simp [insertCell, lookupCell]
  | (u, b) :: cs => by
    by_cases h1 : t < u
    · simp [insertCell, h1, lookupCell]
    · by_cases h2 : t = u
      · simp [insertCell, h2, lookupCell]
      · simp [insertCell, h1, h2, lookupCell, lookupCell_insert_same t v cs]

theorem lookupCell_insert_other {t u : Nat} (v : α) (h : u ≠ t) :
    ∀ cs, lookupCell u (insertCell t v cs) = lookupCell u cs
  | [] => by simp [insertCell, lookupCell, h]
  | (w, b) :: cs => by
    by_cases h1 : t < w
    · simp [insertCell, h1, lookupCell, h]
    · by_cases h2 : t = w
      · subst h2; simp [insertCell, lookupCell, h]
      · simp [insertCell, h1, h2, lookupCell, lookupCell_insert_other v h cs]

@[simp] theorem lookupCell_remove_same (t : Nat) : ∀ cs : List (Nat × α), lookupCell t (removeCell t cs) = none
  | [] => rfl
  | (u, b) :: cs => by
    by_cases h : t = u
    · simp only [removeCell, h, if_true]; rw [← h]; exact lookupCell_remove_same t cs
    · simp only [removeCell, h, if_false, lookupCell]; exact lookupCell_remove_same t cs

theorem lookupCell_remove_other {t u : Nat} (h : u ≠ t) :
    ∀ cs : List (Nat × α), lookupCell u (removeCell t cs) = lookupCell u cs
  | [] => rfl
  | (w, b) :: cs => by
    by_cases h2 : t = w
    · subst h2; simp [removeCell, lookupCell, h, lookupCell_remove_other h cs]
    · simp [removeCell, h2, lookupCell, lookupCell_remove_other h cs]

theorem cellsRise_insert (t : Nat) (v : α) :
    ∀ {lo : Nat} {cs}, cellsRise lo cs → lo ≤ t → cellsRise lo (insertCell t v cs)
  | lo, [], _, h => by simp [insertCell, cellsRise, h]
  | lo, (u, b) :: cs, hc, h => by
    simp only [cellsRise, Bool.and_eq_true, decide_eq_true_eq] at hc
    by_cases h1 : t < u
    · simp only [insertCell, h1, if_true, cellsRise, Bool.and_eq_true, decide_eq_true_eq]
      exact ⟨h, by omega, hc.2⟩
    · by_cases h2 : t = u
      · subst h2; simp [insertCell, cellsRise, hc]
      · simp [insertCell, h1, h2, cellsRise, hc.1, cellsRise_insert t v hc.2 (by omega)]

theorem cellsRise_remove (t : Nat) :
    ∀ {lo : Nat} {cs : List (Nat × α)}, cellsRise lo cs → cellsRise lo (removeCell t cs)
  | _, [], h => h
  | lo, (u, b) :: cs, hc => by
    simp only [cellsRise, Bool.and_eq_true, decide_eq_true_eq] at hc
    by_cases h2 : t = u
    · simp only [removeCell, h2, if_true]; exact cellsRise_mono (by omega) (cellsRise_remove u hc.2)
    · simp [removeCell, h2, cellsRise, hc.1, cellsRise_remove t hc.2]

theorem all_insertCell (P : Nat × α → Bool) (t : Nat) (v : α) (hp : P (t, v)) :
    ∀ {cs : List (Nat × α)}, cs.all P → (insertCell t v cs).all P
  | [], _ => by simp [insertCell, hp]
  | (u, b) :: cs, hc => by
    simp only [List.all_cons, Bool.and_eq_true] at hc
    by_cases h1 : t < u
    · simp only [insertCell, h1, if_true, List.all_cons, Bool.and_eq_true]; exact ⟨hp, hc.1, hc.2⟩
    · by_cases h2 : t = u
      · subst h2; simp [insertCell, hp, hc.2]
      · simp only [insertCell, h1, h2, if_false, List.all_cons, Bool.and_eq_true]
        exact ⟨hc.1, all_insertCell P t v hp hc.2⟩

theorem all_removeCell (P : Nat × α → Bool) (t : Nat) :
    ∀ {cs : List (Nat × α)}, cs.all P → (removeCell t cs).all P
  | [], h => h
  | (u, b) :: cs, hc => by
    simp only [List.all_cons, Bool.and_eq_true] at hc
    by_cases h2 : t = u
    · simp only [removeCell, h2, if_true]; exact all_removeCell P u hc.2
    · simp only [removeCell, h2, if_false, List.all_cons, Bool.and_eq_true]; exact ⟨hc.1, all_removeCell P t hc.2⟩

end Sys2Proof.Machine
end

