-- ==== Sys2Proof/Laws/Decode.lean ====
section
/-! SUPPORT. The address and the op code on the wire and back, and which request each host operation is. -/
namespace Sys2Proof

/-- The address of its own three bytes. -/
@[simp] theorem decAddr_encAddr (a : Addr) :
    decAddr (a.extractLsb' 16 8) (a.extractLsb' 8 8) (a.extractLsb' 0 8) = a := by
  apply BitVec.eq_of_toNat_eq
  simp only [decAddr, BitVec.toNat_append, BitVec.extractLsb'_toNat, Nat.shiftRight_eq_div_pow]
  rw [← Nat.shiftLeft_add_eq_or_of_lt (by omega), ← Nat.shiftLeft_add_eq_or_of_lt (by omega)]
  have := a.isLt
  simp only [Nat.shiftLeft_eq]
  omega

/-- R65: an address as a number, from its three bytes. -/
theorem decAddr_toNat (x y z : Byte) :
    (decAddr x y z).toNat = x.toNat * 2 ^ 16 + y.toNat * 2 ^ 8 + z.toNat := by
  have hy := y.isLt
  have hz := z.isLt
  simp only [decAddr, BitVec.toNat_append]
  rw [← Nat.shiftLeft_add_eq_or_of_lt (by omega), ← Nat.shiftLeft_add_eq_or_of_lt (by omega)]
  simp only [Nat.shiftLeft_eq]
  omega

/-- The three bytes of their own address. -/
@[simp] theorem encAddr_decAddr (x y z : Byte) : encAddr (decAddr x y z) = [x, y, z] := by
  have hx := x.isLt
  have hy := y.isLt
  have hz := z.isLt
  simp only [encAddr, List.cons.injEq, and_true]
  refine ⟨?_, ?_, ?_⟩ <;> apply BitVec.eq_of_toNat_eq <;>
    simp only [BitVec.extractLsb'_toNat, decAddr_toNat, Nat.shiftRight_eq_div_pow] <;> omega

/-- R101: a reserved op code is 0x8 or more, and its low three bits name it. -/
theorem reservedOp_toNat : ∀ low : BitVec 3, 8 ≤ (1#1 ++ low).toNat := by decide

@[simp] theorem reservedOp_low : ∀ low : BitVec 3, (1#1 ++ low : BitVec 4).extractLsb' 0 3 = low := by decide

/-- Which request each host operation is (R101). -/
theorem encode_request {e : Byte} {i : Instr} {r : Request} (h : encode e i = .request r) :
    (∃ x y, i = .bind x y ∧ r = ⟨0, x, y, []⟩) ∨ (∃ x y, i = .readIdentity x y ∧ r = ⟨1, x, y, []⟩) ∨
    (∃ x y, i = .readStatus x y ∧ r = ⟨2, x, y, []⟩) ∨ (∃ x y, i = .writeEnable x y ∧ r = ⟨3, x, y, []⟩) ∨
    (∃ x y, i = .readData x y ∧ r = ⟨4, x, y, []⟩) ∨ (∃ x y d, i = .pageProgram x y d ∧ r = ⟨5, x, y, d⟩) ∨
    (∃ x y, i = .sectorErase x y ∧ r = ⟨6, x, y, []⟩) ∨ (∃ x y, i = .waitReady x y ∧ r = ⟨7, x, y, []⟩) ∨
    (∃ k x y, i = .reserved k x y ∧ r = ⟨1#1 ++ k, x, y, []⟩) := by
  cases i <;> simp [encode] at h ⊢ <;> exact h.symm

/-- R97: the number of bytes in of a frame, by what it decodes to. -/
theorem decodeFrame_nIn {e : Byte} {f : Frame} {i : Instr} (h : decodeFrame e f = .ok i) :
    (i = .rdsr → f.nIn = 1) ∧ (i = .wren → f.nIn = 0) ∧ (∀ a n, i = .read a n → f.nIn = n) ∧
      (∀ a d, i = .pp a d → f.nIn = 0) ∧ (i = .rdid → f.nIn = 3) ∧ ∀ a, i = .se a → f.nIn = 0 := by
  unfold decodeFrame at h
  repeat' split at h
  all_goals simp_all
  all_goals subst h; simp_all

end Sys2Proof
end

