-- ==== Sys2Proof/Laws/State.lean ====
section
/-! SUPPORT. One lemma per field per update of the state, all by rfl. -/
namespace Sys2Proof.Machine

/-! log -/

@[simp] theorem State.log_cfg (s : State) (e : TraceEvent) : (s.log e).cfg = s.cfg := rfl
@[simp] theorem State.log_reg (s : State) (e : TraceEvent) : (s.log e).reg = s.reg := rfl
@[simp] theorem State.log_port (s : State) (e : TraceEvent) : (s.log e).port = s.port := rfl
@[simp] theorem State.log_bus (s : State) (e : TraceEvent) : (s.log e).bus = s.bus := rfl
@[simp] theorem State.log_chip (s : State) (e : TraceEvent) : (s.log e).chip = s.chip := rfl
@[simp] theorem State.log_env (s : State) (e : TraceEvent) : (s.log e).env = s.env := rfl
@[simp] theorem State.log_trace (s : State) (e : TraceEvent) : (s.log e).trace = e :: s.trace := rfl

/-! goto -/

@[simp] theorem goto_cfg (p : Phase) (s : State) : (goto p s).cfg = s.cfg := rfl
@[simp] theorem goto_port (p : Phase) (s : State) : (goto p s).port = s.port := rfl
@[simp] theorem goto_bus (p : Phase) (s : State) : (goto p s).bus = s.bus := rfl
@[simp] theorem goto_chip (p : Phase) (s : State) : (goto p s).chip = s.chip := rfl
@[simp] theorem goto_env (p : Phase) (s : State) : (goto p s).env = s.env := rfl
@[simp] theorem goto_trace (p : Phase) (s : State) : (goto p s).trace = s.trace := rfl
@[simp] theorem goto_bound (p : Phase) (s : State) : (goto p s).reg.bound = s.reg.bound := rfl
@[simp] theorem goto_handle (p : Phase) (s : State) : (goto p s).reg.handle = s.reg.handle := rfl
@[simp] theorem goto_phase (p : Phase) (s : State) : (goto p s).reg.phase = p := rfl
@[simp] theorem goto_op (p : Phase) (s : State) : (goto p s).reg.op = s.reg.op := rfl
@[simp] theorem goto_arg0 (p : Phase) (s : State) : (goto p s).reg.arg0 = s.reg.arg0 := rfl
@[simp] theorem goto_arg1 (p : Phase) (s : State) : (goto p s).reg.arg1 = s.reg.arg1 := rfl
@[simp] theorem goto_sr (p : Phase) (s : State) : (goto p s).reg.sr = s.reg.sr := rfl
@[simp] theorem goto_polls (p : Phase) (s : State) : (goto p s).reg.polls = s.reg.polls := rfl
@[simp] theorem goto_resp (p : Phase) (s : State) : (goto p s).reg.resp = s.reg.resp := rfl

/-! setSr -/

@[simp] theorem setSr_cfg (b : Byte) (s : State) : (setSr b s).cfg = s.cfg := rfl
@[simp] theorem setSr_port (b : Byte) (s : State) : (setSr b s).port = s.port := rfl
@[simp] theorem setSr_bus (b : Byte) (s : State) : (setSr b s).bus = s.bus := rfl
@[simp] theorem setSr_chip (b : Byte) (s : State) : (setSr b s).chip = s.chip := rfl
@[simp] theorem setSr_env (b : Byte) (s : State) : (setSr b s).env = s.env := rfl
@[simp] theorem setSr_trace (b : Byte) (s : State) : (setSr b s).trace = s.trace := rfl
@[simp] theorem setSr_bound (b : Byte) (s : State) : (setSr b s).reg.bound = s.reg.bound := rfl
@[simp] theorem setSr_handle (b : Byte) (s : State) : (setSr b s).reg.handle = s.reg.handle := rfl
@[simp] theorem setSr_phase (b : Byte) (s : State) : (setSr b s).reg.phase = s.reg.phase := rfl
@[simp] theorem setSr_op (b : Byte) (s : State) : (setSr b s).reg.op = s.reg.op := rfl
@[simp] theorem setSr_arg0 (b : Byte) (s : State) : (setSr b s).reg.arg0 = s.reg.arg0 := rfl
@[simp] theorem setSr_arg1 (b : Byte) (s : State) : (setSr b s).reg.arg1 = s.reg.arg1 := rfl
@[simp] theorem setSr_sr (b : Byte) (s : State) : (setSr b s).reg.sr = b := rfl
@[simp] theorem setSr_polls (b : Byte) (s : State) : (setSr b s).reg.polls = s.reg.polls := rfl
@[simp] theorem setSr_resp (b : Byte) (s : State) : (setSr b s).reg.resp = s.reg.resp := rfl

/-! setPolls -/

@[simp] theorem setPolls_cfg (v : Word) (s : State) : (setPolls v s).cfg = s.cfg := rfl
@[simp] theorem setPolls_port (v : Word) (s : State) : (setPolls v s).port = s.port := rfl
@[simp] theorem setPolls_bus (v : Word) (s : State) : (setPolls v s).bus = s.bus := rfl
@[simp] theorem setPolls_chip (v : Word) (s : State) : (setPolls v s).chip = s.chip := rfl
@[simp] theorem setPolls_env (v : Word) (s : State) : (setPolls v s).env = s.env := rfl
@[simp] theorem setPolls_trace (v : Word) (s : State) : (setPolls v s).trace = s.trace := rfl
@[simp] theorem setPolls_bound (v : Word) (s : State) : (setPolls v s).reg.bound = s.reg.bound := rfl
@[simp] theorem setPolls_handle (v : Word) (s : State) : (setPolls v s).reg.handle = s.reg.handle := rfl
@[simp] theorem setPolls_phase (v : Word) (s : State) : (setPolls v s).reg.phase = s.reg.phase := rfl
@[simp] theorem setPolls_op (v : Word) (s : State) : (setPolls v s).reg.op = s.reg.op := rfl
@[simp] theorem setPolls_arg0 (v : Word) (s : State) : (setPolls v s).reg.arg0 = s.reg.arg0 := rfl
@[simp] theorem setPolls_arg1 (v : Word) (s : State) : (setPolls v s).reg.arg1 = s.reg.arg1 := rfl
@[simp] theorem setPolls_sr (v : Word) (s : State) : (setPolls v s).reg.sr = s.reg.sr := rfl
@[simp] theorem setPolls_polls (v : Word) (s : State) : (setPolls v s).reg.polls = v := rfl
@[simp] theorem setPolls_resp (v : Word) (s : State) : (setPolls v s).reg.resp = s.reg.resp := rfl

/-! setBound -/

@[simp] theorem setBound_cfg (h : Word) (s : State) : (setBound h s).cfg = s.cfg := rfl
@[simp] theorem setBound_port (h : Word) (s : State) : (setBound h s).port = s.port := rfl
@[simp] theorem setBound_bus (h : Word) (s : State) : (setBound h s).bus = s.bus := rfl
@[simp] theorem setBound_chip (h : Word) (s : State) : (setBound h s).chip = s.chip := rfl
@[simp] theorem setBound_env (h : Word) (s : State) : (setBound h s).env = s.env := rfl
@[simp] theorem setBound_trace (h : Word) (s : State) : (setBound h s).trace = s.trace := rfl
@[simp] theorem setBound_bound (h : Word) (s : State) : (setBound h s).reg.bound = true := rfl
@[simp] theorem setBound_handle (h : Word) (s : State) : (setBound h s).reg.handle = h := rfl
@[simp] theorem setBound_phase (h : Word) (s : State) : (setBound h s).reg.phase = s.reg.phase := rfl
@[simp] theorem setBound_op (h : Word) (s : State) : (setBound h s).reg.op = s.reg.op := rfl
@[simp] theorem setBound_arg0 (h : Word) (s : State) : (setBound h s).reg.arg0 = s.reg.arg0 := rfl
@[simp] theorem setBound_arg1 (h : Word) (s : State) : (setBound h s).reg.arg1 = s.reg.arg1 := rfl
@[simp] theorem setBound_sr (h : Word) (s : State) : (setBound h s).reg.sr = s.reg.sr := rfl
@[simp] theorem setBound_polls (h : Word) (s : State) : (setBound h s).reg.polls = s.reg.polls := rfl
@[simp] theorem setBound_resp (h : Word) (s : State) : (setBound h s).reg.resp = s.reg.resp := rfl

/-! respond -/

@[simp] theorem respond_cfg (c : ResultCode) (p : Phase) (v : BitVec 24) (d : List Byte) (s : State) : (respond c p v d s).cfg = s.cfg := rfl
@[simp] theorem respond_port (c : ResultCode) (p : Phase) (v : BitVec 24) (d : List Byte) (s : State) : (respond c p v d s).port = { s.port with stream := [] } := rfl
@[simp] theorem respond_bus (c : ResultCode) (p : Phase) (v : BitVec 24) (d : List Byte) (s : State) : (respond c p v d s).bus = s.bus := rfl
@[simp] theorem respond_chip (c : ResultCode) (p : Phase) (v : BitVec 24) (d : List Byte) (s : State) : (respond c p v d s).chip = s.chip := rfl
@[simp] theorem respond_env (c : ResultCode) (p : Phase) (v : BitVec 24) (d : List Byte) (s : State) : (respond c p v d s).env = s.env := rfl
@[simp] theorem respond_trace (c : ResultCode) (p : Phase) (v : BitVec 24) (d : List Byte) (s : State) : (respond c p v d s).trace = .rsp ⟨c, p, v, d⟩ :: s.trace := rfl
@[simp] theorem respond_bound (c : ResultCode) (p : Phase) (v : BitVec 24) (d : List Byte) (s : State) : (respond c p v d s).reg.bound = s.reg.bound := rfl
@[simp] theorem respond_handle (c : ResultCode) (p : Phase) (v : BitVec 24) (d : List Byte) (s : State) : (respond c p v d s).reg.handle = s.reg.handle := rfl
@[simp] theorem respond_phase (c : ResultCode) (p : Phase) (v : BitVec 24) (d : List Byte) (s : State) : (respond c p v d s).reg.phase = .idle := rfl
@[simp] theorem respond_op (c : ResultCode) (p : Phase) (v : BitVec 24) (d : List Byte) (s : State) : (respond c p v d s).reg.op = s.reg.op := rfl
@[simp] theorem respond_arg0 (c : ResultCode) (p : Phase) (v : BitVec 24) (d : List Byte) (s : State) : (respond c p v d s).reg.arg0 = s.reg.arg0 := rfl
@[simp] theorem respond_arg1 (c : ResultCode) (p : Phase) (v : BitVec 24) (d : List Byte) (s : State) : (respond c p v d s).reg.arg1 = s.reg.arg1 := rfl
@[simp] theorem respond_sr (c : ResultCode) (p : Phase) (v : BitVec 24) (d : List Byte) (s : State) : (respond c p v d s).reg.sr = s.reg.sr := rfl
@[simp] theorem respond_polls (c : ResultCode) (p : Phase) (v : BitVec 24) (d : List Byte) (s : State) : (respond c p v d s).reg.polls = s.reg.polls := rfl
@[simp] theorem respond_resp (c : ResultCode) (p : Phase) (v : BitVec 24) (d : List Byte) (s : State) : (respond c p v d s).reg.resp = some ⟨c, p, v, d⟩ := rfl

/-! latch -/

@[simp] theorem latch_cfg (o : BitVec 4) (x y : Word) (d : List Byte) (s : State) : (latch o x y d s).cfg = s.cfg := rfl
@[simp] theorem latch_port (o : BitVec 4) (x y : Word) (d : List Byte) (s : State) : (latch o x y d s).port = { s.port with stream := d } := rfl
@[simp] theorem latch_bus (o : BitVec 4) (x y : Word) (d : List Byte) (s : State) : (latch o x y d s).bus = s.bus := rfl
@[simp] theorem latch_chip (o : BitVec 4) (x y : Word) (d : List Byte) (s : State) : (latch o x y d s).chip = s.chip := rfl
@[simp] theorem latch_env (o : BitVec 4) (x y : Word) (d : List Byte) (s : State) : (latch o x y d s).env = s.env := rfl
@[simp] theorem latch_trace (o : BitVec 4) (x y : Word) (d : List Byte) (s : State) : (latch o x y d s).trace = .req o x y d :: s.trace := rfl
@[simp] theorem latch_bound (o : BitVec 4) (x y : Word) (d : List Byte) (s : State) : (latch o x y d s).reg.bound = s.reg.bound := rfl
@[simp] theorem latch_handle (o : BitVec 4) (x y : Word) (d : List Byte) (s : State) : (latch o x y d s).reg.handle = s.reg.handle := rfl
@[simp] theorem latch_phase (o : BitVec 4) (x y : Word) (d : List Byte) (s : State) : (latch o x y d s).reg.phase = s.reg.phase := rfl
@[simp] theorem latch_op (o : BitVec 4) (x y : Word) (d : List Byte) (s : State) : (latch o x y d s).reg.op = o := rfl
@[simp] theorem latch_arg0 (o : BitVec 4) (x y : Word) (d : List Byte) (s : State) : (latch o x y d s).reg.arg0 = x := rfl
@[simp] theorem latch_arg1 (o : BitVec 4) (x y : Word) (d : List Byte) (s : State) : (latch o x y d s).reg.arg1 = y := rfl
@[simp] theorem latch_sr (o : BitVec 4) (x y : Word) (d : List Byte) (s : State) : (latch o x y d s).reg.sr = s.reg.sr := rfl
@[simp] theorem latch_polls (o : BitVec 4) (x y : Word) (d : List Byte) (s : State) : (latch o x y d s).reg.polls = s.reg.polls := rfl
@[simp] theorem latch_resp (o : BitVec 4) (x y : Word) (d : List Byte) (s : State) : (latch o x y d s).reg.resp = s.reg.resp := rfl

/-! answered -/

@[simp] theorem State.answered_cfg (s : State) : (s.answered).cfg = s.cfg := rfl
@[simp] theorem State.answered_reg (s : State) : (s.answered).reg = s.reg := rfl
@[simp] theorem State.answered_port (s : State) : (s.answered).port = s.port := rfl
@[simp] theorem State.answered_bus (s : State) : (s.answered).bus = s.bus := rfl
@[simp] theorem State.answered_chip (s : State) : (s.answered).chip = s.chip := rfl
@[simp] theorem State.answered_env (s : State) : (s.answered).env = { s.env with answers := s.env.answers.tail, drawn := s.env.drawn + 1 } := rfl
@[simp] theorem State.answered_trace (s : State) : (s.answered).trace = s.trace := rfl

/-! moved -/

@[simp] theorem State.moved_cfg (s : State) : (s.moved).cfg = s.cfg := rfl
@[simp] theorem State.moved_reg (s : State) : (s.moved).reg = s.reg := rfl
@[simp] theorem State.moved_port (s : State) : (s.moved).port = s.port := rfl
@[simp] theorem State.moved_bus (s : State) : (s.moved).bus = s.bus := rfl
@[simp] theorem State.moved_chip (s : State) : (s.moved).chip = s.chip := rfl
@[simp] theorem State.moved_env (s : State) : (s.moved).env = { s.env with sched := s.env.sched.tail, drawn := s.env.drawn + 1 } := rfl
@[simp] theorem State.moved_trace (s : State) : (s.moved).trace = s.trace := rfl

/-! takeResponse -/

@[simp] theorem takeResponse_cfg (s : State) : (takeResponse s).cfg = s.cfg := rfl
@[simp] theorem takeResponse_port (s : State) : (takeResponse s).port = s.port := rfl
@[simp] theorem takeResponse_bus (s : State) : (takeResponse s).bus = s.bus := rfl
@[simp] theorem takeResponse_chip (s : State) : (takeResponse s).chip = s.chip := rfl
@[simp] theorem takeResponse_env (s : State) : (takeResponse s).env = s.env := rfl
@[simp] theorem takeResponse_trace (s : State) : (takeResponse s).trace = s.trace := rfl
@[simp] theorem takeResponse_bound (s : State) : (takeResponse s).reg.bound = s.reg.bound := rfl
@[simp] theorem takeResponse_handle (s : State) : (takeResponse s).reg.handle = s.reg.handle := rfl
@[simp] theorem takeResponse_phase (s : State) : (takeResponse s).reg.phase = s.reg.phase := rfl
@[simp] theorem takeResponse_op (s : State) : (takeResponse s).reg.op = s.reg.op := rfl
@[simp] theorem takeResponse_arg0 (s : State) : (takeResponse s).reg.arg0 = s.reg.arg0 := rfl
@[simp] theorem takeResponse_arg1 (s : State) : (takeResponse s).reg.arg1 = s.reg.arg1 := rfl
@[simp] theorem takeResponse_sr (s : State) : (takeResponse s).reg.sr = s.reg.sr := rfl
@[simp] theorem takeResponse_polls (s : State) : (takeResponse s).reg.polls = s.reg.polls := rfl
@[simp] theorem takeResponse_resp (s : State) : (takeResponse s).reg.resp = none := rfl

/-! putRequest -/

@[simp] theorem putRequest_cfg (r : Request) (s : State) : (putRequest r s).cfg = s.cfg := rfl
@[simp] theorem putRequest_reg (r : Request) (s : State) : (putRequest r s).reg = s.reg := rfl
@[simp] theorem putRequest_port (r : Request) (s : State) : (putRequest r s).port = { s.port with waiting := s.port.waiting ++ [r] } := rfl
@[simp] theorem putRequest_bus (r : Request) (s : State) : (putRequest r s).bus = s.bus := rfl
@[simp] theorem putRequest_chip (r : Request) (s : State) : (putRequest r s).chip = s.chip := rfl
@[simp] theorem putRequest_env (r : Request) (s : State) : (putRequest r s).env = s.env := rfl
@[simp] theorem putRequest_trace (r : Request) (s : State) : (putRequest r s).trace = s.trace := rfl

/-! popRequest -/

@[simp] theorem popRequest_cfg (s : State) : (popRequest s).cfg = s.cfg := rfl
@[simp] theorem popRequest_reg (s : State) : (popRequest s).reg = s.reg := rfl
@[simp] theorem popRequest_port (s : State) : (popRequest s).port = { s.port with waiting := s.port.waiting.tail } := rfl
@[simp] theorem popRequest_bus (s : State) : (popRequest s).bus = s.bus := rfl
@[simp] theorem popRequest_chip (s : State) : (popRequest s).chip = s.chip := rfl
@[simp] theorem popRequest_env (s : State) : (popRequest s).env = s.env := rfl
@[simp] theorem popRequest_trace (s : State) : (popRequest s).trace = s.trace := rfl

/-! onChip -/

@[simp] theorem State.onChip_cfg (s : State) (f : Params → Chip → Env → ChipOut) : (s.onChip f).cfg = s.cfg := rfl
@[simp] theorem State.onChip_reg (s : State) (f : Params → Chip → Env → ChipOut) : (s.onChip f).reg = s.reg := rfl
@[simp] theorem State.onChip_port (s : State) (f : Params → Chip → Env → ChipOut) : (s.onChip f).port = s.port := rfl
@[simp] theorem State.onChip_bus (s : State) (f : Params → Chip → Env → ChipOut) : (s.onChip f).bus = { s.bus with rx := (f s.cfg s.chip s.env).rx } := rfl
@[simp] theorem State.onChip_chip (s : State) (f : Params → Chip → Env → ChipOut) : (s.onChip f).chip = (f s.cfg s.chip s.env).chip := rfl
@[simp] theorem State.onChip_env (s : State) (f : Params → Chip → Env → ChipOut) : (s.onChip f).env = (f s.cfg s.chip s.env).env := rfl
@[simp] theorem State.onChip_trace (s : State) (f : Params → Chip → Env → ChipOut) : (s.onChip f).trace = s.trace := rfl

/-! completeStep -/

@[simp] theorem completeStep_cfg (s : State) : (completeStep s).cfg = s.cfg := rfl
@[simp] theorem completeStep_reg (s : State) : (completeStep s).reg = s.reg := rfl
@[simp] theorem completeStep_port (s : State) : (completeStep s).port = s.port := rfl
@[simp] theorem completeStep_bus (s : State) : (completeStep s).bus = s.bus := rfl
@[simp] theorem completeStep_chip (s : State) : (completeStep s).chip = (chipComplete s.cfg s.chip s.env).1 := rfl
@[simp] theorem completeStep_env (s : State) : (completeStep s).env = (chipComplete s.cfg s.chip s.env).2 := rfl
@[simp] theorem completeStep_trace (s : State) : (completeStep s).trace = s.trace := rfl

/-! The chip-select lines -/

@[simp] theorem Bus.setLine_target (b : Bus) (h : Nat) (f : Option OpenFrame) : (b.setLine h f).target = b.target := by
  cases f <;> rfl

@[simp] theorem Bus.setLine_rx (b : Bus) (h : Nat) (f : Option OpenFrame) : (b.setLine h f).rx = b.rx := by
  cases f <;> rfl

@[simp] theorem Bus.line_setLine_same (b : Bus) (h : Nat) (f : Option OpenFrame) : (b.setLine h f).line h = f := by
  cases f
  · exact lookupCell_remove_same h b.lines
  · exact lookupCell_insert_same h _ b.lines

theorem Bus.line_setLine_other {h k : Nat} (hk : k ≠ h) (b : Bus) (f : Option OpenFrame) :
    (b.setLine h f).line k = b.line k := by
  cases f
  · exact lookupCell_remove_other hk b.lines
  · exact lookupCell_insert_other _ hk b.lines

theorem Bus.line_setLine (b : Bus) (h k : Nat) (f : Option OpenFrame) :
    (b.setLine h f).line k = if k = h then f else b.line k := by
  split
  · rename_i hk; rw [hk]; exact Bus.line_setLine_same b h f
  · rename_i hk; exact Bus.line_setLine_other hk b f

@[simp] theorem Bus.frame_setLine (b : Bus) (f : Option OpenFrame) : (b.setLine b.target.toNat f).frame = f := by
  simp [Bus.frame]

/-- The list of lines stays in its one form. -/
theorem Bus.setLine_rise (b : Bus) (h : Nat) (f : Option OpenFrame) (hb : cellsRise 0 b.lines) :
    cellsRise 0 (b.setLine h f).lines := by
  cases f
  · exact cellsRise_remove h hb
  · exact cellsRise_insert h _ hb (Nat.zero_le h)

@[simp] theorem Bus.line_target (b : Bus) (w : Word) (h : Nat) : ({ b with target := w } : Bus).line h = b.line h := rfl

@[simp] theorem Bus.line_rx (b : Bus) (r : List Byte) (h : Nat) : ({ b with rx := r } : Bus).line h = b.line h := rfl

@[simp] theorem Bus.frame_rx (b : Bus) (r : List Byte) : ({ b with rx := r } : Bus).frame = b.frame := rfl

/-! raiseError, lineUnknown, resetBlock -/

@[simp] theorem raiseError_eq (c : ResultCode) (p : Phase) (v : BitVec 24) (s : State) :
    raiseError c p v s = respond c p v [] s := rfl
@[simp] theorem lineUnknown_cfg (s : State) : (lineUnknown s).cfg = s.cfg := rfl
@[simp] theorem lineUnknown_reg (s : State) : (lineUnknown s).reg = s.reg := rfl
@[simp] theorem lineUnknown_port (s : State) : (lineUnknown s).port = s.port := rfl
@[simp] theorem lineUnknown_trace (s : State) : (lineUnknown s).trace = s.trace := rfl
@[simp] theorem lineUnknown_target (s : State) : (lineUnknown s).bus.target = s.bus.target :=
  Bus.setLine_target _ _ _
@[simp] theorem lineUnknown_rx (s : State) : (lineUnknown s).bus.rx = s.bus.rx := Bus.setLine_rx _ _ _
@[simp] theorem lineUnknown_hazard (s : State) : (lineUnknown s).chip.hazard = s.chip.hazard := rfl
@[simp] theorem resetBlock_cfg (s : State) : (resetBlock s).cfg = s.cfg := rfl
@[simp] theorem resetBlock_waiting (s : State) : (resetBlock s).port.waiting = s.port.waiting := rfl
@[simp] theorem resetBlock_stream (s : State) : (resetBlock s).port.stream = [] := rfl
@[simp] theorem resetBlock_trace (s : State) : (resetBlock s).trace = s.trace := rfl
@[simp] theorem resetBlock_bound (s : State) : (resetBlock s).reg.bound = false := rfl
@[simp] theorem resetBlock_phase (s : State) : (resetBlock s).reg.phase = .idle := rfl
@[simp] theorem resetBlock_resp (s : State) : (resetBlock s).reg.resp = none := rfl

/-! Open frames -/

@[simp] theorem OpenFrame.start_known (b : Bool) (bs : List Byte) : (OpenFrame.start b bs).known = true := rfl
@[simp] theorem OpenFrame.start_sawBusy (b : Bool) (bs : List Byte) : (OpenFrame.start b bs).sawBusy = b := rfl
@[simp] theorem OpenFrame.start_sent (b : Bool) (bs : List Byte) : (OpenFrame.start b bs).sent = bs := rfl
@[simp] theorem OpenFrame.start_nIn (b : Bool) (bs : List Byte) : (OpenFrame.start b bs).nIn = 0 := rfl
@[simp] theorem OpenFrame.start_mixed (b : Bool) (bs : List Byte) : (OpenFrame.start b bs).mixed = false := rfl
@[simp] theorem OpenFrame.push_known (f : OpenFrame) (bs : List Byte) : (f.push bs).known = f.known := rfl
@[simp] theorem OpenFrame.push_sawBusy (f : OpenFrame) (bs : List Byte) : (f.push bs).sawBusy = f.sawBusy := rfl
@[simp] theorem OpenFrame.push_sent (f : OpenFrame) (bs : List Byte) : (f.push bs).sent = f.sent ++ bs := rfl
@[simp] theorem OpenFrame.push_nIn (f : OpenFrame) (bs : List Byte) : (f.push bs).nIn = f.nIn := rfl

/-- R97: where no byte has come in, bytes out keep the shape of a frame. -/
theorem OpenFrame.push_mixed {f : OpenFrame} (hn : f.nIn = 0) (bs : List Byte) : (f.push bs).mixed = f.mixed := by
  simp [OpenFrame.push, hn]

/-! shiftOut, endFrame, commandSeen -/

@[simp] theorem shiftOut_cfg (bs : List Byte) (s : State) : (shiftOut bs s).cfg = s.cfg := rfl
@[simp] theorem shiftOut_reg (bs : List Byte) (s : State) : (shiftOut bs s).reg = s.reg := rfl
@[simp] theorem shiftOut_port (bs : List Byte) (s : State) : (shiftOut bs s).port = s.port := rfl
@[simp] theorem shiftOut_chip (bs : List Byte) (s : State) : (shiftOut bs s).chip = s.chip := rfl
@[simp] theorem shiftOut_env (bs : List Byte) (s : State) : (shiftOut bs s).env = s.env := rfl
@[simp] theorem shiftOut_trace (bs : List Byte) (s : State) : (shiftOut bs s).trace = s.trace := rfl
@[simp] theorem shiftOut_target (bs : List Byte) (s : State) : (shiftOut bs s).bus.target = s.bus.target :=
  Bus.setLine_target _ _ _

@[simp] theorem endFrame_cfg (n : Nat) (s : State) : (endFrame n s).cfg = s.cfg := by
  unfold endFrame; split
  · rfl
  · dsimp only; split <;> rfl

@[simp] theorem endFrame_reg (n : Nat) (s : State) : (endFrame n s).reg = s.reg := by
  unfold endFrame; split
  · rfl
  · dsimp only; split <;> rfl

@[simp] theorem endFrame_port (n : Nat) (s : State) : (endFrame n s).port = s.port := by
  unfold endFrame; split
  · rfl
  · dsimp only; split <;> rfl

@[simp] theorem endFrame_trace (n : Nat) (s : State) : (endFrame n s).trace = s.trace := by
  unfold endFrame; split
  · rfl
  · dsimp only; split <;> rfl

@[simp] theorem shiftOut_rx (bs : List Byte) (s : State) : (shiftOut bs s).bus.rx = s.bus.rx := Bus.setLine_rx _ _ _

/-- R18, R120: bytes go out on the target slot's line alone. -/
theorem shiftOut_line {h : Nat} {s : State} (hh : h ≠ s.bus.target.toNat) (bs : List Byte) :
    (shiftOut bs s).bus.line h = s.bus.line h := Bus.line_setLine_other hh _ _

/-- R18, R121: a frame ends on the target slot's line alone. -/
theorem endFrame_line {h : Nat} {s : State} (hh : h ≠ s.bus.target.toNat) (n : Nat) :
    (endFrame n s).bus.line h = s.bus.line h := by
  unfold endFrame; split
  · rfl
  · dsimp only; split <;> exact Bus.line_setLine_other hh _ _

/-- The lines stay in their one form. -/
theorem shiftOut_rise {s : State} (h : cellsRise 0 s.bus.lines) (bs : List Byte) :
    cellsRise 0 (shiftOut bs s).bus.lines := Bus.setLine_rise _ _ _ h

theorem endFrame_rise {s : State} (h : cellsRise 0 s.bus.lines) (n : Nat) : cellsRise 0 (endFrame n s).bus.lines := by
  unfold endFrame; split
  · exact h
  · dsimp only; split <;> exact Bus.setLine_rise _ _ _ h

@[simp] theorem endFrame_target (n : Nat) (s : State) : (endFrame n s).bus.target = s.bus.target := by
  unfold endFrame; split
  · rfl
  · dsimp only; split <;> exact Bus.setLine_target _ _ _

/-- R121: a frame that is ended leaves the chip select deasserted. -/
@[simp] theorem endFrame_frame (n : Nat) (s : State) : (endFrame n s).bus.frame = none := by
  unfold endFrame; split
  · assumption
  · dsimp only; split <;> exact Bus.frame_setLine _ _

@[simp] theorem commandSeen_cfg (s : State) : (commandSeen s).cfg = s.cfg := by
  unfold commandSeen; repeat' split
  all_goals rfl

@[simp] theorem commandSeen_reg (s : State) : (commandSeen s).reg = s.reg := by
  unfold commandSeen; repeat' split
  all_goals rfl

@[simp] theorem commandSeen_port (s : State) : (commandSeen s).port = s.port := by
  unfold commandSeen; repeat' split
  all_goals rfl

@[simp] theorem commandSeen_bus (s : State) : (commandSeen s).bus = s.bus := by
  unfold commandSeen; repeat' split
  all_goals rfl

@[simp] theorem commandSeen_env (s : State) : (commandSeen s).env = s.env := by
  unfold commandSeen; repeat' split
  all_goals rfl

@[simp] theorem commandSeen_trace (s : State) : (commandSeen s).trace = s.trace := by
  unfold commandSeen; repeat' split
  all_goals rfl

end Sys2Proof.Machine
end

