-- ==== Sys2Proof/Laws/Memory.lean ====
section
/-! SUPPORT. The array: a read after a write, and every operation on it keeps the canonical form and stays inside the
array. -/
namespace Sys2Proof.Machine

/-! Reads and writes -/

theorem Memory.read_write_same (m : Memory) (t : Nat) (v : Byte) : (m.write t v).read t = v := by
  unfold Memory.write
  split
  · rename_i hv; simp [Memory.read, hv]
  · simp [Memory.read]

theorem Memory.read_write_other {t u : Nat} (h : u ≠ t) (m : Memory) (v : Byte) :
    (m.write t v).read u = m.read u := by
  unfold Memory.write
  split <;> simp [Memory.read, lookupCell_remove_other h, lookupCell_insert_other v h]

@[simp] theorem Memory.write_base (m : Memory) (t : Nat) (v : Byte) : (m.write t v).base = m.base := by
  unfold Memory.write; split <;> rfl

theorem Memory.wf_write {m : Memory} (h : m.wf) (t : Nat) (v : Byte) : (m.write t v).wf := by
  simp only [Memory.wf, Bool.and_eq_true] at h
  unfold Memory.write
  split
  · simp only [Memory.wf, Bool.and_eq_true]; exact ⟨cellsRise_remove t h.1, all_removeCell _ t h.2⟩
  · rename_i hv
    simp only [Memory.wf, Bool.and_eq_true]
    exact ⟨cellsRise_insert t v h.1 (by omega), all_insertCell _ t v (by simpa using hv) h.2⟩

theorem Memory.below_write {m : Memory} {size t : Nat} (h : m.below size) (ht : t < size) (v : Byte) :
    (m.write t v).below size := by
  unfold Memory.write
  split
  · exact all_removeCell _ t h
  · exact all_insertCell _ t v (by simpa using ht) h

theorem Memory.wf_fill (lo : Nat) (v : Byte) : ∀ (n : Nat) {m : Memory}, m.wf → (m.fill lo v n).wf
  | 0, _, h => h
  | n + 1, _, h => Memory.wf_fill lo v n (Memory.wf_write h _ _)

theorem Memory.below_fill {size : Nat} (lo : Nat) (v : Byte) :
    ∀ (n : Nat) {m : Memory}, lo + n ≤ size → m.below size → (m.fill lo v n).below size
  | 0, _, _, h => h
  | n + 1, _, hn, h => Memory.below_fill lo v n (by omega) (Memory.below_write h (by omega) v)

theorem Memory.read_fill_outside (lo : Nat) (v : Byte) {t : Nat} :
    ∀ (n : Nat) (m : Memory), (t < lo ∨ lo + n ≤ t) → (m.fill lo v n).read t = m.read t
  | 0, _, _ => rfl
  | n + 1, m, h => by
    rw [Memory.fill, Memory.read_fill_outside lo v n _ (by omega), Memory.read_write_other (by omega)]

theorem Memory.read_fill_inside (lo : Nat) (v : Byte) {t : Nat} :
    ∀ (n : Nat) (m : Memory), lo ≤ t → t < lo + n → (m.fill lo v n).read t = v
  | 0, _, _, h => by omega
  | n + 1, m, h1, h2 => by
    rw [Memory.fill]
    by_cases h : t < lo + n
    · exact Memory.read_fill_inside lo v n _ h1 h
    · have : t = lo + n := by omega
      subst this
      rw [Memory.read_fill_outside lo v n _ (by omega), Memory.read_write_same]

/-! Completion -/

theorem programBytes_wf (size : Nat) :
    ∀ (d : List Byte) (t : Nat) {m : Memory} (e : Env), m.wf → (programBytes size d t m e).1.wf
  | [], _, _, _, h => h
  | b :: bs, t, m, e, h => by
    unfold programBytes
    split
    · split
      · exact programBytes_wf size bs (t + 1) e (Memory.wf_write h _ _)
      · exact programBytes_wf size bs (t + 1) _ (Memory.wf_write h _ _)
    · exact programBytes_wf size bs (t + 1) e h

theorem programBytes_below (size : Nat) :
    ∀ (d : List Byte) (t : Nat) {m : Memory} (e : Env), m.below size → (programBytes size d t m e).1.below size
  | [], _, _, _, h => h
  | b :: bs, t, m, e, h => by
    unfold programBytes
    split
    · rename_i ht
      split
      · exact programBytes_below size bs (t + 1) e (Memory.below_write h ht _)
      · exact programBytes_below size bs (t + 1) _ (Memory.below_write h ht _)
    · exact programBytes_below size bs (t + 1) e h

theorem programBytes_outside (size : Nat) {u : Nat} :
    ∀ (d : List Byte) (t : Nat) (m : Memory) (e : Env), (u < t ∨ t + d.length ≤ u) →
      (programBytes size d t m e).1.read u = m.read u
  | [], _, _, _, _ => rfl
  | b :: bs, t, m, e, h => by
    simp only [List.length_cons] at h
    unfold programBytes
    split
    · split <;>
        rw [programBytes_outside size bs (t + 1) _ _ (by omega), Memory.read_write_other (by omega)]
    · exact programBytes_outside size bs (t + 1) _ _ (by omega)

/-- R259: bytes that held 0xFF, inside the array, hold the new byte. -/
theorem programBytes_erased (size : Nat) :
    ∀ (d : List Byte) (t : Nat) (m : Memory) (e : Env),
      ∀ i (hi : i < d.length), t + i < size → m.read (t + i) = 0xFF#8 → (programBytes size d t m e).1.read (t + i) = d[i]
  | [], _, _, _, i, hi, _, _ => by simp at hi
  | b :: bs, t, m, e, i, hi, hs, hf => by
    simp only [List.length_cons] at hi
    unfold programBytes
    rw [if_pos (by omega)]
    cases i with
    | zero =>
      simp only [Nat.add_zero] at hf ⊢
      rw [if_pos hf, programBytes_outside size bs (t + 1) _ _ (by omega), Memory.read_write_same]
      rfl
    | succ j =>
      have ha : t + (j + 1) = t + 1 + j := by omega
      rw [ha] at hf hs ⊢
      simp only [List.getElem_cons_succ]
      split
      · exact programBytes_erased size bs (t + 1) _ _ j (by omega) hs
          (by rw [Memory.read_write_other (by omega)]; exact hf)
      · exact programBytes_erased size bs (t + 1) _ _ j (by omega) hs
          (by rw [Memory.read_write_other (by omega)]; exact hf)

theorem drawRange_wf (size : Nat) :
    ∀ (n t : Nat) {m : Memory} (e : Env), m.wf → (drawRange size n t m e).1.wf
  | 0, _, _, _, h => h
  | n + 1, t, m, e, h => by
    unfold drawRange
    split
    · exact drawRange_wf size n (t + 1) _ (Memory.wf_write h _ _)
    · exact drawRange_wf size n (t + 1) _ h

theorem drawRange_below (size : Nat) :
    ∀ (n t : Nat) {m : Memory} (e : Env), m.below size → (drawRange size n t m e).1.below size
  | 0, _, _, _, h => h
  | n + 1, t, m, e, h => by
    unfold drawRange
    split
    · rename_i ht; exact drawRange_below size n (t + 1) _ (Memory.below_write h ht _)
    · exact drawRange_below size n (t + 1) _ h

theorem drawRange_outside (size : Nat) {u : Nat} :
    ∀ (n t : Nat) (m : Memory) (e : Env), (u < t ∨ t + n ≤ u) → (drawRange size n t m e).1.read u = m.read u
  | 0, _, _, _, _ => rfl
  | n + 1, t, m, e, h => by
    unfold drawRange
    split
    · rw [drawRange_outside size n (t + 1) _ _ (by omega), Memory.read_write_other (by omega)]
    · exact drawRange_outside size n (t + 1) _ _ (by omega)

theorem completedMemory_wf (p : Params) {m : Memory} (e : Env) (b : Pending) (h : m.wf) :
    (completedMemory p m e b).1.wf := by
  cases b with
  | prog a d =>
    simp only [completedMemory]
    split
    · exact programBytes_wf _ _ _ _ h
    · exact drawRange_wf _ _ _ _ h
  | erase base => exact Memory.wf_fill _ _ _ h

theorem completedMemory_below (p : Params) {m : Memory} (e : Env) (b : Pending) (h : m.below p.flashSize) :
    (completedMemory p m e b).1.below p.flashSize := by
  cases b with
  | prog a d =>
    simp only [completedMemory]
    split
    · exact programBytes_below _ _ _ _ h
    · exact drawRange_below _ _ _ _ h
  | erase base =>
    simp only [completedMemory]
    by_cases hb : base ≤ p.flashSize
    · exact Memory.below_fill _ _ _ (by omega) h
    · have : min p.sectorSize (p.flashSize - base) = 0 := by omega
      rw [this]; exact h

/-! Lists of drawn bytes -/

@[simp] theorem drawBytes_length : ∀ (n : Nat) (e : Env), (drawBytes n e).1.length = n
  | 0, _ => rfl
  | n + 1, e => by simp [drawBytes, drawBytes_length n e.next]

/-- R130: a read delivers exactly `n` bytes. -/
@[simp] theorem fitBytes_length : ∀ (n : Nat) (bs : List Byte) (e : Env), (fitBytes n bs e).1.length = n
  | 0, _, _ => rfl
  | n + 1, [], e => by simp [fitBytes, fitBytes_length n [] e.next]
  | n + 1, b :: bs, e => by simp [fitBytes, fitBytes_length n bs e]

/-- A list of the right length is delivered unchanged, and no drawn value is used. -/
theorem fitBytes_exact : ∀ (bs : List Byte) (e : Env), fitBytes bs.length bs e = (bs, e)
  | [], _ => rfl
  | b :: bs, e => by simp [fitBytes, fitBytes_exact bs e]

@[simp] theorem readBytes_length (p : Params) (m : Memory) (a : Nat) :
    ∀ (n i : Nat) (e : Env), (readBytes p m a n i e).1.length = n
  | 0, _, _ => rfl
  | n + 1, i, e => by
    unfold readBytes
    split <;> simp [readBytes_length p m a n]

/-- R256: byte `j` of a read is the byte of its target. -/
theorem readBytes_getElem (p : Params) (m : Memory) (a : Nat) : ∀ (n i : Nat) (e : Env) (j x : Nat), j < n →
    readTarget p a (i + j) = some x → (readBytes p m a n i e).1[j]? = some (m.read x)
  | 0, _, _, _, _, h, _ => absurd h (by omega)
  | n + 1, i, e, 0, x, _, hx => by rw [Nat.add_zero] at hx; simp [readBytes, hx]
  | n + 1, i, e, j + 1, x, h, hx => by
    rw [show i + (j + 1) = i + 1 + j by omega] at hx
    unfold readBytes
    split <;> simpa using readBytes_getElem p m a n (i + 1) _ j x (by omega) hx

/-- R256: a wrap table's first entry counts. -/
theorem lookupWrap_eq (k : Nat × Nat) :
    ∀ l : List ((Nat × Nat) × Nat), lookupWrap k l = (l.find? fun w => w.1 == k).map (·.2)
  | [] => rfl
  | (j, t) :: l => by
    unfold lookupWrap
    by_cases h : k = j
    · simp [h]
    · have h' : (j == k) = false := by simpa using fun e => h e.symm
      simp [h, h', lookupWrap_eq k l]

/-- R256: inside the array and without a wrap table the bytes are those of consecutive addresses. -/
theorem readBytes_inside {p : Params} (hw : p.readWrap = none) (m : Memory) (a : Nat) :
    ∀ (n i : Nat) (e : Env), a + i + n ≤ p.flashSize →
      readBytes p m a n i e = ((List.range' (a + i) n).map m.read, e)
  | 0, _, _, _ => rfl
  | n + 1, i, e, h => by
    have ht : readTarget p a i = some (a + i) := by simp only [readTarget, hw]; rw [if_pos (by omega)]
    simp only [readBytes, ht, List.range'_succ, List.map_cons]
    rw [readBytes_inside hw m a n (i + 1) e (by omega)]
    rfl

end Sys2Proof.Machine
end

