-- ==== Sys2Proof/Laws/Chip.lean ====
section
/-! SUPPORT. Everything a chip operation can do: one lemma per operation, said in one record. -/
namespace Sys2Proof.Machine

/-- Drawing a value leaves the chosen moves and answers alone. -/
structure Env.Keeps (e e' : Env) : Prop where
  sched   : e'.sched = e.sched
  answers : e'.answers = e.answers

theorem Env.Keeps.rfl (e : Env) : e.Keeps e := ⟨Eq.refl _, Eq.refl _⟩

theorem Env.Keeps.trans {e f g : Env} (h : e.Keeps f) (k : f.Keeps g) : e.Keeps g :=
  ⟨k.sched.trans h.sched, k.answers.trans h.answers⟩

theorem Env.keeps_next (e : Env) : e.Keeps e.next := ⟨Eq.refl _, Eq.refl _⟩

theorem drawBytes_keeps : ∀ (n : Nat) (e : Env), e.Keeps (drawBytes n e).2
  | 0, e => .rfl e
  | n + 1, e => (Env.keeps_next e).trans (drawBytes_keeps n e.next)

theorem fitBytes_keeps : ∀ (n : Nat) (bs : List Byte) (e : Env), e.Keeps (fitBytes n bs e).2
  | 0, _, e => .rfl e
  | n + 1, [], e => (Env.keeps_next e).trans (fitBytes_keeps n [] e.next)
  | n + 1, _ :: bs, e => fitBytes_keeps n bs e

theorem drawPending_keeps (e : Env) : e.Keeps (drawPending e).2 := by
  unfold drawPending
  split
  · exact Env.keeps_next e
  · exact (Env.keeps_next e).trans (Env.keeps_next _)
  · exact (((Env.keeps_next e).trans (Env.keeps_next _)).trans (Env.keeps_next _)).trans (drawBytes_keeps _ _)

theorem readBytes_keeps (p : Params) (m : Memory) (a : Nat) :
    ∀ (n i : Nat) (e : Env), e.Keeps (readBytes p m a n i e).2
  | 0, _, e => .rfl e
  | n + 1, i, e => by
    unfold readBytes
    split
    · exact readBytes_keeps p m a n (i + 1) e
    · exact (Env.keeps_next e).trans (readBytes_keeps p m a n (i + 1) e.next)

theorem programBytes_keeps (size : Nat) :
    ∀ (d : List Byte) (t : Nat) (m : Memory) (e : Env), e.Keeps (programBytes size d t m e).2
  | [], _, _, e => .rfl e
  | b :: bs, t, m, e => by
    unfold programBytes
    split
    · split
      · exact programBytes_keeps size bs _ _ e
      · exact (Env.keeps_next e).trans (programBytes_keeps size bs _ _ _)
    · exact programBytes_keeps size bs _ _ e

theorem drawRange_keeps (size : Nat) :
    ∀ (n t : Nat) (m : Memory) (e : Env), e.Keeps (drawRange size n t m e).2
  | 0, _, _, e => .rfl e
  | n + 1, t, m, e => by
    unfold drawRange
    split
    · exact (Env.keeps_next e).trans (drawRange_keeps size n _ _ _)
    · exact drawRange_keeps size n _ _ e

theorem completedMemory_keeps (p : Params) (m : Memory) (e : Env) (b : Pending) :
    e.Keeps (completedMemory p m e b).2 := by
  cases b with
  | prog a d =>
    simp only [completedMemory]
    split
    · exact programBytes_keeps _ _ _ _ _
    · exact drawRange_keeps _ _ _ _ _
  | erase base => exact .rfl e

theorem chipComplete_keeps (p : Params) (c : Chip) (e : Env) : e.Keeps (chipComplete p c e).2 := by
  unfold chipComplete
  split
  · exact .rfl e
  · exact completedMemory_keeps _ _ _ _

/-- What a frame can do to the chip, whatever the frame: the array stays, or becomes unknown with `hazard` set; `hazard` is
never cleared; the chosen moves and answers stay. -/
structure ChipOut.Legal (c : Chip) (e : Env) (r : ChipOut) : Prop where
  mem    : r.chip.mem = c.mem ∨ (r.chip.mem.cells = [] ∧ r.chip.hazard = true)
  hazard : c.hazard = true → r.chip.hazard = true
  env    : e.Keeps r.env

theorem unknownChip_keeps (c : Chip) (e : Env) : e.Keeps (unknownChip c e).2 :=
  (Env.keeps_next e).trans (drawPending_keeps _)

@[simp] theorem unknownChip_hazard (c : Chip) (e : Env) : (unknownChip c e).1.hazard = c.hazard := rfl

@[simp] theorem unknownChip_cells (c : Chip) (e : Env) : (unknownChip c e).1.mem.cells = [] := rfl

@[simp] theorem hazardOut_hazard (n : Nat) (c : Chip) (e : Env) : (hazardOut n c e).chip.hazard = true := rfl

@[simp] theorem hazardOut_length (n : Nat) (c : Chip) (e : Env) : (hazardOut n c e).rx.length = n := by simp [hazardOut]

theorem hazardOut_legal (n : Nat) (c : Chip) (e : Env) : (hazardOut n c e).Legal c e :=
  ⟨.inr ⟨rfl, rfl⟩, fun _ => rfl, (unknownChip_keeps _ _).trans (drawBytes_keeps _ _)⟩

theorem shownWel_keeps (c : Chip) (e : Env) : e.Keeps (shownWel c e).2 := by
  unfold shownWel
  split
  · exact .rfl e
  · exact Env.keeps_next e

theorem shownOpaque_keeps (p : Params) (e : Env) : e.Keeps (shownOpaque p e).2 := by
  unfold shownOpaque
  split
  · exact .rfl e
  · exact Env.keeps_next e

theorem chipRdsr_legal (p : Params) (c : Chip) (e : Env) : (chipRdsr p c e).Legal c e :=
  ⟨.inl rfl, fun h => h, (shownWel_keeps c e).trans (shownOpaque_keeps p _)⟩

theorem chipWren_legal (c : Chip) (e : Env) : (chipWren c e).Legal c e := by
  unfold chipWren
  split
  · exact hazardOut_legal _ _ _
  · exact ⟨.inl rfl, fun h => h, Env.keeps_next e⟩

theorem chipRead_legal (p : Params) (a : Addr) (n : Nat) (c : Chip) (e : Env) :
    (chipRead p a n c e).Legal c e := by
  unfold chipRead
  split
  · exact hazardOut_legal _ _ _
  · exact ⟨.inl rfl, fun h => h, readBytes_keeps _ _ _ _ _ _⟩

theorem chipRdid_legal (p : Params) (c : Chip) (e : Env) : (chipRdid p c e).Legal c e := by
  unfold chipRdid
  split
  · exact hazardOut_legal _ _ _
  · exact ⟨.inl rfl, fun h => h, .rfl e⟩

theorem chipPp_legal (p : Params) (a : Addr) (d : List Byte) (c : Chip) (e : Env) :
    (chipPp p a d c e).Legal c e := by
  unfold chipPp
  split
  · exact hazardOut_legal _ _ _
  · split
    · exact ⟨.inl rfl, fun h => by simp [h], .rfl e⟩
    · exact hazardOut_legal _ _ _

theorem chipSe_legal (p : Params) (a : Addr) (c : Chip) (e : Env) : (chipSe p a c e).Legal c e := by
  unfold chipSe
  split
  · exact hazardOut_legal _ _ _
  · split
    · exact ⟨.inl rfl, fun h => h, .rfl e⟩
    · exact hazardOut_legal _ _ _

/-- Everything a whole frame can do. -/
theorem chipFrame_legal (p : Params) (f : Frame) (sb : Bool) (c : Chip) (e : Env) :
    (chipFrame p f sb c e).Legal c e := by
  unfold chipFrame
  split
  · exact chipRdsr_legal _ _ _
  · split
    · exact hazardOut_legal _ _ _
    · split
      · exact chipWren_legal _ _
      · exact chipRead_legal _ _ _ _ _
      · exact chipPp_legal _ _ _ _ _
      · exact chipRdid_legal _ _ _
      · exact chipSe_legal _ _ _ _
      · exact hazardOut_legal _ _ _
  · exact hazardOut_legal _ _ _

/-- R252: a read status frame, whenever the chip was busy. -/
@[simp] theorem chipFrame_rdsr (p : Params) (sb : Bool) (c : Chip) (e : Env) :
    chipFrame p ⟨[0x05], 1⟩ sb c e = chipRdsr p c e := rfl

/-- R262: every other frame on a chip that is or was busy sets `hazard`. -/
theorem chipFrame_busy {p : Params} {f : Frame} {sb : Bool} {c : Chip} (e : Env)
    (hb : sb = true ∨ c.busy ≠ none) (hd : decodeFrame p.eraseOpcode f ≠ .ok .rdsr) :
    (chipFrame p f sb c e).chip.hazard = true := by
  unfold chipFrame
  split
  · contradiction
  · split
    · rfl
    · rename_i h
      obtain ⟨b, hb⟩ := Option.ne_none_iff_exists'.1 (hb.resolve_left h)
      split <;> simp [chipWren, chipRead, chipPp, chipRdid, chipSe, hb]
  · rfl

/-- R252: the byte of a read status. -/
theorem chipRdsr_rx (p : Params) (c : Chip) (e : Env) :
    ∃ b, (chipRdsr p c e).rx = [b] ∧ b.getLsbD 0 = c.busy.isSome ∧ (c.busy = none → b.getLsbD 1 = c.wel) ∧
      ∀ o, p.statusOpaque = some o → b.extractLsb' 2 6 = o := by
  have key : ∀ (o : BitVec 6) (w v : Bool), (statusByte o w v).getLsbD 0 = v ∧ (statusByte o w v).getLsbD 1 = w ∧
      (statusByte o w v).extractLsb' 2 6 = o := by decide
  refine ⟨_, rfl, (key _ _ _).1, fun h => ?_, fun o h => ?_⟩
  · rw [(key _ _ _).2.1, shownWel, h]
  · rw [(key _ _ _).2.2, shownOpaque, h]

/-- R97: a frame that decodes has its number of bytes in. -/
theorem chipFrame_length (p : Params) (f : Frame) (sb : Bool) (c : Chip) (e : Env) :
    (chipFrame p f sb c e).rx.length = f.nIn := by
  obtain ⟨bs, n⟩ := f
  unfold chipFrame
  split
  · rename_i h; rw [(decodeFrame_nIn h).1 rfl]; rfl
  · rename_i i hi h
    have hn := decodeFrame_nIn h
    split
    · simp
    · split
      · rw [hn.2.1 rfl]; unfold chipWren; split <;> simp
      · rw [hn.2.2.1 _ _ rfl]; unfold chipRead; split <;> simp
      · rw [hn.2.2.2.1 _ _ rfl]; unfold chipPp; repeat' split
        all_goals simp
      · rw [hn.2.2.2.2.1 rfl]; unfold chipRdid; split <;> simp [identityBytes]
      · rw [hn.2.2.2.2.2 _ rfl]; unfold chipSe; repeat' split
        all_goals simp
      · simp
  · simp

/-- Everything the end of an open frame can do. -/
theorem chipEnds_legal (f : OpenFrame) (n : Nat) (p : Params) (c : Chip) (e : Env) :
    (chipEnds f n p c e).Legal c e := by
  unfold chipEnds
  split
  · exact hazardOut_legal _ _ _
  · exact ⟨(chipFrame_legal p _ f.sawBusy c e).mem, (chipFrame_legal p _ f.sawBusy c e).hazard,
      (chipFrame_legal p _ f.sawBusy c e).env⟩

@[simp] theorem chipEnds_length (f : OpenFrame) (n : Nat) (p : Params) (c : Chip) (e : Env) :
    (chipEnds f n p c e).rx.length = n := by
  unfold chipEnds
  split <;> simp [chipFrame_length]

/-- A frame in which no byte has come in yet is a whole frame at its end. -/
theorem chipEnds_whole {f : OpenFrame} (hn : f.nIn = 0) (hm : f.mixed = false) (n : Nat) (p : Params) (c : Chip)
    (e : Env) : chipEnds f n p c e = chipFrame p ⟨f.sent, n⟩ f.sawBusy c e := by simp [chipEnds, hn, hm]

/-- R268: bytes out after bytes in. -/
theorem chipEnds_mixed {f : OpenFrame} (hm : f.mixed = true) (n : Nat) (p : Params) (c : Chip) (e : Env) :
    (chipEnds f n p c e).chip.hazard = true := by simp [chipEnds, hm]

/-- R261 to R263, R268, R270: the frames that set `hazard`. -/
theorem chipFrame_hazard {p : Params} {f : Frame} {sb : Bool} {c : Chip} (e : Env)
    (h : (∃ x, decodeFrame p.eraseOpcode f = .error x) ∨
      ((sb = true ∨ c.busy ≠ none) ∧ decodeFrame p.eraseOpcode f ≠ .ok .rdsr) ∨
      (∃ a d, decodeFrame p.eraseOpcode f = .ok (.pp a d) ∧
        (c.wel = false ∨ p.flashSize ≤ a.toNat ∨ withinPage p a.toNat d.length = false)) ∨
      ∃ a, decodeFrame p.eraseOpcode f = .ok (.se a) ∧ (c.wel = false ∨ p.flashSize ≤ a.toNat)) :
    (chipFrame p f sb c e).chip.hazard = true := by
  rcases h with ⟨x, h⟩ | ⟨hb, hd⟩ | ⟨a, d, h, hc⟩ | ⟨a, h, hc⟩
  · simp [chipFrame, h]
  · exact chipFrame_busy e hb hd
  · simp only [chipFrame, h]
    split
    · rfl
    · unfold chipPp; split
      · rfl
      · split
        · rename_i hk
          rcases hc with hc | hc | hc
          · simp [hc] at hk
          · omega
          · simp [hc]
        · rfl
  · simp only [chipFrame, h]
    split
    · rfl
    · unfold chipSe; split
      · rfl
      · split
        · rename_i hk
          rcases hc with hc | hc
          · simp [hc] at hk
          · omega
        · rfl

/-- The same at the end of an open frame. -/
theorem chipEnds_hazard {f : OpenFrame} {n : Nat} {p : Params} {c : Chip} (e : Env)
    (h : f.mixed = true ∨ ∀ e, (chipFrame p ⟨f.sent, f.nIn + n⟩ f.sawBusy c e).chip.hazard = true) :
    (chipEnds f n p c e).chip.hazard = true := by
  unfold chipEnds
  split
  · rfl
  · rename_i hm
    exact (h.resolve_left hm) e

theorem drawOut_legal (n : Nat) (c : Chip) (e : Env) :
    (⟨(drawBytes n e).1, c, (drawBytes n e).2⟩ : ChipOut).Legal c e :=
  ⟨.inl rfl, fun h => h, drawBytes_keeps _ _⟩

/-- The array after a legal operation is in canonical form and inside the array, if it was before. -/
theorem ChipOut.Legal.array {c : Chip} {e : Env} {r : ChipOut} (h : r.Legal c e) {size : Nat}
    (hw : c.mem.wf) (hb : c.mem.below size) : r.chip.mem.wf ∧ r.chip.mem.below size := by
  rcases h.mem with hm | ⟨hm, -⟩
  · rw [hm]; exact ⟨hw, hb⟩
  · simp [Memory.wf, Memory.below, hm, cellsRise]

end Sys2Proof.Machine
end

