-- ==== Sys2Proof/Laws/Transport.lean ====
section
/-! SUPPORT. The transport primitives: `try` of each of them, by the transport's answer; what ending a frame and an
unknown line can do. -/
namespace Sys2Proof.Machine

/-! Ending a frame -/

/-- Everything the end of a frame can do to the chip and to the environment. -/
theorem endFrame_legal (n : Nat) (s : State) :
    (⟨(endFrame n s).bus.rx, (endFrame n s).chip, (endFrame n s).env⟩ : ChipOut).Legal s.chip s.env := by
  unfold endFrame
  split
  · exact drawOut_legal n s.chip s.env
  · dsimp only
    split
    · exact chipEnds_legal _ n s.cfg s.chip s.env
    · exact drawOut_legal n s.chip s.env

/-- The end of a frame on the modelled chip. -/
theorem endFrame_open {s : State} {f : OpenFrame} (hf : s.bus.frame = some f) (ht : s.bus.target.toNat = s.cfg.chipSlot)
    (n : Nat) :
    endFrame n s = ({ s with bus := s.bus.setLine s.bus.target.toNat none } : State).onChip (chipEnds f n) := by
  simp only [endFrame, hf, ht, if_true]

/-- The end of a frame in which no byte has come in yet, on the modelled chip. -/
theorem endFrame_whole {s : State} {f : OpenFrame} (hf : s.bus.frame = some f) (hn : f.nIn = 0) (hm : f.mixed = false)
    (ht : s.bus.target.toNat = s.cfg.chipSlot) (n : Nat) :
    endFrame n s = ({ s with bus := s.bus.setLine s.bus.target.toNat none } : State).onChip fun p c e =>
      chipFrame p ⟨f.sent, n⟩ f.sawBusy c e := by
  have : chipEnds f n = fun p c e => chipFrame p ⟨f.sent, n⟩ f.sawBusy c e := by
    funext p c e; exact chipEnds_whole hn hm n p c e
  rw [endFrame_open hf ht, this]

@[simp] theorem endFrame_sched (n : Nat) (s : State) : (endFrame n s).env.sched = s.env.sched := (endFrame_legal n s).env.sched

@[simp] theorem endFrame_answers (n : Nat) (s : State) : (endFrame n s).env.answers = s.env.answers :=
  (endFrame_legal n s).env.answers

theorem cutFrame_keeps (b : Bool) (f : Option OpenFrame) (e : Env) : e.Keeps (cutFrame b f e).2 :=
  ((Env.keeps_next e).trans (drawBytes_keeps _ _)).trans (Env.keeps_next _)

@[simp] theorem cutFrame_known (b : Bool) (f : Option OpenFrame) (e : Env) : (cutFrame b f e).1.known = false := rfl

/-- R126: unknown bytes follow those surely sent, which stay. -/
theorem cutFrame_sent (b : Bool) (f : OpenFrame) (e : Env) : f.sent <+: (cutFrame b (some f) e).1.sent :=
  List.prefix_append _ _

theorem lineUnknown_keeps (s : State) : s.env.Keeps (lineUnknown s).env :=
  ((Env.keeps_next s.env).trans (unknownChip_keeps s.chip _)).trans
    (cutFrame_keeps (s.chip.wip || (unknownChip s.chip s.env.next).1.wip) (s.bus.line s.reg.handle.toNat) _)

@[simp] theorem lineUnknown_sched (s : State) : (lineUnknown s).env.sched = s.env.sched := (lineUnknown_keeps s).sched

@[simp] theorem lineUnknown_answers (s : State) : (lineUnknown s).env.answers = s.env.answers := (lineUnknown_keeps s).answers

@[simp] theorem lineUnknown_cells (s : State) : (lineUnknown s).chip.mem.cells = [] := rfl

/-- The bound slot's line left by an error is closed, or open with unknown bytes (R126). -/
theorem lineUnknown_frame (s : State) {f : OpenFrame} (h : (lineUnknown s).bus.line s.reg.handle.toNat = some f) :
    f.known = false := by
  simp only [lineUnknown, Bus.line_setLine_same] at h
  split at h
  · cases h; rfl
  · cases h

/-- The other lines stay (log entry 31). -/
theorem lineUnknown_line {h : Nat} {s : State} (hh : h ≠ s.reg.handle.toNat) :
    (lineUnknown s).bus.line h = s.bus.line h := Bus.line_setLine_other hh _ _

theorem lineUnknown_rise {s : State} (h : cellsRise 0 s.bus.lines) : cellsRise 0 (lineUnknown s).bus.lines :=
  Bus.setLine_rise _ _ _ h

/-- What shifting out leaves open. -/
theorem shiftOut_frame_none {s : State} (h : s.bus.frame = none) (bs : List Byte) :
    (shiftOut bs s).bus.frame = some (.start s.chip.wip bs) := by
  simp only [shiftOut, h]; exact Bus.frame_setLine _ _

theorem shiftOut_frame_some {s : State} {f : OpenFrame} (h : s.bus.frame = some f) (bs : List Byte) :
    (shiftOut bs s).bus.frame = some (f.push bs) := by
  simp only [shiftOut, h]; exact Bus.frame_setLine _ _

/-! The bytes a held frame has shown the chip (R261, R262, R268, R270) -/

/-- Only `hazard` can change. -/
theorem commandSeen_chip (s : State) : (commandSeen s).chip = { s.chip with hazard := (commandSeen s).chip.hazard } := by
  unfold commandSeen; repeat' split
  all_goals rfl

@[simp] theorem commandSeen_mem (s : State) : (commandSeen s).chip.mem = s.chip.mem := by rw [commandSeen_chip]

theorem commandSeen_hazard {s : State} (h : s.chip.hazard = true) : (commandSeen s).chip.hazard = true := by
  unfold commandSeen; repeat' split
  all_goals simp [h]

/-- Where the frame breaks no rule yet, nothing changes. -/
theorem commandSeen_quiet {s : State} (h : ∀ f, s.bus.frame = some f → frameBreaks s.cfg f s.chip = false) :
    commandSeen s = s := by
  unfold commandSeen
  split
  · rename_i f hf
    split
    · simp [h f hf]
    · rfl
  · rfl

/-- Where it does, `hazard` is set. -/
theorem commandSeen_breaks {s : State} {f : OpenFrame} (hf : s.bus.frame = some f)
    (ht : s.bus.target.toNat = s.cfg.chipSlot) (hb : frameBreaks s.cfg f s.chip = true) :
    (commandSeen s).chip.hazard = true := by simp [commandSeen, hf, ht, hb]

/-- Where `hazard` is clear afterwards, the whole chip is as before. -/
theorem commandSeen_clear {s : State} (h : (commandSeen s).chip.hazard = false) : (commandSeen s).chip = s.chip := by
  have h' : s.chip.hazard = false := by
    cases hz : s.chip.hazard
    · rfl
    · rw [commandSeen_hazard hz] at h; exact h
  rw [commandSeen_chip, h, ← h']

/-! `try` of each primitive -/

variable {s : State} {k : List Byte → State → State}

theorem try_select_ok {ov} (h : s.answer = .ok ov) (x : Word) :
    attempt (spiSelect x s) k = k [] (({ s.answered with bus := { s.bus with target := x } } : State).log (.sel x)) := by
  simp [attempt, spiSelect, h]

theorem try_select_err (h : s.answer = .err) (x : Word) :
    attempt (spiSelect x s) k = transportError ((lineUnknown s.answered).log (.sel x)) := by simp [attempt, spiSelect, h]

theorem try_select_silent (h : s.answer = .silent) (x : Word) : attempt (spiSelect x s) k = s.answered := by
  simp [attempt, spiSelect, h]

theorem try_write_ok {ov} (h : s.answer = .ok ov) (bs : List Byte) :
    attempt (spiWrite bs s) k = k [] ((endFrame 0 (shiftOut bs s.answered)).log (.w bs)) := by
  simp [attempt, spiWrite, h]

theorem try_write_err (h : s.answer = .err) (bs : List Byte) :
    attempt (spiWrite bs s) k = transportError ((lineUnknown s.answered).log (.w bs)) := by simp [attempt, spiWrite, h]

theorem try_write_silent (h : s.answer = .silent) (bs : List Byte) : attempt (spiWrite bs s) k = s.answered := by
  simp [attempt, spiWrite, h]

theorem try_continue_ok {ov} (h : s.answer = .ok ov) (bs : List Byte) :
    attempt (spiWriteContinue bs s) k = k [] ((commandSeen (shiftOut bs s.answered)).log (.wc bs)) := by
  simp [attempt, spiWriteContinue, h]

theorem try_continue_err (h : s.answer = .err) (bs : List Byte) :
    attempt (spiWriteContinue bs s) k = transportError ((lineUnknown s.answered).log (.wc bs)) := by
  simp [attempt, spiWriteContinue, h]

theorem try_continue_silent (h : s.answer = .silent) (bs : List Byte) :
    attempt (spiWriteContinue bs s) k = s.answered := by simp [attempt, spiWriteContinue, h]

/-- The bytes `spi_read(n)` delivers under the answer `ok bytes`. -/
def delivered (n : Nat) (bytes : Option (List Byte)) (s : State) : List Byte :=
  (fitBytes n (lineBytes bytes (endFrame n s.answered)) (endFrame n s.answered).env).1

/-- The machine after `spi_read(n)` has delivered them, before the trace. -/
def afterRead (n : Nat) (bytes : Option (List Byte)) (s : State) : State :=
  { endFrame n s.answered with
    env := (fitBytes n (lineBytes bytes (endFrame n s.answered)) (endFrame n s.answered).env).2 }

theorem try_read_ok {bytes} (h : s.answer = .ok bytes) (n : Nat) :
    attempt (spiRead n s) k =
      k (delivered n bytes s) ((afterRead n bytes s).log (.rd n (some (delivered n bytes s)))) := by
  simp [attempt, spiRead, h, delivered, afterRead]

theorem try_read_err (h : s.answer = .err) (n : Nat) :
    attempt (spiRead n s) k = transportError ((lineUnknown s.answered).log (.rd n none)) := by
  simp [attempt, spiRead, h]

theorem try_read_silent (h : s.answer = .silent) (n : Nat) : attempt (spiRead n s) k = s.answered := by
  simp [attempt, spiRead, h]

@[simp] theorem delivered_length (n : Nat) (bytes : Option (List Byte)) (s : State) :
    (delivered n bytes s).length = n := fitBytes_length _ _ _

/-- Where the chip drives the bytes, they are delivered. -/
theorem delivered_none {n : Nat} {s : State} (h : (endFrame n s.answered).bus.rx.length = n) :
    delivered n none s = (endFrame n s.answered).bus.rx := by
  have := fitBytes_exact (endFrame n s.answered).bus.rx (endFrame n s.answered).env
  rw [h] at this
  simp [delivered, lineBytes, this]

/-- Bytes of the transport's own choice, of the right number, are delivered as they are. -/
theorem delivered_some (bs : List Byte) (s : State) : delivered bs.length (some bs) s = bs := by
  simp [delivered, lineBytes, fitBytes_exact]

@[simp] theorem afterRead_cfg (n : Nat) (b) (s : State) : (afterRead n b s).cfg = s.cfg := by simp [afterRead]
@[simp] theorem afterRead_reg (n : Nat) (b) (s : State) : (afterRead n b s).reg = s.reg := by simp [afterRead]
@[simp] theorem afterRead_port (n : Nat) (b) (s : State) : (afterRead n b s).port = s.port := by simp [afterRead]
@[simp] theorem afterRead_trace (n : Nat) (b) (s : State) : (afterRead n b s).trace = s.trace := by simp [afterRead]
@[simp] theorem afterRead_frame (n : Nat) (b) (s : State) : (afterRead n b s).bus.frame = none := by simp [afterRead]
@[simp] theorem afterRead_chip (n : Nat) (b) (s : State) : (afterRead n b s).chip = (endFrame n s.answered).chip := rfl
@[simp] theorem afterRead_target (n : Nat) (b) (s : State) : (afterRead n b s).bus.target = s.bus.target := by
  simp [afterRead]
@[simp] theorem afterRead_sched (n : Nat) (b) (s : State) : (afterRead n b s).env.sched = s.env.sched := by
  simp [afterRead, (fitBytes_keeps _ _ _).sched]
@[simp] theorem afterRead_answers (n : Nat) (b) (s : State) : (afterRead n b s).env.answers = s.env.answers.tail := by
  simp [afterRead, (fitBytes_keeps _ _ _).answers]

end Sys2Proof.Machine
end

