-- ==== Sys2Proof/Laws/HostOps.lean ====
section
/-! SUPPORT. Every host operation in one form (30_encoding.md R110): in phase IDLE it is accepted and started; in any other
phase it makes the one call of that phase and proceeds. Proofs about all operations cite these instead of the nine
meanings. -/
namespace Sys2Proof.Machine

/-- A transport call with its arguments. -/
inductive Call where
  | select
  | write (bs : List Byte)
  | continue (bs : List Byte)
  | read (n : Nat)
deriving DecidableEq, Repr

/-- The primitive of a call. -/
def perform (c : Call) (s : State) : CallResult × State :=
  match c with
  | .select => spiSelect s.reg.handle s
  | .write bs => spiWrite bs s
  | .continue bs => spiWriteContinue bs s
  | .read n => spiRead n s

/-- R110: the call of each phase of the operation of a request. -/
def callOf (eraseOpcode : Byte) (r : Request) (p : Phase) : Option Call :=
  if p ∈ callPhases r.op then
    match p with
    | .idle => none
    | .select => some .select
    | .wrenWrite => some (.write [0x06])
    | .statusCmd => some (.continue [0x05])
    | .statusRead => some (.read 1)
    | .cmdWrite =>
      if r.op = 1#4 then some (.continue [0x9F])
      else if r.op = 4#4 then some (.continue (0x03 :: encAddr (wireAddr r.arg0)))
      else if r.op = 5#4 then some (.continue (0x02 :: encAddr (wireAddr r.arg0)))
      else some (.write (eraseOpcode :: encAddr (wireAddr r.arg0)))
    | .dataWrite => some (.write r.payload)
    | .dataRead => some (.read (if r.op = 1#4 then 3 else r.arg1.toNat))
  else none

/-- What an operation does with the bytes of its call. -/
def proceed (r : Request) (p : Phase) (rs : List Byte) : State → State :=
  match p with
  | .idle => id
  | .select =>
    goto (if r.op = 1#4 ∨ r.op = 4#4 then .cmdWrite else if r.op = 2#4 ∨ r.op = 7#4 then .statusCmd else .wrenWrite)
  | .wrenWrite => if r.op = 3#4 then respond .ok .idle 0 [] else goto .statusCmd
  | .statusCmd => goto .statusRead
  | .statusRead => fun s =>
    let s := setSr (rs.getD 0 0) s
    if r.op = 2#4 then respond .ok .idle (zext24 (rs.getD 0 0)) [] s
    else if r.op = 5#4 then gateCheck (programAfterGate r.arg1) (rs.getD 0 0) s
    else if r.op = 6#4 then gateCheck (goto .cmdWrite) (rs.getD 0 0) s
    else afterPoll r.arg1 (rs.getD 0 0) s
  | .cmdWrite =>
    if r.op = 5#4 then goto .dataWrite else if r.op = 6#4 then respond .ok .idle 0 [] else goto .dataRead
  | .dataWrite => respond .ok .idle 0 []
  | .dataRead => if r.op = 1#4 then respond .ok .idle (identityOf rs) [] else respond .ok .idle 0 rs

/-- How the operation of a request starts, once it is latched. -/
def start (r : Request) : State → State :=
  if r.op = 0#4 then bindSlot r.arg0
  else if r.op = 1#4 ∨ r.op = 2#4 ∨ r.op = 3#4 then requireBound (goto .select)
  else if r.op = 4#4 ∨ r.op = 5#4 ∨ r.op = 6#4 then requireBound (requireAddress r.arg0 (goto .select))
  else if r.op = 7#4 then requireBound (startPolling r.arg1)
  else raiseError .illegalOp .idle 0

theorem reservedOp_ne : ∀ k : BitVec 3,
    (1#1 ++ k : BitVec 4) ≠ 0#4 ∧ (1#1 ++ k : BitVec 4) ≠ 1#4 ∧ (1#1 ++ k : BitVec 4) ≠ 2#4 ∧
    (1#1 ++ k : BitVec 4) ≠ 3#4 ∧ (1#1 ++ k : BitVec 4) ≠ 4#4 ∧ (1#1 ++ k : BitVec 4) ≠ 5#4 ∧
    (1#1 ++ k : BitVec 4) ≠ 6#4 ∧ (1#1 ++ k : BitVec 4) ≠ 7#4 := by decide

/-- A host operation in phase IDLE. -/
theorem exec_idle {e : Byte} {i : Instr} {r : Request} (h : encode e i = .request r) {s : State}
    (hp : s.reg.phase = .idle) :
    exec i s = .next (accept r.op r.arg0 r.arg1 r.payload (start r) s) := by
  rcases encode_request h with ⟨x, y, rfl, rfl⟩ | ⟨x, y, rfl, rfl⟩ | ⟨x, y, rfl, rfl⟩ | ⟨x, y, rfl, rfl⟩ |
    ⟨x, y, rfl, rfl⟩ | ⟨x, y, d, rfl, rfl⟩ | ⟨x, y, rfl, rfl⟩ | ⟨x, y, rfl, rfl⟩ | ⟨k, x, y, rfl, rfl⟩
  case inr.inr.inr.inr.inr.inr.inr.inr =>
    obtain ⟨h0, h1, h2, h3, h4, h5, h6, h7⟩ := reservedOp_ne k
    simp [exec, execReserved, hp, start, h0, h1, h2, h3, h4, h5, h6, h7]
  all_goals
    simp [exec, execBind, execReadIdentity, execReadStatus, execWriteEnable, execReadData, execPageProgram,
      execSectorErase, execWaitReady, hp, start]

/-- A host operation during its phases: the call of the phase, or the model's named fault. -/
theorem exec_call {e : Byte} {i : Instr} {r : Request} (h : encode e i = .request r) {s : State}
    (hp : s.reg.phase ≠ .idle) :
    exec i s =
      match callOf s.cfg.eraseOpcode r s.reg.phase with
      | some c => .next (attempt (perform c s) (proceed r s.reg.phase))
      | none => .fault .phaseOutOfSequence := by
  rcases encode_request h with ⟨x, y, rfl, rfl⟩ | ⟨x, y, rfl, rfl⟩ | ⟨x, y, rfl, rfl⟩ | ⟨x, y, rfl, rfl⟩ |
    ⟨x, y, rfl, rfl⟩ | ⟨x, y, d, rfl, rfl⟩ | ⟨x, y, rfl, rfl⟩ | ⟨x, y, rfl, rfl⟩ | ⟨k, x, y, rfl, rfl⟩
  case inr.inr.inr.inr.inr.inr.inr.inr =>
    obtain ⟨h0, h1, h2, h3, h4, h5, h6, h7⟩ := reservedOp_ne k
    cases hq : s.reg.phase <;>
      simp_all [exec, execReserved, callOf, callPhases]
  all_goals
    cases hq : s.reg.phase <;>
      first
      | exact absurd hq hp
      | (simp [exec, execBind, execReadIdentity, execReadStatus, execWriteEnable, execReadData, execPageProgram,
          execSectorErase, execWaitReady, hq, callOf, callPhases, perform, callSelect, callWren, callStatusCmd,
          callStatusRead]; done)
      | (simp only [exec, execReadIdentity, execReadStatus, execWriteEnable, execReadData, execPageProgram,
          execSectorErase, execWaitReady, hq, callOf, callPhases, perform, callSelect, callWren, callStatusCmd,
          callStatusRead]; rfl)

/-- Where an operation stands after a call that returned `ok`: in another phase, or ended with a response; on the way
`SR` and `POLLS` may have been written. -/
theorem proceed_cases (r : Request) (p : Phase) (rs : List Byte) (u : State) (hp : p ≠ .idle) :
    ∃ v, (v = u ∨ v = setSr (rs.getD 0 0) u ∨
        (r.op ≠ 2#4 ∧ r.op ≠ 5#4 ∧ r.op ≠ 6#4 ∧ v = setPolls (u.reg.polls + 1#32) (setSr (rs.getD 0 0) u))) ∧
      (p ≠ .statusRead → v = u) ∧
      ((∃ q, q ≠ .idle ∧ q ≠ .select ∧ proceed r p rs u = goto q v) ∨
        ∃ c x d, proceed r p rs u = respond c .idle x d v) := by
  cases p <;> simp only [proceed]
  · exact absurd rfl hp
  · refine ⟨u, .inl rfl, fun _ => rfl, .inl ⟨_, ?_, ?_, rfl⟩⟩ <;> (repeat' split) <;> decide
  · refine ⟨u, .inl rfl, fun _ => rfl, ?_⟩
    split
    · exact .inr ⟨_, _, _, rfl⟩
    · exact .inl ⟨_, by decide, by decide, rfl⟩
  · exact ⟨u, .inl rfl, fun _ => rfl, .inl ⟨_, by decide, by decide, rfl⟩⟩
  · by_cases h2 : r.op = 2#4
    · rw [if_pos h2]
      exact ⟨setSr (rs.getD 0 0) u, .inr (.inl rfl), fun h => absurd rfl h, .inr ⟨_, _, _, rfl⟩⟩
    rw [if_neg h2]
    by_cases h5 : r.op = 5#4
    · rw [if_pos h5]
      refine ⟨setSr (rs.getD 0 0) u, .inr (.inl rfl), fun h => absurd rfl h, ?_⟩
      unfold gateCheck programAfterGate
      split
      · split
        · exact .inr ⟨_, _, _, rfl⟩
        · exact .inl ⟨_, by decide, by decide, rfl⟩
      · exact .inr ⟨_, _, _, rfl⟩
    rw [if_neg h5]
    by_cases h6 : r.op = 6#4
    · rw [if_pos h6]
      refine ⟨setSr (rs.getD 0 0) u, .inr (.inl rfl), fun h => absurd rfl h, ?_⟩
      unfold gateCheck
      split
      · exact .inl ⟨_, by decide, by decide, rfl⟩
      · exact .inr ⟨_, _, _, rfl⟩
    rw [if_neg h6]
    refine ⟨setPolls (u.reg.polls + 1#32) (setSr (rs.getD 0 0) u), .inr (.inr ⟨h2, h5, h6, rfl⟩),
      fun h => absurd rfl h, ?_⟩
    unfold afterPoll
    split
    · split
      · exact .inr ⟨_, _, _, rfl⟩
      · exact .inl ⟨_, by decide, by decide, rfl⟩
    · exact .inr ⟨_, _, _, rfl⟩
  · refine ⟨u, .inl rfl, fun _ => rfl, ?_⟩
    repeat' split
    · exact .inl ⟨_, by decide, by decide, rfl⟩
    · exact .inr ⟨_, _, _, rfl⟩
    · exact .inl ⟨_, by decide, by decide, rfl⟩
  · exact ⟨u, .inl rfl, fun _ => rfl, .inr ⟨_, _, _, rfl⟩⟩
  · refine ⟨u, .inl rfl, fun _ => rfl, ?_⟩
    split
    · exact .inr ⟨_, _, _, rfl⟩
    · exact .inr ⟨_, _, _, rfl⟩

/-- How a latched request starts: it goes to SELECT, or responds at once; `BOUND`, `HANDLE` and `POLLS` may have been
written. -/
theorem start_cases (r : Request) (u : State) :
    ∃ v, (v = u ∨ (r.op = 0#4 ∧ u.reg.bound = false ∧ v = setBound r.arg0 u) ∨ (r.op = 7#4 ∧ v = setPolls 0 u)) ∧
      ((start r u = goto .select v ∧ u.reg.bound = true ∧ 1 ≤ r.op.toNat ∧ r.op.toNat ≤ 7 ∧
          ((r.op = 4#4 ∨ r.op = 5#4 ∨ r.op = 6#4) → addressValid r.arg0 = true)) ∨
        ∃ c, start r u = respond c .idle 0 [] v) := by
  unfold start
  split
  · rename_i h0
    unfold bindSlot
    split
    · exact ⟨u, .inl rfl, .inr ⟨_, rfl⟩⟩
    · rename_i hb
      split
      · exact ⟨_, .inr (.inl ⟨h0, by simpa using hb, rfl⟩), .inr ⟨_, rfl⟩⟩
      · exact ⟨u, .inl rfl, .inr ⟨_, rfl⟩⟩
  split
  · rename_i h
    unfold requireBound
    split
    · rename_i hb
      refine ⟨u, .inl rfl, .inl ⟨rfl, hb, ?_, ?_, ?_⟩⟩ <;> rcases h with h | h | h <;> simp [h]
    · exact ⟨u, .inl rfl, .inr ⟨_, rfl⟩⟩
  split
  · rename_i h
    unfold requireBound
    split
    · rename_i hb
      unfold requireAddress
      split
      · rename_i ha
        refine ⟨u, .inl rfl, .inl ⟨rfl, hb, ?_, ?_, fun _ => ha⟩⟩ <;> rcases h with h | h | h <;> simp [h]
      · exact ⟨u, .inl rfl, .inr ⟨_, rfl⟩⟩
    · exact ⟨u, .inl rfl, .inr ⟨_, rfl⟩⟩
  split
  · rename_i h
    unfold requireBound
    split
    · rename_i hb
      unfold startPolling
      split
      · exact ⟨_, .inr (.inr ⟨h, rfl⟩), .inr ⟨_, rfl⟩⟩
      · exact ⟨_, .inr (.inr ⟨h, rfl⟩), .inl ⟨rfl, hb, by simp [h], by simp [h], by simp [h]⟩⟩
    · exact ⟨u, .inl rfl, .inr ⟨_, rfl⟩⟩
  · exact ⟨u, .inl rfl, .inr ⟨_, rfl⟩⟩

/-- What a call leaves, by the transport's answer. -/
theorem perform_cases (c : Call) (s : State) :
    (s.answer = .silent ∧ perform c s = (.silent, s.answered)) ∨
    (s.answer = .err ∧ ∃ ev, perform c s =
      (.err, (lineUnknown s.answered).log ev)) ∨
    (∃ ov, s.answer = .ok ov ∧ match c with
      | .select => perform c s =
          (.ok [], ({ s.answered with bus := { s.bus with target := s.reg.handle } } : State).log (.sel s.reg.handle))
      | .write bs => perform c s = (.ok [], (endFrame 0 (shiftOut bs s.answered)).log (.w bs))
      | .continue bs => perform c s = (.ok [], (commandSeen (shiftOut bs s.answered)).log (.wc bs))
      | .read n => perform c s = (.ok (delivered n ov s), (afterRead n ov s).log (.rd n (some (delivered n ov s))))) := by
  cases ha : s.answer with
  | silent => left; cases c <;> simp [perform, spiSelect, spiWrite, spiWriteContinue, spiRead, ha]
  | err => right; left; cases c <;> simp [perform, spiSelect, spiWrite, spiWriteContinue, spiRead, ha]
  | ok ov =>
    right; right; refine ⟨ov, rfl, ?_⟩
    cases c <;> simp [perform, spiSelect, spiWrite, spiWriteContinue, spiRead, ha, delivered, afterRead]

/-- R125, R129: an operation whose call returns `err`. -/
theorem exec_err {e : Byte} {i : Instr} {r : Request} (h : encode e i = .request r) {s : State}
    (hp : s.reg.phase ∈ callPhases r.op) (ha : s.answer = .err) :
    exec i s = .next (transportError
      ((lineUnknown s.answered).log (failedCall s.cfg.eraseOpcode s.reg.handle r s.reg.phase))) := by
  have hi : s.reg.phase ≠ .idle := by
    intro hq; rw [hq] at hp; revert hp; unfold callPhases; repeat' split
    all_goals decide
  rw [exec_call h hi]
  cases hq : s.reg.phase <;> rw [hq] at hp <;> simp only [callOf, hp, if_true, failedCall] <;>
    first
    | exact absurd hq hi
    | (by_cases h1 : r.op = 1#4 <;> by_cases h4 : r.op = 4#4 <;> by_cases h5 : r.op = 5#4 <;>
        simp [attempt, perform, spiSelect, spiWrite, spiWriteContinue, spiRead, ha, h1, h4, h5])

/-- EVERYTHING A HOST OPERATION CAN DO when it answers a next state. -/
theorem exec_host_inv {e : Byte} {i : Instr} {r : Request} (h : encode e i = .request r) {s t : State}
    (he : exec i s = .next t) :
    (s.reg.phase = .idle ∧ ((s.ready = false ∧ t = s) ∨
      (s.ready = true ∧ t = start r (latch r.op r.arg0 r.arg1 r.payload s)))) ∨
    (s.reg.phase ≠ .idle ∧ s.reg.phase ∈ callPhases r.op ∧ ∃ c, callOf s.cfg.eraseOpcode r s.reg.phase = some c ∧
      ((s.answer = .silent ∧ t = s.answered) ∨
        (s.answer = .err ∧ ∃ ev, t =
          transportError ((lineUnknown s.answered).log ev)) ∨
        ∃ ov rs u, s.answer = .ok ov ∧ perform c s = (.ok rs, u) ∧ t = proceed r s.reg.phase rs u)) := by
  by_cases hp : s.reg.phase = .idle
  · left
    rw [exec_idle h hp] at he
    cases he
    refine ⟨hp, ?_⟩
    unfold accept
    cases hr : s.ready
    · exact .inl ⟨rfl, rfl⟩
    · exact .inr ⟨rfl, rfl⟩
  · right
    rw [exec_call h hp] at he
    cases hc : callOf s.cfg.eraseOpcode r s.reg.phase with
    | none => rw [hc] at he; cases he
    | some c =>
      rw [hc] at he
      cases he
      refine ⟨hp, ?_, c, rfl, ?_⟩
      · unfold callOf at hc
        split at hc
        · assumption
        · cases hc
      rcases perform_cases c s with ⟨ha, hq⟩ | ⟨ha, ev, hq⟩ | ⟨ov, ha, hq⟩
      · exact .inl ⟨ha, by rw [hq]; rfl⟩
      · exact .inr (.inl ⟨ha, ev, by rw [hq]; rfl⟩)
      · refine .inr (.inr ?_)
        cases c <;> exact ⟨ov, _, _, ha, hq, by rw [hq]; rfl⟩

end Sys2Proof.Machine
end

