-- ==== Sys2Proof/Laws/PerInstr.lean ====
section
/-! SUPPORT. Statements made once per instruction, as syntax. -/

/-- The packet an instruction is encoded in has the form of its row: a frame has the phases of R97, a request is well
formed (R100) and is the request of that instruction (R101). -/
def Sys2Proof.Laws.EncodeForm.Statement (i : Sys2Proof.Instr) : Prop :=
  ∀ e : Sys2Proof.Byte, i.wellFormed = true →
    match Sys2Proof.encode e i with
    | .frame f =>
      (f.sent.length = 1 ∧ f.nIn = Sys2Proof.f1DataIn (f.sent.headD 0)) ∨ (f.sent.length = 4) ∨
        (5 ≤ f.sent.length ∧ f.nIn = 0)
    | .request r => r.wellFormed = true ∧ Sys2Proof.requestInstr r = i

namespace Sys2Proof.Laws.EncodeForm

theorem rdsr : Statement .rdsr := fun _ _ => .inl ⟨rfl, rfl⟩

theorem wren : Statement .wren := fun _ _ => .inl ⟨rfl, rfl⟩

theorem read (a : Addr) (n : Nat) : Statement (.read a n) := fun _ _ => .inr (.inl rfl)

theorem pp (a : Addr) (d : List Byte) : Statement (.pp a d) := by
  intro e h
  cases d with
  | nil => simp [Instr.wellFormed] at h
  | cons b d => exact .inr (.inr ⟨by simp [encAddr], rfl⟩)

theorem rdid : Statement .rdid := fun _ _ => .inl ⟨rfl, rfl⟩

theorem se (a : Addr) : Statement (.se a) := fun _ _ => .inr (.inl rfl)

theorem bind (h g : Word) : Statement (.bind h g) := fun _ _ => ⟨rfl, rfl⟩

theorem readIdentity (g h : Word) : Statement (.readIdentity g h) := fun _ _ => ⟨rfl, rfl⟩

theorem readStatus (g h : Word) : Statement (.readStatus g h) := fun _ _ => ⟨rfl, rfl⟩

theorem writeEnable (g h : Word) : Statement (.writeEnable g h) := fun _ _ => ⟨rfl, rfl⟩

theorem readData (a n : Word) : Statement (.readData a n) := fun _ _ => ⟨rfl, rfl⟩

theorem pageProgram (a n : Word) (d : List Byte) : Statement (.pageProgram a n d) := fun _ h => ⟨h, rfl⟩

theorem sectorErase (a g : Word) : Statement (.sectorErase a g) := fun _ _ => ⟨rfl, rfl⟩

theorem waitReady (g b : Word) : Statement (.waitReady g b) := fun _ _ => ⟨rfl, rfl⟩

theorem reserved (k : BitVec 3) (g h : Word) : Statement (.reserved k g h) := by
  intro _ _
  revert k
  have key : ∀ k : BitVec 3, (1#1 ++ k ≠ 0#4 ∧ 1#1 ++ k ≠ 1#4 ∧ 1#1 ++ k ≠ 2#4 ∧ 1#1 ++ k ≠ 3#4 ∧ 1#1 ++ k ≠ 4#4 ∧
      1#1 ++ k ≠ 5#4 ∧ 1#1 ++ k ≠ 6#4 ∧ 1#1 ++ k ≠ 7#4) ∧ (1#1 ++ k : BitVec 4).extractLsb' 0 3 = k := by decide
  intro k
  obtain ⟨⟨h0, h1, h2, h3, h4, h5, h6, h7⟩, hk⟩ := key k
  simp [encode, Request.wellFormed, requestInstr, h0, h1, h2, h3, h4, h5, h6, h7, hk]

end Sys2Proof.Laws.EncodeForm
end

