-- ==== Sys2Proof/Laws/Step.lean ====
section
/-! SUPPORT. Everything a step can do, said once: proofs about all steps cite this instead of unfolding `step`. -/
namespace Sys2Proof.Machine

/-- What a step did, move by move. -/
inductive StepDid (s t : State) : Prop where
  | waits (he : s.event = .block) (hp : s.reg.phase = .idle) (ht : t = s.moved)
  | accepts (r : Request) (i : Instr) (he : s.event = .block) (hp : s.reg.phase = .idle) (hr : s.reg.resp = none)
      (hw : s.port.waiting.head? = some r) (hd : decodeRequest r = .ok i) (ht : exec i (popRequest s.moved) = .next t)
  | calls (i : Instr) (he : s.event = .block) (hp : s.reg.phase ≠ .idle) (hd : decodeRequest (latchedRequest s) = .ok i)
      (ht : exec i s.moved = .next t)
  | completes (he : s.event = .complete) (ht : t = completeStep s.moved)
  | puts (r : Request) (he : s.event = .request r) (hw : r.wellFormed = true) (ht : t = putRequest r s.moved)
  | takes (he : s.event = .take) (ht : t = takeResponse s.moved)
  | resets (he : s.event = .reset) (ht : t = resetBlock s.moved)
  | frameOpen (o : OpenFrame) (f : Frame) (he : s.event = .frame f) (hp : s.reg.phase = .idle) (hf : s.bus.line s.cfg.chipSlot = some o)
      (ht : t = frameOnOpenLine o f s.moved)
  | frameStray (f : Frame) (he : s.event = .frame f) (hp : s.reg.phase = .idle) (hf : s.bus.line s.cfg.chipSlot = none)
      (ht : t = strayFrame f s.moved)
  | frameRuns (f : Frame) (i : Instr) (he : s.event = .frame f) (hp : s.reg.phase = .idle) (hf : s.bus.line s.cfg.chipSlot = none)
      (hd : decodeFrame s.cfg.eraseOpcode f = .ok i) (ht : exec i s.moved = .next t)

/-- THE INVERSION OF A STEP. -/
theorem step_did {s t : State} (h : step s = .next t) : StepDid s t := by
  unfold step at h
  split at h
  case isFalse => cases h
  case isTrue =>
    cases he : s.event with
    | complete => rw [he] at h; cases h; exact .completes he rfl
    | take => rw [he] at h; cases h; exact .takes he rfl
    | reset => rw [he] at h; cases h; exact .resets he rfl
    | request r =>
      simp only [he, stepEvent] at h
      split at h
      · rename_i hw; cases h; exact .puts r he hw rfl
      · cases h
    | frame f =>
      simp only [he, stepEvent, frameStep, State.moved_reg, State.moved_bus, State.moved_cfg] at h
      by_cases hp : s.reg.phase = .idle
      · rw [hp] at h
        cases hf : s.bus.line s.cfg.chipSlot with
        | some g => simp only [hf] at h; cases h; exact .frameOpen g f he hp hf rfl
        | none =>
          simp only [hf] at h
          cases hd : decodeFrame s.cfg.eraseOpcode f with
          | ok i => rw [hd] at h; exact .frameRuns f i he hp hf hd h
          | error x => rw [hd] at h; cases h; exact .frameStray f he hp hf rfl
      · cases hq : s.reg.phase <;> rw [hq] at h <;> first | exact absurd hq hp | cases h
    | block =>
      simp only [he, stepEvent, blockStep, State.moved_reg, State.moved_port] at h
      by_cases hp : s.reg.phase = .idle
      · rw [hp] at h
        cases hr : s.reg.resp with
        | some x => simp only [hr, Option.isSome_some, if_true] at h; cases h; exact .waits he hp rfl
        | none =>
          simp only [hr, Option.isSome_none, Bool.false_eq_true, if_false] at h
          cases hw : s.port.waiting with
          | nil => rw [hw] at h; cases h; exact .waits he hp rfl
          | cons r rs =>
            rw [hw] at h
            cases hd : decodeRequest r with
            | ok i => simp only [hd] at h; exact .accepts r i he hp hr (by rw [hw]; rfl) hd h
            | error x => simp only [hd] at h; cases h
      · have hl : latchedRequest s.moved = latchedRequest s := rfl
        cases hd : decodeRequest (latchedRequest s) with
        | ok i =>
          refine .calls i he hp hd ?_
          cases hq : s.reg.phase <;> simp only [hq, hl, hd] at h <;> first | exact absurd hq hp | exact h
        | error x =>
          cases hq : s.reg.phase <;> simp only [hq, hl, hd] at h <;> first | exact absurd hq hp | cases h

end Sys2Proof.Machine
end

