-- ==== Sys2Proof/Tests/Slice0.lean ====
section
/-! SUPPORT. Tests: ill-formed terms refused, words of the spec's encodings decoded, single steps of the vectors of
95_test_vectors.md, and for every statement with hypotheses a state and operands that meet them. -/
namespace Sys2Proof.Tests
open Sys2Proof.Machine Sys2Proof.Claims

/-! States -/

/-- An idle chip whose array is all ones, its latch clear. -/
def chip0 : Chip := ⟨⟨.fixed 0xFF, []⟩, false, none, false⟩

/-- Bound to slot 0, idle, every move FLASHCMD's, every drawn value 1. -/
def s0 : State :=
  ⟨Params.vectors, ⟨true, 0, .idle, 0, 0, 0, 0, 0, none⟩, ⟨[], []⟩, ⟨0, [], []⟩, chip0,
    ⟨List.replicate 8 .block, [], List.replicate 8 1, 0⟩, []⟩

/-- The same, unbound. -/
def unbound : State := { s0 with reg := { s0.reg with bound := false } }

/-- During the operation of `r`, in phase `p`, with the answers `as` and the open frame `f`. -/
def mid (p : Phase) (r : Request) (as : List Answer) (f : Option OpenFrame := none) : State :=
  { s0 with
    reg := { s0.reg with phase := p, op := r.op, arg0 := r.arg0, arg1 := r.arg1 }
    port := ⟨[], r.payload⟩
    bus := ⟨0, f.toList.map fun f => (0, f), []⟩
    env := { s0.env with answers := as } }

/-- The next moves of `s` are `evs`. -/
def moves (evs : List Event) (s : State) : State := { s with env := { s.env with sched := evs } }

/-- The chip of `s` is `c`. -/
def onChip (c : Chip) (s : State) : State := { s with chip := c }

/-- The requests `rs` wait. -/
def waiting (rs : List Request) (s : State) : State := { s with port := ⟨rs, []⟩ }

/-- A chip busy with a program. -/
def busyChip : Chip := { chip0 with wel := true, busy := some (.prog 0x100 [0xDE, 0xAD]) }

/-- A chip with its latch set. -/
def readyChip : Chip := { chip0 with wel := true }

/-- What a test looks at in a next state. -/
def look {α : Type} (o : Host.Outcome State Fault Refusal) (f : State → α) : Option α :=
  match o with
  | .next t => some (f t)
  | _ => none

/-- The response bundle `P`. -/
def bundle (t : State) : Option Nat := t.reg.resp.map fun r => r.bundle.toNat

/-! Well-formedness (R72, R100, R258) and R11 -/

theorem test_wf_read_length : (Instr.read 0 (2 ^ 32)).wellFormed = false := by decide
theorem test_wf_pp_empty : (Instr.pp 0 []).wellFormed = false := by decide
theorem test_wf_page_program_length : (Instr.pageProgram 0 2 [0xDE]).wellFormed = false := by decide
theorem test_wf_request_payload : (⟨0x4, 0, 1, [0x00]⟩ : Request).wellFormed = false := by decide
theorem test_wf_request_program : (⟨0x5, 0, 1, []⟩ : Request).wellFormed = false := by decide
theorem test_wf_erase_opcode : ([0x02, 0x03, 0x05, 0x06, 0x9F].map eraseOpcodeAllowed).any id = false := by decide

/-! Decoding, words from R90 to R93, R100, R101 -/

theorem test_decode_f1 : decodeTableWord 8 0b00000101 = some .rdsr ∧ decodeTableWord 8 0b00000110 = some .wren ∧
    decodeTableWord 8 0b10011111 = some .rdid := by decide
theorem test_decode_f4 : decodeTableWord 32 0x03123456 = some (.read 0x123456 0) ∧
    decodeTableWord 32 0x02ABCDEF = some (.pp 0xABCDEF [0]) ∧
    decodeTableWord 32 0x20001234 = some (.se 0x001234) := by decide
theorem test_decode_bind : decodeTableWord 72 0x00000001DEADBEEF = some (.bind 0x00000001 0xDEADBEEF) := by decide
theorem test_decode_request_ops :
    [0x1, 0x2, 0x3, 0x8, 0xF].map (fun k => decodeTableWord 72 (k * 2 ^ 64 + 0x1234567800000002)) =
      [some (.readIdentity 0x12345678 2), some (.readStatus 0x12345678 2), some (.writeEnable 0x12345678 2),
        some (.reserved 0 0x12345678 2), some (.reserved 7 0x12345678 2)] := by decide
theorem test_decode_request_operands :
    [0x4, 0x5, 0x6, 0x7].map (fun k => decodeTableWord 72 (k * 2 ^ 64 + 0x1234567800000002)) =
      [some (.readData 0x12345678 2), some (.pageProgram 0x12345678 2 [0, 0]), some (.sectorErase 0x12345678 2),
        some (.waitReady 0x12345678 2)] := by decide
theorem test_decode_rejects : decodeTableWord 8 0x07 = none ∧ decodeTableWord 32 0x21001234 = none ∧
    decode 0x20 (.frame ⟨[], 0⟩) = .error .emptyFrame ∧
    decode 0x20 (.frame ⟨[0x06, 0x00], 0⟩) = .error (.frameLength 0x06) := ⟨by decide, by decide, rfl, rfl⟩

/-! The step runs a placed instruction, from reset -/

theorem test_fetch_request : look (step (State.reset.withFetchWord 72 0)) bundle = some (some 0) := by decide
theorem test_fetch_frame :
    step (State.reset.withFetchWord 8 0x9F) = exec .rdid (State.reset.withFetchWord 8 0x9F).moved := rfl

/-! Single steps of the vectors -/

/-- BD-1. -/
theorem test_bind : look (exec (.bind 0 0) unbound) (fun t => (bundle t, t.reg.bound)) = some (some 0, true) := by decide
/-- BD-2. -/
theorem test_bind_bad_slot :
    look (exec (.bind 1 0) unbound) (fun t => (bundle t, t.reg.bound)) = some (some 0x28000000, false) := by decide
/-- OP-3, OP-4. -/
theorem test_reserved : look (exec (.reserved 0 0 0) unbound) bundle = some (some 0x30000000) ∧
    look (exec (.reserved 7 0xFFFFFFFF 0xFFFFFFFF) s0) bundle = some (some 0x30000000) := by decide
/-- ID-1, its last call. -/
theorem test_read_identity :
    look (exec (.readIdentity 0 0) (mid .dataRead ⟨1, 0, 0, []⟩ [.ok none] (some (.start false [0x9F])))) bundle =
      some (some 0x00EF4018) := by decide
/-- ID-7. -/
theorem test_read_identity_err :
    look (exec (.readIdentity 0 0) (mid .dataRead ⟨1, 0, 0, []⟩ [.err])) bundle = some (some 0x0F000000) := by decide
/-- R269, R312: after an error of `spi_select` the latch is a draw (here set) and `hazard` is not set by it. -/
theorem test_select_err :
    look (exec (.readIdentity 0 0) (mid .select ⟨1, 0, 0, []⟩ [.err])) (fun t => (bundle t, t.chip.wel, t.chip.hazard)) =
      some (some 0x09000000, true, false) := by decide
/-- A chip-select line an error left open, with the bytes `bs` sent in it. -/
def leftOpen (bs : List Byte) : OpenFrame := ⟨false, false, bs, 0, false⟩
/-- 0x06 that ends an open frame of the bytes `bs` on the chip `c`: whether `hazard` is set. -/
def endsIn (c : Chip) (bs : List Byte) (size : Nat := 2 ^ 24) : Bool :=
  (chipEnds ((leftOpen bs).push [0x06]) 0 { Params.vectors with flashSize := size } c s0.env).chip.hazard
/-- R268: `[0x05, 0x06]` is no frame of R97; `[0x06]` alone is a write enable, which a busy chip forbids (R262). -/
theorem test_open_line_length :
    endsIn chip0 [0x05] = true ∧ endsIn chip0 [] = false ∧ endsIn busyChip [] = true := by decide
/-- R261, R270, R260: a program frame that 0x06 ends, with the latch clear, beyond the array, across its page, and none of
these. -/
theorem test_open_line_program :
    endsIn chip0 [0x02, 0x00, 0x01, 0x00] = true ∧ endsIn readyChip [0x02, 0x00, 0x01, 0x00] 0x100 = true ∧
      endsIn readyChip [0x02, 0x00, 0x01, 0xFF, 0xAA] = true ∧ endsIn readyChip [0x02, 0x00, 0x01, 0x00] = false := by decide
/-- R268: bytes out after bytes in. -/
theorem test_open_line_mixed :
    (OpenFrame.push ⟨false, false, [0x03, 0, 0, 0], 1, false⟩ [0x06]).mixed = true ∧
      (chipEnds ⟨false, false, [0x03, 0, 0, 0, 0x06], 1, true⟩ 0 Params.vectors chip0 s0.env).chip.hazard = true := by
  decide
/-- R126: after a failed payload write the line is open (first draw odd) with a drawn number of drawn bytes after those
surely sent, and the chip is a draw. -/
theorem test_cut_frame :
    look (exec (.pageProgram 0x100 1 [0xDE]) (mid .dataWrite ⟨5, 0x100, 1, [0xDE]⟩ [.err]
      (some (.start false [0x02, 0x00, 0x01, 0x00])))) (fun t => (t.bus.line 0).map fun o => (o.known, o.sent.take 5)) =
      some (some (false, [0x02, 0x00, 0x01, 0x00, 0x01])) := by decide
/-- R261, R270: the command bytes of a page_program already set `hazard` where the latch is clear; where it is set they do
not. -/
theorem test_program_command_with_latch_clear :
    look (exec (.pageProgram 0x100 1 [0xDE]) (mid .cmdWrite ⟨5, 0x100, 1, [0xDE]⟩ [.ok none]))
        (fun t => t.chip.hazard) = some true ∧
      look (exec (.pageProgram 0x100 1 [0xDE]) (onChip readyChip (mid .cmdWrite ⟨5, 0x100, 1, [0xDE]⟩ [.ok none])))
        (fun t => t.chip.hazard) = some false := by decide
/-- R262: 0x9F on a busy chip sets `hazard` before its frame ends, so that an error or a reset then leaves it set; 0x05
does not. -/
theorem test_command_on_busy_chip :
    look (exec (.readIdentity 0 0) (onChip busyChip (mid .cmdWrite ⟨1, 0, 0, []⟩ [.ok none]))) (fun t => t.chip.hazard) =
      some true ∧
      look (exec (.readStatus 0 0) (onChip busyChip (mid .statusCmd ⟨2, 0, 0, []⟩ [.ok none]))) (fun t => t.chip.hazard) =
        some false := by decide
/-- R18, R120: a frame an error left open on slot 0 is still open there after a frame on slot 1. -/
theorem test_line_of_another_slot :
    let s : State := { mid .wrenWrite ⟨3, 0, 0, []⟩ [.ok none] with bus := ⟨1, [(0, leftOpen [])], []⟩ }
    look (exec (.writeEnable 0 0) s) (fun t => (t.bus.line 0, t.bus.line 1)) =
      some (some (leftOpen []), none) := by decide
/-- RS-4. -/
theorem test_read_status :
    look (exec (.readStatus 0 0) (mid .statusRead ⟨2, 0, 0, []⟩ [.ok (some [0xFC])])) bundle =
      some (some 0x000000FC) := by decide
/-- OP-1. -/
theorem test_read_status_unbound : look (exec (.readStatus 0 0) unbound) bundle = some (some 0x28000000) := by decide
/-- WE-1. -/
theorem test_write_enable :
    look (exec (.writeEnable 0 0) (mid .wrenWrite ⟨3, 0, 0, []⟩ [.ok none])) (fun t => (bundle t, t.chip.wel)) =
      some (some 0, true) := by decide
/-- WE-5. -/
theorem test_write_enable_busy :
    look (exec (.writeEnable 0 0) (onChip busyChip (mid .wrenWrite ⟨3, 0, 0, []⟩ [.ok none])))
      (fun t => (bundle t, t.chip.hazard)) = some (some 0, true) := by decide
/-- RD-3, its command phase. -/
theorem test_read_data :
    look (exec (.readData 0x123456 2) (mid .cmdWrite ⟨4, 0x123456, 2, []⟩ [.ok none])) State.trace =
      some [.wc [0x03, 0x12, 0x34, 0x56]] := by decide
/-- RD-4, RD-5. -/
theorem test_read_data_invalid : look (exec (.readData 0x1000000 1) s0) bundle = some (some 0x10000000) ∧
    look (exec (.readData 0xFFFFFFFF 1) s0) bundle = some (some 0x10000000) := by decide
/-- PP-3. -/
theorem test_page_program_gate :
    look (exec (.pageProgram 0x100 2 [0xDE, 0xAD]) (mid .statusRead ⟨5, 0x100, 2, [0xDE, 0xAD]⟩ [.ok (some [0xFD])]))
      bundle = some (some 0x180000FD) := by decide
/-- PP-1, its payload. -/
theorem test_page_program :
    look (exec (.pageProgram 0x100 2 [0xDE, 0xAD]) (onChip readyChip (mid .dataWrite ⟨5, 0x100, 2, [0xDE, 0xAD]⟩ [.ok none]
      (some (.start false [0x02, 0x00, 0x01, 0x00]))))) (fun t => (bundle t, t.chip.busy, t.chip.hazard)) =
      some (some 0, some (.prog 0x100 [0xDE, 0xAD]), false) := by decide
/-- SE-3, the erase frame. -/
theorem test_sector_erase :
    look (exec (.sectorErase 0xFFFFFF 0) (onChip readyChip (mid .cmdWrite ⟨6, 0xFFFFFF, 0, []⟩ [.ok none])))
      (fun t => (t.trace.tail, t.chip.busy)) = some ([.w [0x20, 0xFF, 0xFF, 0xFF]], some (.erase 0xFFF000)) := by decide
/-- SE-5. -/
theorem test_sector_erase_err :
    look (exec (.sectorErase 0x1234 0) (mid .cmdWrite ⟨6, 0x1234, 0, []⟩ [.err])) bundle = some (some 0x0D000000) := by decide
/-- WR-5. -/
theorem test_wait_ready_timeout :
    look (exec (.waitReady 0 1) (mid .statusRead ⟨7, 0, 1, []⟩ [.ok (some [0x01])])) (fun t => (bundle t, t.reg.polls)) =
      some (some 0x20000001, 1) := by decide
/-- WR-6. -/
theorem test_wait_ready_ok :
    look (exec (.waitReady 0 5) (mid .statusRead ⟨7, 0, 5, []⟩ [.ok (some [0xFE])])) bundle = some (some 0xFE) := by decide
/-- RS-3, on the chip: WIP = 1, the drawn WEL = 1, the drawn bits 7:2 = 000001. -/
theorem test_chip_rdsr : look (exec .rdsr (onChip busyChip s0)) (fun t => t.bus.rx) = some [0x07] := by decide
/-- WE-1, on the chip. -/
theorem test_chip_wren : look (exec .wren s0) (fun t => (t.chip.wel, t.bus.rx)) = some (true, []) := by decide
/-- RD-7, on the chip. -/
theorem test_chip_read :
    look (exec (.read 0x10 3) (onChip { chip0 with mem := ⟨.fixed 0xFF, [(0x10, 0x5A), (0x11, 0xA5)]⟩ } s0))
      (fun t => t.bus.rx) = some [0x5A, 0xA5, 0xFF] := by decide
/-- PP-7, on the chip. -/
theorem test_chip_pp_crossing :
    look (exec (.pp 0xFE [1, 2, 3]) (onChip readyChip s0)) (fun t => (t.chip.busy, t.chip.hazard)) =
      some (some (.prog 0xFE [1, 2, 3]), true) := by decide
/-- ID-1, on the chip. -/
theorem test_chip_rdid : look (exec .rdid s0) (fun t => t.bus.rx) = some [0xEF, 0x40, 0x18] := by decide
/-- SE-1, on the chip. -/
theorem test_chip_se :
    look (exec (.se 0x1234) (onChip readyChip s0)) (fun t => t.chip.busy) = some (some (.erase 0x1000)) := by decide
/-- PP-RT step 2: the completion of a program. -/
theorem test_completion :
    look (step (moves [.complete] (onChip busyChip s0)))
      (fun t => (t.chip.mem.cells, t.chip.busy, t.chip.wel)) =
      some ([(0x100, 0xDE), (0x101, 0xAD)], none, false) := by decide
/-- R207, R259: an overwrite of the erased value is not listed. -/
theorem test_memory_canonical :
    (((⟨.fixed 0xFF, []⟩ : Memory).write 7 0x12).write 7 0xFF).cells = [] := by decide

/-! Witnesses: the hypotheses of every statement that has some are met, clause by clause, at the ends of their ranges -/

/-- The operations with traffic, at boundary operands. -/
def requests : List (Instr × Request) :=
  [(.readIdentity 0 0, ⟨1, 0, 0, []⟩), (.readStatus 0 0, ⟨2, 0, 0, []⟩), (.writeEnable 0 0, ⟨3, 0, 0, []⟩),
    (.readData 0xFFFFFF 0, ⟨4, 0xFFFFFF, 0, []⟩), (.pageProgram 0xFFFFFF 1 [0x55], ⟨5, 0xFFFFFF, 1, [0x55]⟩),
    (.sectorErase 0xFFFFFF 0, ⟨6, 0xFFFFFF, 0, []⟩), (.waitReady 0 1, ⟨7, 0, 1, []⟩)]

theorem requests_are : ∀ p ∈ requests, IsRequest p.1 p.2 := fun p hp =>
  ⟨0x20, (by decide : ∀ p ∈ requests, encode 0x20 p.1 = .request p.2) p hp⟩

/-- The three operations with an address, at 2^24. -/
def invalidRequests : List (Instr × Request) :=
  [(.readData 0x1000000 1, ⟨4, 0x1000000, 1, []⟩), (.pageProgram 0x1000000 1 [0], ⟨5, 0x1000000, 1, [0]⟩),
    (.sectorErase 0x1000000 0, ⟨6, 0x1000000, 0, []⟩)]

theorem invalidRequests_are : ∀ p ∈ invalidRequests, IsRequest p.1 p.2 := fun p hp =>
  ⟨0x20, (by decide : ∀ p ∈ invalidRequests, encode 0x20 p.1 = .request p.2) p hp⟩

/-- During an operation on the chip `c`: the line is closed. -/
theorem closed (c : Chip) (p : Phase) (r : Request) (as : List Answer) : ClosedLine (onChip c (mid p r as)) := ⟨rfl, rfl⟩

/-- During an operation on the chip `c`: `bs` has been sent in the open frame. -/
theorem frameOn (c : Chip) (p : Phase) (r : Request) (as : List Answer) (sb : Bool) (bs : List Byte) :
    FrameOn sb bs (onChip c (mid p r as (some (.start sb bs)))) := ⟨rfl, rfl⟩

/-- During an operation, with its command in the open frame, the frame invariant holds. -/
theorem one_line (p : Phase) (r : Request) (as : List Answer) (bs : List Byte) (h : openCommand r.op r.arg0 p = some bs) :
    FrameInv (mid p r as (some (.start false bs))) := by
  refine ⟨fun _ _ => rfl, fun _ => rfl, fun k f hk _ => ?_, rfl⟩
  simp only [mid, Bus.line, Option.toList, List.map, lookupCell] at hk
  split at hk
  · rename_i hz; cases hk; exact ⟨hz, h, rfl, rfl⟩
  · cases hk

theorem test_witness_DecodeOfEncodeIsTheInstruction :
    eraseOpcodeAllowed 0x20 = true ∧ (Instr.pp 0xFFFFFF [0]).wellFormed = true ∧
      (Instr.read 0 (2 ^ 32 - 1)).wellFormed = true ∧ (Instr.pageProgram 0 0 []).wellFormed = true := by decide
theorem test_witness_DecodedPacketIsTheEncoding :
    decode 0x20 (.frame ⟨[0x20, 0xFF, 0xFF, 0xFF], 0⟩) = .ok (.se 0xFFFFFF) ∧
      decode 0x20 (.request ⟨8, 0, 0, []⟩) = .ok (.reserved 0 0 0) := ⟨rfl, rfl⟩
theorem test_witness_AddressBytesAreBigEndian :
    ((0xFFFFFF#32).toNat < 2 ^ 24 ∧ (0#32).toNat < 2 ^ 24) ∧
      (∃ f, encode 0x20 (.read (wireAddr 0xFFFFFF) 1) = .frame f) ∧ (∃ f, encode 0x20 (.pp (wireAddr 0) [0]) = .frame f) ∧
      (∃ f, encode 0x20 (.se (wireAddr 0xFFFFFF)) = .frame f) ∧
      ∀ r ∈ [(⟨4, 0xFFFFFF, 1, []⟩ : Request), ⟨5, 0, 1, [0]⟩, ⟨6, 0xFFFFFF, 0, []⟩],
        (mid .cmdWrite r [.ok none]).reg.phase = .cmdWrite ∧ (mid .cmdWrite r [.ok none]).answer = .ok none :=
  ⟨by decide, ⟨_, rfl⟩, ⟨_, rfl⟩, ⟨_, rfl⟩, by decide⟩
/-- An unknown opcode, a wrong length (log entry 20), the empty frame. -/
theorem test_witness_FrameThatIsNoCommandSetsHazard :
    ∀ q ∈ [((⟨[0x07], 1⟩ : Frame), DecodeError.unknownOpcode 0x07), (⟨[0x02, 0xFF, 0xFF, 0xFF], 0⟩, .frameLength 0x02),
        (⟨[], 0⟩, .emptyFrame)],
      let s := moves [.frame q.1] s0
      s.cfg.allowed = true ∧ s.event = .frame q.1 ∧ s.reg.phase = .idle ∧ s.bus.line s.cfg.chipSlot = none ∧
        decodeFrame s.cfg.eraseOpcode q.1 = .error q.2 := by
  simp only [List.forall_mem_cons]
  exact ⟨⟨by decide, rfl, rfl, rfl, rfl⟩, ⟨by decide, rfl, rfl, rfl, rfl⟩, ⟨by decide, rfl, rfl, rfl, rfl⟩, by simp⟩
theorem test_witness_BlockResetUnbindsAndSendsNothing :
    let s := moves [.reset] s0
    let u := moves [.reset] (mid .dataRead ⟨1, 0, 0, []⟩ [])
    (s.cfg.allowed = true ∧ s.event = .reset ∧ s.reg.phase = .idle) ∧
      (u.cfg.allowed = true ∧ u.event = .reset ∧ u.reg.phase = .dataRead) := by decide
theorem test_witness_StepRunsTheDecodedInstruction :
    let s := waiting [⟨0, 0, 0, []⟩] unbound
    let u := mid .dataWrite ⟨5, 0, 1, [0]⟩ []
    let v := moves [.frame ⟨[0x05], 1⟩] s0
    let w := moves [.frame ⟨[0x05], 1⟩] u
    let o := leftOpen []
    let x := moves [.frame ⟨[0x05], 0⟩] (onChip busyChip { s0 with bus := ⟨0, [(0, o)], []⟩ })
    (s.cfg.allowed = true ∧ s.event = .block ∧ s.ready = true ∧ s.port.waiting = [⟨0, 0, 0, []⟩] ∧
        decodeRequest ⟨0, 0, 0, []⟩ = .ok (.bind 0 0)) ∧
      (u.cfg.allowed = true ∧ u.event = .block ∧ u.reg.phase ≠ .idle ∧
        decodeRequest (latchedRequest u) = .ok (.pageProgram 0 1 [0])) ∧
      (v.cfg.allowed = true ∧ v.event = .frame ⟨[0x05], 1⟩ ∧ v.reg.phase = .idle ∧
        v.bus.line v.cfg.chipSlot = none ∧
        decodeFrame v.cfg.eraseOpcode ⟨[0x05], 1⟩ = .ok .rdsr) ∧
      (w.cfg.allowed = true ∧ w.event = .frame ⟨[0x05], 1⟩ ∧ w.reg.phase ≠ .idle) ∧
      (x.cfg.allowed = true ∧ x.event = .frame ⟨[0x05], 0⟩ ∧ x.reg.phase = .idle ∧
        x.bus.line x.cfg.chipSlot = some o ∧ FrameBreaksARule x (o.push [0x05]) 0) :=
  ⟨⟨by decide, rfl, rfl, rfl, rfl⟩, ⟨by decide, rfl, by decide, rfl⟩, ⟨by decide, rfl, rfl, rfl, rfl⟩,
    ⟨by decide, rfl, by decide⟩, by decide, rfl, rfl, rfl, .inr (.inl ⟨_, rfl⟩)⟩
theorem test_witness_BlockWaitsForRequestAndForTake :
    let u : State := { s0 with reg := { s0.reg with resp := some ⟨.ok, .idle, 0, []⟩ } }
    (s0.cfg.allowed = true ∧ s0.reg.phase = .idle ∧ s0.event = .block ∧ s0.port.waiting = []) ∧
      (u.cfg.allowed = true ∧ u.reg.phase = .idle ∧ u.event = .block ∧ u.reg.resp ≠ none) ∧
      (moves [.take] u).event = .take := by decide
theorem test_witness_ParametersAreCheckedAndNeverChange :
    ({ Params.vectors with eraseOpcode := 0x9F }).eraseOpcode = 0x9F#8 ∧ ∃ t, step s0 = .next t := ⟨rfl, _, rfl⟩
theorem test_witness_MalformedRequestIsRefused :
    let r : Request := ⟨5, 0, 1, []⟩
    let q : Request := ⟨4, 0, 0, [0]⟩
    ((r.op = 5#4 ∧ r.payload.length ≠ r.arg1.toNat) ∧ (q.op ≠ 5#4 ∧ q.payload ≠ []) ∧
      (moves [.request r] s0).cfg.allowed = true ∧ (moves [.request r] s0).event = .request r ∧
      (waiting [q] s0).event = .block ∧ (waiting [q] s0).ready = true ∧ (waiting [q] s0).port.waiting = [q]) ∧
    ∀ w ∈ [(⟨5, 0, 1, [0]⟩ : Request), ⟨5, 0, 0, []⟩, ⟨15, 0, 0xFFFFFFFF, []⟩],
      (moves [.request w] s0).cfg.allowed = true ∧ (moves [.request w] s0).event = .request w ∧
        (w.op = 5#4 → w.payload.length = w.arg1.toNat) ∧ (w.op ≠ 5#4 → w.payload = []) := by decide
theorem test_witness_BindBindsOrReportsConfigError :
    (unbound.ready = true ∧ unbound.reg.bound = false ∧ (0#32).toNat < unbound.cfg.numSlots ∧
        (0#32).toNat ∈ unbound.cfg.boundSlots) ∧
      (unbound.ready = true ∧ unbound.cfg.numSlots ≤ (1#32).toNat ∧ (1#32).toNat ∉ unbound.cfg.boundSlots) ∧
      (s0.ready = true ∧ s0.reg.bound = true) := by decide
theorem test_witness_ReservedRequestGetsIllegalOp : unbound.ready = true ∧ s0.ready = true := by decide
theorem test_witness_ConfigErrorIsRaisedForItsCauses :
    (unbound.ready = true ∧ unbound.cfg.numSlots ≤ (0xFFFFFFFF#32).toNat ∧
        (0xFFFFFFFF#32).toNat ∉ unbound.cfg.boundSlots) ∧
      (s0.ready = true ∧ s0.reg.bound = true) ∧
      ∀ p ∈ requests, IsRequest p.1 p.2 ∧ 1 ≤ p.2.op.toNat ∧ p.2.op.toNat ≤ 7 ∧ unbound.ready = true ∧
        unbound.reg.bound = false :=
  ⟨by decide, by decide, fun p hp => ⟨requests_are p hp, (by decide : ∀ p ∈ requests, 1 ≤ p.2.op.toNat ∧
    p.2.op.toNat ≤ 7 ∧ unbound.ready = true ∧ unbound.reg.bound = false) p hp⟩⟩
theorem test_witness_AddressAbove24BitsIsRejected :
    ∀ p ∈ invalidRequests, IsRequest p.1 p.2 ∧ (p.2.op = 4#4 ∨ p.2.op = 5#4 ∨ p.2.op = 6#4) ∧ s0.ready = true ∧
      s0.reg.bound = true ∧ 2 ^ 24 ≤ p.2.arg0.toNat :=
  fun p hp => ⟨invalidRequests_are p hp, (by decide : ∀ p ∈ invalidRequests, (p.2.op = 4#4 ∨ p.2.op = 5#4 ∨
    p.2.op = 6#4) ∧ s0.ready = true ∧ s0.reg.bound = true ∧ 2 ^ 24 ≤ p.2.arg0.toNat) p hp⟩
theorem test_witness_WaitReadyOfZeroTimesOut : s0.ready = true ∧ s0.reg.bound = true := by decide
theorem test_witness_AcceptedRequestIsLatched :
    ∀ p ∈ requests, IsRequest p.1 p.2 ∧ 1 ≤ p.2.op.toNat ∧ p.2.op.toNat ≤ 7 ∧ s0.ready = true ∧ s0.reg.bound = true ∧
      ((p.2.op = 4#4 ∨ p.2.op = 5#4 ∨ p.2.op = 6#4) → p.2.arg0.toNat < 2 ^ 24) ∧ (p.2.op = 7#4 → p.2.arg1 ≠ 0#32) :=
  fun p hp => ⟨requests_are p hp, (by decide : ∀ p ∈ requests, 1 ≤ p.2.op.toNat ∧ p.2.op.toNat ≤ 7 ∧ s0.ready = true ∧
    s0.reg.bound = true ∧ ((p.2.op = 4#4 ∨ p.2.op = 5#4 ∨ p.2.op = 6#4) → p.2.arg0.toNat < 2 ^ 24) ∧
    (p.2.op = 7#4 → p.2.arg1 ≠ 0#32)) p hp⟩
theorem test_witness_FirstCallSelectsTheBoundSlot :
    ∀ p ∈ requests, IsRequest p.1 p.2 ∧ 1 ≤ p.2.op.toNat ∧ p.2.op.toNat ≤ 7 ∧
      (mid .select p.2 [.ok none]).reg.phase = .select ∧ (mid .select p.2 [.ok none]).answer = .ok none :=
  fun p hp => ⟨requests_are p hp, (by decide : ∀ p ∈ requests, 1 ≤ p.2.op.toNat ∧ p.2.op.toNat ≤ 7 ∧
    (mid .select p.2 [.ok none]).reg.phase = .select ∧ (mid .select p.2 [.ok none]).answer = .ok none) p hp⟩
theorem test_witness_ReadIdentityReturnsTheThreeBytes :
    let r : Request := ⟨1, 0, 0, []⟩
    let s := fun c => onChip c (mid .cmdWrite r [.ok none])
    let u := mid .dataRead r [.ok (some [0xFF, 0x00, 0xFF])]
    let v := fun c sb => onChip c (mid .dataRead r [.ok none] (some (.start sb [0x9F])))
    ((∀ c, (s c).answer = .ok none ∧ (s c).reg.phase = .cmdWrite ∧ ClosedLine (s c)) ∧ (s chip0).chip.busy = none ∧
        (s busyChip).chip.busy ≠ none) ∧
      (u.reg.phase = .dataRead ∧ u.answer = .ok (some [0xFF, 0x00, 0xFF])) ∧
      (∀ c sb, (v c sb).reg.phase = .dataRead ∧ (v c sb).answer = .ok none ∧ FrameOn sb [0x9F] (v c sb)) ∧
      (v chip0 false).chip.busy = none ∧ BusyInFrame false (v busyChip false) ∧ BusyInFrame true (v chip0 true) :=
  ⟨⟨fun c => ⟨rfl, rfl, closed c _ _ _⟩, rfl, by decide⟩, by decide, fun c sb => ⟨rfl, rfl, frameOn c _ _ _ sb _⟩, rfl,
    .inr (by decide), .inl rfl⟩
theorem test_witness_ReadStatusReturnsTheByte :
    let r : Request := ⟨2, 0, 0, []⟩
    let s := fun c => onChip c (mid .statusCmd r [.ok none])
    let u := mid .statusRead r [.ok (some [0xFF])]
    let v := fun c sb => onChip c (mid .statusRead r [.ok none] (some (.start sb [0x05])))
    (∀ c, (s c).answer = .ok none ∧ (s c).reg.phase = .statusCmd ∧ ClosedLine (s c)) ∧
      (u.reg.phase = .statusRead ∧ u.answer = .ok (some [0xFF])) ∧
      ∀ c sb, (v c sb).reg.phase = .statusRead ∧ (v c sb).answer = .ok none ∧ FrameOn sb [0x05] (v c sb) :=
  ⟨fun c => ⟨rfl, rfl, closed c _ _ _⟩, by decide, fun c sb => ⟨rfl, rfl, frameOn c _ _ _ sb _⟩⟩
theorem test_witness_WriteEnableSendsOneByte :
    let s := fun c => onChip c (mid .wrenWrite ⟨3, 0, 0, []⟩ [.ok none])
    (∀ c, (s c).reg.phase = .wrenWrite ∧ (s c).answer = .ok none ∧ ClosedLine (s c)) ∧
      (s chip0).chip.busy = none ∧ (s chip0).answered.env.bit = true ∧ (s busyChip).chip.busy ≠ none :=
  ⟨fun c => ⟨rfl, rfl, closed c _ _ _⟩, rfl, rfl, by decide⟩
theorem test_witness_ReadDataReturnsExactlyTheBytes :
    let r : Request := ⟨4, 0xFFFFFF, 1, []⟩
    let s := fun c => onChip c (mid .cmdWrite r [.ok none])
    let u := mid .dataRead r [.ok (some [0x77])]
    let v := fun c sb => onChip c (mid .dataRead r [.ok none] (some (.start sb (0x03 :: encAddr (wireAddr 0xFFFFFF)))))
    ((0xFFFFFF#32).toNat < 2 ^ 24 ∧ (∀ c, (s c).answer = .ok none ∧ (s c).reg.phase = .cmdWrite ∧ ClosedLine (s c)) ∧
        (s chip0).chip.busy = none ∧ (s busyChip).chip.busy ≠ none) ∧
      (u.answer = .ok (some [0x77]) ∧ u.reg.phase = .dataRead ∧ [0x77#8].length = (1#32).toNat) ∧
      (2 ^ 24 ≤ (0x1000000#32).toNat ∧ s0.ready = true ∧ s0.reg.bound = true) ∧
      (∀ c sb, (v c sb).reg.phase = .dataRead ∧ (v c sb).answer = .ok none ∧
        FrameOn sb (0x03 :: encAddr (wireAddr 0xFFFFFF)) (v c sb)) ∧
      ((v chip0 false).chip.busy = none ∧ (v chip0 false).cfg.readWrap = none ∧
        (0xFFFFFF#32).toNat + 0 < (v chip0 false).cfg.flashSize) ∧
      BusyInFrame false (v busyChip false) ∧ BusyInFrame true (v chip0 true) :=
  ⟨⟨by decide, fun c => ⟨rfl, rfl, closed c _ _ _⟩, rfl, by decide⟩, by decide, by decide,
    fun c sb => ⟨rfl, rfl, frameOn c _ _ _ sb _⟩, by decide, .inr (by decide), .inl rfl⟩
/-- On a line an error has left open with `[0x05, 0x05]` every end of the frame breaks a rule, whatever the call. -/
theorem test_witness_calls_that_end_an_open_frame :
    ∀ q ∈ [(Phase.dataRead, (⟨1, 0, 0, []⟩ : Request)), (.statusRead, ⟨2, 0, 0, []⟩), (.wrenWrite, ⟨3, 0, 0, []⟩),
        (.dataRead, ⟨4, 0, 1, []⟩), (.wrenWrite, ⟨5, 0, 1, [0]⟩), (.statusRead, ⟨5, 0, 1, [0]⟩),
        (.dataWrite, ⟨5, 0, 1, [0]⟩), (.wrenWrite, ⟨6, 0, 0, []⟩), (.statusRead, ⟨6, 0, 0, []⟩),
        (.cmdWrite, ⟨6, 0, 0, []⟩), (.statusRead, ⟨7, 0, 1, []⟩)],
      let o := leftOpen [0x05, 0x05]
      let s := mid q.1 q.2 [.ok none] (some o)
      s.reg.phase = q.1 ∧ s.answer = .ok none ∧ s.bus.target.toNat = s.cfg.chipSlot ∧ s.bus.frame = some o ∧
        ∀ n bs, FrameBreaksARule s o n ∧ FrameBreaksARule s (o.push bs) n :=
  fun q _ => ⟨rfl, rfl, rfl, rfl, fun n bs => ⟨.inr (.inl ⟨.frameLength 0x05, by simp [decodeFrame, leftOpen]⟩),
    .inr (.inl ⟨.frameLength 0x05, by simp [decodeFrame, leftOpen, OpenFrame.push]⟩)⟩⟩
/-- Every clause of `FrameBreaksARule`: bytes out after bytes in; no frame; a read on a busy chip; a program with the latch
clear, beyond the array, across its page; an erase with the latch clear, beyond the array. -/
theorem test_witness_FrameBreaksARule :
    let s := fun c => onChip c s0
    let small := { s readyChip with cfg := { Params.vectors with flashSize := 0x100 } }
    FrameBreaksARule s0 ⟨false, false, [], 0, true⟩ 0 ∧ FrameBreaksARule s0 (leftOpen []) 0 ∧
      FrameBreaksARule (s busyChip) (leftOpen [0x9F]) 3 ∧
      FrameBreaksARule (s chip0) (leftOpen [0x02, 0, 0, 0, 0]) 0 ∧ FrameBreaksARule small (leftOpen [0x02, 0, 1, 0, 0]) 0 ∧
      FrameBreaksARule (s readyChip) (leftOpen [0x02, 0, 0, 0xFF, 0, 0]) 0 ∧
      FrameBreaksARule (s chip0) (leftOpen [0x20, 0, 0, 0]) 0 ∧ FrameBreaksARule small (leftOpen [0x20, 0, 1, 0]) 0 :=
  ⟨.inl rfl, .inr (.inl ⟨_, rfl⟩), .inr (.inr (.inl ⟨.inr (by decide), by decide⟩)),
    .inr (.inr (.inr (.inl ⟨_, _, rfl, .inl rfl⟩))), .inr (.inr (.inr (.inl ⟨_, _, rfl, .inr (.inl (by decide))⟩))),
    .inr (.inr (.inr (.inl ⟨_, _, rfl, .inr (.inr (by decide))⟩))), .inr (.inr (.inr (.inr ⟨_, rfl, .inl rfl⟩))),
    .inr (.inr (.inr (.inr ⟨_, rfl, .inr (by decide)⟩)))⟩
/-- A page_program, one of no bytes, a sector_erase. -/
theorem test_witness_GatingReadsStatusAndTestsWel :
    ∀ q ∈ [(Instr.pageProgram 0 1 [0], (⟨5, 0, 1, [0]⟩ : Request)), (.pageProgram 0 0 [], ⟨5, 0, 0, []⟩),
        (.sectorErase 0xFFFFFF 0, ⟨6, 0xFFFFFF, 0, []⟩)],
    let w := fun c => onChip c (mid .wrenWrite q.2 [.ok none])
    let x := fun c => onChip c (mid .statusCmd q.2 [.ok none])
    let v := fun c sb => onChip c (mid .statusRead q.2 [.ok none] (some (.start sb [0x05])))
    let y := fun b => mid .statusRead q.2 [.ok (some [b])]
    (∃ a n d, q.1 = .pageProgram a n d ∨ q.1 = .sectorErase a n) ∧
      ((∀ c, (w c).reg.phase = .wrenWrite ∧ (w c).answer = .ok none ∧ ClosedLine (w c)) ∧ (w chip0).chip.busy = none ∧
        (w busyChip).chip.busy ≠ none) ∧
      (∀ c, (x c).reg.phase = .statusCmd ∧ (x c).answer = .ok none ∧ ClosedLine (x c)) ∧
      ((y 0xFD).reg.phase = .statusRead ∧ (y 0xFD).answer = .ok (some [0xFD]) ∧ (0xFD#8).getLsbD 1 = false) ∧
      ((y 0x02).reg.phase = .statusRead ∧ (y 0x02).answer = .ok (some [0x02]) ∧ (0x02#8).getLsbD 1 = true) ∧
      ∀ c sb, (v c sb).reg.phase = .statusRead ∧ (v c sb).answer = .ok none ∧ FrameOn sb [0x05] (v c sb) := by
  intro q hq
  refine ⟨?_, ⟨fun c => ⟨rfl, rfl, closed c _ _ _⟩, rfl, Option.some_ne_none _⟩, fun c => ⟨rfl, rfl, closed c _ _ _⟩,
    ⟨rfl, rfl, by decide⟩, ⟨rfl, rfl, by decide⟩, fun c sb => ⟨rfl, rfl, frameOn c _ _ _ sb _⟩⟩
  simp only [List.mem_cons, List.not_mem_nil, or_false] at hq
  rcases hq with rfl | rfl | rfl
  · exact ⟨_, _, _, .inl rfl⟩
  · exact ⟨_, _, _, .inl rfl⟩
  · exact ⟨_, _, [], .inr rfl⟩

/-- The two ends of a gating with WEL = 1: `N` = 0, and the others. -/
theorem test_witness_GatingReadsStatusAndTestsWel_ends :
    Instr.pageProgram 0 0 [] = .pageProgram 0 0#32 [] ∧ Instr.pageProgram 0 1 [0] ≠ .pageProgram 0 0#32 [0] ∧
      Instr.sectorErase 0 0 ≠ .pageProgram 0 0#32 [] := by decide
theorem test_witness_PageProgramSendsAddressThenPayload :
    let r : Request := ⟨5, 0xFFFFFF, 1, [0]⟩
    let cmd : List Byte := 0x02 :: encAddr (wireAddr r.arg0)
    let w := fun c => onChip c (mid .cmdWrite r [.ok none])
    let v := fun c sb => onChip c (mid .dataWrite r [.ok none] (some (.start sb cmd)))
    ((mid .statusRead ⟨5, 0, 0, []⟩ [.ok (some [0x03])]).reg.phase = .statusRead ∧
        (mid .statusRead ⟨5, 0, 0, []⟩ [.ok (some [0x03])]).answer = .ok (some [0x03]) ∧ (0x03#8).getLsbD 1 = true) ∧
      ((mid .statusRead r [.ok (some [0x02])]).reg.phase = .statusRead ∧
        (mid .statusRead r [.ok (some [0x02])]).answer = .ok (some [0x02]) ∧ (0x02#8).getLsbD 1 = true ∧ r.arg1 ≠ 0) ∧
      ((∀ c, (w c).reg.phase = .cmdWrite ∧ (w c).answer = .ok none ∧ ClosedLine (w c)) ∧ (w chip0).chip.busy = none ∧
        (w busyChip).chip.busy ≠ none) ∧
      (∀ c sb, (v c sb).reg.phase = .dataWrite ∧ (v c sb).answer = .ok none ∧ FrameOn sb cmd (v c sb)) ∧
      ([0#8] ≠ [] ∧ (v readyChip false).chip.busy = none ∧ (v readyChip false).chip.wel = true ∧
        (wireAddr r.arg0).toNat < (v readyChip false).cfg.flashSize) ∧
      BusyInFrame false (v busyChip false) ∧ BusyInFrame true (v readyChip true) :=
  ⟨by decide, by decide, ⟨fun c => ⟨rfl, rfl, closed c _ _ _⟩, rfl, by decide⟩,
    fun c sb => ⟨rfl, rfl, frameOn c _ _ _ sb _⟩, by decide, .inr (by decide), .inl rfl⟩
theorem test_witness_SectorEraseSendsTheAddressUnmasked :
    let r : Request := ⟨6, 0xFFFFFF, 0, []⟩
    let s := fun c => onChip c (mid .cmdWrite r [.ok none])
    ((mid .statusRead r [.ok (some [0x02])]).reg.phase = .statusRead ∧
        (mid .statusRead r [.ok (some [0x02])]).answer = .ok (some [0x02]) ∧ (0x02#8).getLsbD 1 = true) ∧
      (∀ c, (s c).reg.phase = .cmdWrite ∧ (s c).answer = .ok none ∧ ClosedLine (s c)) ∧
      ((s readyChip).cfg.allowed = true ∧ (s readyChip).chip.busy = none ∧ (s readyChip).chip.wel = true ∧
        (wireAddr r.arg0).toNat < (s readyChip).cfg.flashSize) ∧ (s busyChip).chip.busy ≠ none :=
  ⟨by decide, fun c => ⟨rfl, rfl, closed c _ _ _⟩, by decide, by decide⟩
theorem test_witness_WaitReadyPollsUntilReadyOrBound :
    let r : Request := ⟨7, 0, 1, []⟩
    let v := fun c sb => onChip c (mid .statusRead r [.ok none] (some (.start sb [0x05])))
    let w := fun c => onChip c (mid .statusCmd r [.ok none])
    (∀ c, (w c).reg.phase = .statusCmd ∧ (w c).answer = .ok none ∧ ClosedLine (w c)) ∧
      ((mid .statusRead r [.ok (some [0x00])]).reg.phase = .statusRead ∧
        (mid .statusRead r [.ok (some [0x00])]).answer = .ok (some [0x00]) ∧ (0x00#8).getLsbD 0 = false) ∧
      ((mid .statusRead r [.ok (some [0x01])]).answer = .ok (some [0x01]) ∧ (0x01#8).getLsbD 0 = true ∧
        (mid .statusRead r [.ok (some [0x01])]).reg.polls + 1 = 1 ∧
        (mid .statusRead ⟨7, 0, 2, []⟩ [.ok (some [0x01])]).reg.polls + 1 ≠ 2) ∧
      (∀ c sb, (v c sb).reg.phase = .statusRead ∧ (v c sb).answer = .ok none ∧ FrameOn sb [0x05] (v c sb)) ∧
      (v chip0 false).chip.busy = none ∧ (v busyChip true).chip.busy ≠ none ∧ (v busyChip true).reg.polls + 1#32 = 1#32 ∧
      (v busyChip true).reg.polls + 1#32 ≠ 2#32 :=
  ⟨fun c => ⟨rfl, rfl, closed c _ _ _⟩, by decide, by decide, fun c sb => ⟨rfl, rfl, frameOn c _ _ _ sb _⟩, rfl, by decide,
    rfl, by decide⟩
theorem test_witness_FailedCallEndsWithTransportError :
    ∀ p ∈ requests, IsRequest p.1 p.2 ∧ ∀ q ∈ callPhases p.2.op, (mid q p.2 [.err]).reg.phase ∈ callPhases p.2.op ∧
      (mid q p.2 [.err]).answer = .err :=
  fun p hp => ⟨requests_are p hp, fun _ hq => ⟨hq, rfl⟩⟩
theorem test_witness_OperationOutsideItsPhasesFaults :
    ∀ p ∈ requests, IsRequest p.1 p.2 ∧ (p.2.op ≠ 5#4 → (mid .dataWrite p.2 []).reg.phase ≠ .idle ∧
      (mid .dataWrite p.2 []).reg.phase ∉ callPhases p.2.op) ∧
      (p.2.op = 5#4 → (mid .dataRead p.2 []).reg.phase ∉ callPhases p.2.op) :=
  fun p hp => ⟨requests_are p hp, (by decide : ∀ p ∈ requests, (p.2.op ≠ 5#4 → (mid .dataWrite p.2 []).reg.phase ≠ .idle ∧
    (mid .dataWrite p.2 []).reg.phase ∉ callPhases p.2.op) ∧
    (p.2.op = 5#4 → (mid .dataRead p.2 []).reg.phase ∉ callPhases p.2.op)) p hp⟩
theorem test_witness_CallWithoutAnswerKeepsThePhase :
    ∀ p ∈ requests, IsRequest p.1 p.2 ∧ ∀ q ∈ callPhases p.2.op, (mid q p.2 [.silent]).reg.phase ∈ callPhases p.2.op ∧
      (mid q p.2 [.silent]).answer = .silent :=
  fun p hp => ⟨requests_are p hp, fun _ hq => ⟨hq, rfl⟩⟩

/-- A state in which whole operations run: the requests `rs` wait, the moves and answers are chosen. -/
def ready (rs : List Request) (evs : List Event) (as : List Answer) : State :=
  { s0 with port := ⟨rs, []⟩, env := { s0.env with sched := evs, answers := as } }

theorem test_witness_PageProgramWholeTrace :
    let as : List Answer := [.ok none, .ok none, .ok none, .ok (some [0x02]), .ok none, .ok none]
    let s := ready [⟨5, 0xFFFFFF, 1, [0x55]⟩] (List.replicate 7 .block) as
    s.cfg.allowed = true ∧ s.ready = true ∧ s.reg.bound = true ∧ s.port.waiting = [⟨5, 0xFFFFFF, 1, [0x55]⟩] ∧
      [0x55#8].length = (1#32).toNat ∧ (1#32 ≠ 0#32) ∧ (0xFFFFFF#32).toNat < 2 ^ 24 ∧ (0x02#8).getLsbD 1 = true ∧
      BlockMoves 7 s ∧ Answers as s :=
  ⟨by decide, by decide, rfl, rfl, rfl, by decide, by decide, rfl, ⟨[], rfl⟩, [], rfl⟩
theorem test_witness_GateFailureWholeTrace :
    let as : List Answer := [.ok none, .ok none, .ok none, .ok (some [0xFD])]
    let r : Request := ⟨6, 0xFFFFFF, 0, []⟩
    let s := ready [r] (List.replicate 5 .block) as
    s.cfg.allowed = true ∧ s.ready = true ∧ s.reg.bound = true ∧ s.port.waiting = [r] ∧ r.wellFormed = true ∧
      (r.op = 5#4 ∨ r.op = 6#4) ∧ r.arg0.toNat < 2 ^ 24 ∧ (0xFD#8).getLsbD 1 = false ∧ BlockMoves 5 s ∧ Answers as s :=
  ⟨by decide, by decide, rfl, rfl, rfl, by decide, by decide, rfl, ⟨[], rfl⟩, [], rfl⟩
theorem test_witness_ReadIdentityOfTheReferenceChip :
    let s := ready [⟨1, 0, 0, []⟩] (List.replicate 4 .block) (List.replicate 3 (.ok none))
    s.cfg.allowed = true ∧ s.ready = true ∧ s.reg.bound = true ∧ s.port.waiting = [⟨1, 0, 0, []⟩] ∧
      s.reg.handle.toNat = s.cfg.chipSlot ∧ s.bus.line s.cfg.chipSlot = none ∧ s.chip.busy = none ∧ BlockMoves 4 s ∧
      Answers (List.replicate 3 (.ok none)) s :=
  ⟨by decide, by decide, rfl, rfl, rfl, rfl, rfl, ⟨[], rfl⟩, [], rfl⟩
/-- PP-RT at the top of the array, in the last byte of its page. -/
theorem test_witness_PageProgramThenReadDataReturnsTheData :
    let evs : List Event := List.replicate 7 .block ++ [.take, .complete] ++ List.replicate 4 .block ++ [.take] ++
      List.replicate 4 .block
    let rs : List Request := [⟨5, 0xFFFFFF, 1, [0x55]⟩, ⟨7, 0, 1, []⟩, ⟨4, 0xFFFFFF, 1, []⟩]
    let s := ready rs evs (List.replicate 12 (.ok none))
    s.cfg.allowed = true ∧ s.ready = true ∧ s.reg.bound = true ∧ s.reg.handle.toNat = s.cfg.chipSlot ∧
      s.bus.line s.cfg.chipSlot = none ∧ s.chip.busy = none ∧ (s.chip.wel = true ∨ WriteEnableTakes s) ∧ s.cfg.readWrap = none ∧
      [0x55#8].length = (1#32).toNat ∧ 1#32 ≠ 0#32 ∧
      (0xFFFFFF#32).toNat % s.cfg.pageSize + (1#32).toNat ≤ s.cfg.pageSize ∧
      (0xFFFFFF#32).toNat + (1#32).toNat ≤ s.cfg.flashSize ∧
      (∀ i < (1#32).toNat, s.chip.mem.read ((0xFFFFFF#32).toNat + i) = 0xFF#8) ∧ s.port.waiting = rs ∧ Moves evs s ∧
      Answers (List.replicate 12 (.ok none)) s :=
  ⟨by decide, by decide, rfl, rfl, rfl, rfl, .inr ⟨1, _, rfl, rfl⟩, rfl, rfl, by decide, by decide, by decide,
    fun _ _ => rfl, rfl, ⟨[], rfl⟩, [], rfl⟩
/-- SE-RT: the last byte of the sector of SE-3. -/
theorem test_witness_SectorEraseThenReadDataReturnsOnes :
    let evs : List Event := List.replicate 6 .block ++ [.take, .complete] ++ List.replicate 4 .block ++ [.take] ++
      List.replicate 4 .block
    let rs : List Request := [⟨6, 0xFFF001, 0, []⟩, ⟨7, 0, 1, []⟩, ⟨4, 0xFFFFFF, 1, []⟩]
    let s := ready rs evs (List.replicate 11 (.ok none))
    s.cfg.allowed = true ∧ s.ready = true ∧ s.reg.bound = true ∧ s.reg.handle.toNat = s.cfg.chipSlot ∧
      s.bus.line s.cfg.chipSlot = none ∧ s.chip.busy = none ∧ (s.chip.wel = true ∨ WriteEnableTakes s) ∧ s.cfg.readWrap = none ∧
      (0xFFF001#32).toNat < s.cfg.flashSize ∧
      (0xFFF001#32).toNat - (0xFFF001#32).toNat % s.cfg.sectorSize ≤ (0xFFFFFF#32).toNat ∧
      (0xFFFFFF#32).toNat + (1#32).toNat ≤
        (0xFFF001#32).toNat - (0xFFF001#32).toNat % s.cfg.sectorSize + s.cfg.sectorSize ∧
      (0xFFFFFF#32).toNat < s.cfg.flashSize ∧ (0xFFFFFF#32).toNat + (1#32).toNat ≤ s.cfg.flashSize ∧ 1#32 ≠ 0#32 ∧
      s.port.waiting = rs ∧ Moves evs s ∧ Answers (List.replicate 11 (.ok none)) s :=
  ⟨by decide, by decide, rfl, rfl, rfl, rfl, .inr ⟨1, _, rfl, rfl⟩, rfl, by decide, by decide, by decide,
    by decide, by decide, by decide, rfl, ⟨[], rfl⟩, [], rfl⟩
theorem test_witness_WaitReadyAlwaysTerminates :
    let as : List Answer := [.ok none, .ok none, .err]
    let s := ready [⟨7, 0, 1, []⟩] (List.replicate 4 .block) as
    s.cfg.allowed = true ∧ s.ready = true ∧ s.reg.bound = true ∧ s.port.waiting = [⟨7, 0, 1, []⟩] ∧ 1#32 ≠ 0#32 ∧
      BlockMoves (2 * (1#32).toNat + 2) s ∧ as.length = 2 * (1#32).toNat + 1 ∧ Answer.silent ∉ as ∧ Answers as s :=
  ⟨by decide, by decide, rfl, rfl, by decide, ⟨[], rfl⟩, rfl, by decide, [], rfl⟩
theorem test_witness_WaitReadyTimesOutAfterExactlyBound :
    let as : List Answer := .ok none :: ([0x01, 0xFF].flatMap fun x => [.ok none, .ok (some [x])])
    let s := ready [⟨7, 0, 2, []⟩] (List.replicate 6 .block) as
    s.cfg.allowed = true ∧ s.ready = true ∧ s.reg.bound = true ∧ s.port.waiting = [⟨7, 0, 2, []⟩] ∧
      [0x01#8].length + 1 = (2#32).toNat ∧ (∀ x ∈ [0x01#8] ++ [0xFF#8], x.getLsbD 0 = true) ∧
      BlockMoves (2 * (2#32).toNat + 2) s ∧ Answers as s :=
  ⟨by decide, by decide, rfl, rfl, rfl, by decide, ⟨[], rfl⟩, [], rfl⟩

/-- An operation of `r` in state `s` answers a next state with a response of the code `c`. -/
def Gives (s : State) (i : Instr) (r : Request) (c : ResultCode) : Prop :=
  IsRequest i r ∧ s.reg.resp = none ∧ ∃ t p, exec i s = .next t ∧ t.reg.resp = some p ∧ p.code = c

theorem gives_every_code :
    Gives (mid .dataRead ⟨4, 0, 1, []⟩ [.ok (some [0x5A])]) (.readData 0 1) ⟨4, 0, 1, []⟩ .ok ∧
      Gives (mid .select ⟨1, 0, 0, []⟩ [.err]) (.readIdentity 0 0) ⟨1, 0, 0, []⟩ .transportError ∧
      Gives s0 (.readData 0x1000000 1) ⟨4, 0x1000000, 1, []⟩ .invalidAddress ∧
      Gives (mid .statusRead ⟨6, 0, 0, []⟩ [.ok (some [0xFD])]) (.sectorErase 0 0) ⟨6, 0, 0, []⟩ .writeNotEnabled ∧
      Gives (mid .statusRead ⟨7, 0, 1, []⟩ [.ok (some [0x01])]) (.waitReady 0 1) ⟨7, 0, 1, []⟩ .timeout ∧
      Gives s0 (.waitReady 0 0) ⟨7, 0, 0, []⟩ .timeout ∧
      Gives unbound (.bind 1 0) ⟨0, 1, 0, []⟩ .configError ∧ Gives s0 (.reserved 7 0 0) ⟨15, 0, 0, []⟩ .illegalOp := by
  refine ⟨?_, ?_, ?_, ?_, ?_, ?_, ?_, ?_⟩ <;> exact ⟨⟨0x20, rfl⟩, rfl, _, _, rfl, rfl, rfl⟩

theorem test_witness_ResultCodesComeFromTheirOperations : ∃ s i r c, Gives s i r c := ⟨_, _, _, _, gives_every_code.1⟩
theorem test_witness_ResponseFieldsFollowTheirRules :
    (∃ s i r, Gives s i r .writeNotEnabled) ∧ (∃ s i r, Gives s i r .transportError) ∧ (∃ s i r, Gives s i r .timeout) ∧
      Gives (mid .dataRead ⟨1, 0, 0, []⟩ [.ok (some [1, 2, 3])]) (.readIdentity 0 0) ⟨1, 0, 0, []⟩ .ok ∧
      Gives (mid .dataRead ⟨4, 0, 2, []⟩ [.ok (some [1, 2])]) (.readData 0 2) ⟨4, 0, 2, []⟩ .ok ∧
      Gives (mid .statusRead ⟨2, 0, 0, []⟩ [.ok (some [1])]) (.readStatus 0 0) ⟨2, 0, 0, []⟩ .ok := by
  have h := gives_every_code
  refine ⟨⟨_, _, _, h.2.2.2.1⟩, ⟨_, _, _, h.2.1⟩, ⟨_, _, _, h.2.2.2.2.1⟩, ?_, ?_, ?_⟩ <;>
    exact ⟨⟨0x20, rfl⟩, rfl, _, _, rfl, rfl, rfl⟩
theorem test_witness_OnlyResetUnbinds : (∃ t, step s0 = .next t) ∧ s0.reg.bound = true ∧ s0.event ≠ .reset :=
  ⟨⟨_, rfl⟩, rfl, by decide⟩
theorem test_witness_HazardIsNeverCleared :
    let s := onChip { busyChip with hazard := true } (moves [.complete] s0)
    (∃ t, step s = .next t) ∧ s.chip.hazard = true := ⟨⟨_, rfl⟩, rfl⟩
theorem test_witness_IgnoredFieldsHaveNoEffect :
    let pairs : List ((Instr × Request) × (Instr × Request)) :=
      [((.bind 0 0, ⟨0, 0, 0, []⟩), (.bind 0 0xFFFFFFFF, ⟨0, 0, 0xFFFFFFFF, []⟩)),
        ((.readIdentity 0 0, ⟨1, 0, 0, []⟩), (.readIdentity 1 1, ⟨1, 1, 1, []⟩)),
        ((.readStatus 0 0, ⟨2, 0, 0, []⟩), (.readStatus 1 1, ⟨2, 1, 1, []⟩)),
        ((.writeEnable 0 0, ⟨3, 0, 0, []⟩), (.writeEnable 1 1, ⟨3, 1, 1, []⟩)),
        ((.sectorErase 7 0, ⟨6, 7, 0, []⟩), (.sectorErase 7 1, ⟨6, 7, 1, []⟩)),
        ((.waitReady 0 1, ⟨7, 0, 1, []⟩), (.waitReady 1 1, ⟨7, 1, 1, []⟩))]
    (∀ q ∈ pairs, (∃ t t', exec q.1.1 s0 = .next t ∧ exec q.2.1 s0 = .next t') ∧ IsRequest q.1.1 q.1.2 ∧
        IsRequest q.2.1 q.2.2) ∧
      s0.ready = true ∧
      (let u := { s0 with reg := { s0.reg with resp := some ⟨.ok, .idle, 0, []⟩ } }
       u.reg.phase = .idle ∧ u.ready = false ∧
        ∃ t t', exec (.waitReady 0 1) u = .next t ∧ exec (.waitReady 1 1) u = .next t') ∧
      (mid .statusRead ⟨7, 0, 1, []⟩ [.ok none]).reg.phase ≠ .idle ∧
      ∃ t t', exec (.waitReady 0 1) (mid .statusRead ⟨7, 0, 1, []⟩ [.ok none]) = .next t ∧
        exec (.waitReady 1 1) (mid .statusRead ⟨7, 0, 1, []⟩ [.ok none]) = .next t' := by
  refine ⟨?_, rfl, ⟨rfl, rfl, _, _, rfl, rfl⟩, by decide, _, _, rfl, rfl⟩
  simp only [List.forall_mem_cons]
  refine ⟨?_, ?_, ?_, ?_, ?_, ?_, by simp⟩ <;> exact ⟨⟨_, _, rfl, rfl⟩, ⟨0x20, rfl⟩, 0x20, rfl⟩
theorem test_witness_TransportWordSizeHasNoEffect : ∃ t, exec (.pp 0 [0]) s0 = .next t := ⟨_, rfl⟩
theorem test_witness_HostOperationFrame :
    IsRequest (.waitReady 0 1) ⟨7, 0, 1, []⟩ ∧
      ∃ t, exec (.waitReady 0 1) (mid .statusCmd ⟨7, 0, 1, []⟩ [.ok none]) = .next t ∧ t.reg.phase ≠ .idle :=
  ⟨⟨0x20, rfl⟩, _, rfl, by decide⟩
theorem test_witness_HostOperationMemoryFrame :
    let r : Request := ⟨4, 0xFFFFFF, 1, []⟩
    let s := mid .dataRead r [.ok none] (some (.start false [0x03, 0xFF, 0xFF, 0xFF]))
    let u := mid .select r [.ok none]
    IsRequest (.readData 0xFFFFFF 1) r ∧ (∃ t, exec (.readData 0xFFFFFF 1) s = .next t ∧ t.chip.hazard = false) ∧
      s.answer ≠ .err ∧ (∀ f, s.bus.frame = some f → f.known = true) ∧ FrameInv s ∧ latchedRequest s = r ∧
      (∃ t, exec (.readData 0xFFFFFF 1) s0 = .next t) ∧ s0.reg.phase = .idle ∧
      u.reg.phase = .select ∧ u.answer ≠ .err ∧ ∃ t, exec (.readData 0xFFFFFF 1) u = .next t :=
  ⟨⟨0x20, rfl⟩, ⟨_, rfl, by decide⟩, by decide, by rintro f ⟨⟩; rfl, one_line _ _ _ _ rfl, rfl, ⟨_, rfl⟩, rfl,
    rfl, by decide, _, rfl⟩
theorem test_witness_ChipCommandFrame :
    IsFrame (.pp 0xFFFFFF [0]) ∧ ∃ t, exec (.pp 0xFFFFFF [0]) (onChip readyChip s0) = .next t ∧ t.chip.hazard = false :=
  ⟨⟨0x20, _, rfl⟩, _, rfl, by decide⟩
/-- A program at the top of the array, a crossing program, an erase of the last sector. -/
theorem test_witness_CompletionEndsAndWritesOnlyItsBytes :
    let s := fun b => moves [.complete] (onChip { busyChip with busy := some b } s0)
    (∀ b ∈ [Pending.prog 0xFFFFFF [0x55], .prog 0xFE [1, 2, 3], .erase 0xFFF000],
      (s b).cfg.allowed = true ∧ (s b).event = .complete ∧ (s b).chip.busy = some b) ∧
      0xFFFFFF % 256 + [0x55#8].length ≤ 256 ∧ [0x55#8][0]? = some 0x55 ∧ 0xFFFFFF + 0 < 16777216 ∧
      (∀ b, (s b).chip.mem.read 0xFFFFFF = 0xFF#8) ∧ 256 < 0xFE % 256 + [1#8, 2, 3].length ∧
      0xFFFFFF < 0xFFF000 + 4096 :=
  ⟨by decide, by decide, rfl, by decide, fun _ => rfl, by decide, by decide⟩
theorem test_witness_WriteEnableCommandSetsOrKeepsTheLatch :
    (s0.chip.busy = none ∧ s0.env.bit = true) ∧
      (({ s0 with env := { s0.env with draws := [0] } }).chip.busy = none ∧
        ({ s0 with env := { s0.env with draws := [0] } }).env.bit = false) ∧
      (onChip readyChip s0).chip.busy = none ∧ (onChip readyChip s0).chip.wel = true := by decide
theorem test_witness_ReadStatusCommandShowsWipAndWel :
    s0.chip.busy = none ∧
      ({ s0 with cfg := { Params.vectors with statusOpaque := some 0x3F } }).cfg.statusOpaque = some 0x3F := by decide
theorem test_witness_ReadCommandReturnsConsecutiveBytes :
    let table := [((0xFFFFFF, 1), 0)]
    let w : State := { s0 with cfg := { Params.vectors with readWrap := some table } }
    s0.chip.busy = none ∧ (s0.cfg.readWrap = none ∧ (0xFFFFFE#24).toNat + 1 < s0.cfg.flashSize) ∧
      (w.chip.busy = none ∧ w.cfg.readWrap = some table ∧
        table.find? (fun x => x.1 == ((0xFFFFFF#24).toNat, 1)) = some (((0xFFFFFF#24).toNat, 1), 0) ∧
        0 < w.cfg.flashSize) ∧
      table.find? (fun x => x.1 == ((0xFFFFFF#24).toNat, 0)) = none ∧ (0xFFFFFF#24).toNat + 0 < w.cfg.flashSize := by
  decide
theorem test_witness_ReadIdentityCommandReturnsTheConstant : s0.chip.busy = none := by decide
theorem test_witness_ProgramCommandStarts :
    let s := onChip readyChip s0
    ([0x55#8] ≠ [] ∧ s.chip.busy = none ∧ s.chip.wel = true ∧ (0xFFFFFF#24).toNat < s.cfg.flashSize) ∧
      (0xFFFFFF#24).toNat % s.cfg.pageSize + [0x55#8].length ≤ s.cfg.pageSize ∧
      s.cfg.pageSize < (0xFFFFFF#24).toNat % s.cfg.pageSize + [0x55#8, 0x66].length := by decide
theorem test_witness_EraseCommandStarts :
    let s := onChip readyChip s0
    s.chip.busy = none ∧ s.chip.wel = true ∧ (0xFFFFFF#24).toNat < s.cfg.flashSize := by decide
theorem test_witness_BrokenObligationSetsHazard :
    (onChip busyChip s0).chip.busy = some (.prog 0x100 [0xDE, 0xAD]) ∧ s0.chip.wel = false ∧
      ({ s0 with cfg := { Params.vectors with flashSize := 4096 } }).cfg.flashSize ≤ (0x001000#24).toNat := by decide
theorem test_witness_WriteEnableGatingIsKept :
    let r : Request := ⟨6, 0, 0, []⟩
    let s := { mid .cmdWrite r [.ok none] with trace := [.rd 1 (some [0x02]), .wc [0x05], .w [0x06]] }
    GatingInv s ∧ ∃ t, step s = .next t := ⟨⟨rfl, rfl⟩, _, rfl⟩
theorem test_witness_SequencerInvariantIsKept :
    let s := mid .dataWrite ⟨5, 0xFFFFFF, 1, [0]⟩ [.ok none]
    SequencerInv s ∧ ∃ t, step s = .next t := ⟨.inr (by decide), _, rfl⟩
theorem test_witness_CoherentStateNeverFaults : SequencerInv (mid .dataWrite ⟨5, 0xFFFFFF, 1, [0]⟩ []) :=
  .inr (by decide)
theorem test_witness_OpenFrameInvariantIsKept :
    let s := mid .statusRead ⟨2, 0, 0, []⟩ [.ok none] (some (.start false [0x05]))
    FrameInv s ∧ ∃ t, step s = .next t := ⟨one_line _ _ _ _ rfl, _, rfl⟩
theorem test_witness_ArrayInvariantIsKept :
    let s := moves [.complete] (onChip busyChip s0)
    ArrayInv s ∧ ∃ t, step s = .next t := ⟨⟨rfl, rfl⟩, _, rfl⟩

end Sys2Proof.Tests
end

section
/-! Facts every statement about all instructions starts from: an instruction is one of the chip's commands or a host
operation, and what each of the two kinds does in one form. -/
namespace Sys2Proof.Machine
open Sys2Proof.Claims

/-- The encoder's packet says which kind an instruction is (R91, R101). -/
theorem isFrame_or_isRequest (i : Instr) : IsFrame i ∨ ∃ r, IsRequest i r := by
  cases h : encode 0 i with
  | frame f => exact .inl ⟨0, f, h⟩
  | request r => exact .inr ⟨r, 0, h⟩

/-- One of the chip's commands runs one chip operation, which is legal, and does nothing else. -/
theorem exec_frame {i : Instr} (h : IsFrame i) :
    ∃ f : Params → Chip → Env → ChipOut, (∀ s, exec i s = .next (s.onChip f)) ∧ ∀ p c e, (f p c e).Legal c e := by
  obtain ⟨e, f, h⟩ := h
  cases i
  case rdsr => exact ⟨_, fun _ => rfl, chipRdsr_legal⟩
  case wren => exact ⟨_, fun _ => rfl, fun _ => chipWren_legal⟩
  case read a n => exact ⟨_, fun _ => rfl, fun p => chipRead_legal p a n⟩
  case pp a d =>
    refine ⟨_, fun _ => rfl, fun p c e => ?_⟩
    split
    · exact hazardOut_legal 0 c e
    · exact chipPp_legal p a d c e
  case rdid => exact ⟨_, fun _ => rfl, chipRdid_legal⟩
  case se a => exact ⟨_, fun _ => rfl, fun p => chipSe_legal p a⟩
  all_goals cases h

end Sys2Proof.Machine
end

section
/-! A step, by its move: the decoded instruction, the refusal and the frame on an open line (R9, R34, R100, R346). -/
namespace Sys2Proof.Machine
open Sys2Proof.Claims

/-- R11: with parameters inside the bounds, a step is the next move. -/
theorem step_eq_stepEvent {s : State} (ha : s.cfg.allowed = true) : step s = stepEvent s.event s.moved := if_pos ha

/-- R47: ready, field by field. -/
theorem State.ready_iff (s : State) : s.ready = true ↔ s.reg.phase = .idle ∧ s.reg.resp = none := by
  simp [State.ready]

/-- R100: when ready, FLASHCMD runs the first request that waits. -/
theorem blockStep_of_ready {s : State} {r : Request} {rs : List Request} {i : Instr} (hr : s.ready = true)
    (hw : s.port.waiting = r :: rs) (hd : decodeRequest r = .ok i) : blockStep s = exec i (popRequest s) := by
  obtain ⟨hp, hn⟩ := s.ready_iff.1 hr
  simp [blockStep, hp, hn, hw, hd]

/-- R34, R35: during an operation FLASHCMD runs the request the latches hold. -/
theorem blockStep_of_operation {s : State} {i : Instr} (hp : s.reg.phase ≠ .idle)
    (hd : decodeRequest (latchedRequest s) = .ok i) : blockStep s = exec i s := by
  unfold blockStep
  split
  · contradiction
  · rw [hd]

/-- A frame on an idle chip's closed line is the instruction it decodes to. -/
theorem frameStep_of_closed {s : State} {f : Frame} {i : Instr} (hp : s.reg.phase = .idle)
    (hl : s.bus.line s.cfg.chipSlot = none) (hd : decodeFrame s.cfg.eraseOpcode f = .ok i) :
    frameStep f s = exec i s := by
  simp [frameStep, hp, hl, hd]

/-- R346: no frame of another agent during an operation. -/
theorem frameStep_of_operation {s : State} (f : Frame) (hp : s.reg.phase ≠ .idle) :
    frameStep f s = .refused .interleavedFrame := by
  unfold frameStep
  split
  · contradiction
  · rfl

/-- A frame on the chip's line, left open, follows the open frame. -/
theorem frameStep_of_open {s : State} {o : OpenFrame} (f : Frame) (hp : s.reg.phase = .idle)
    (hl : s.bus.line s.cfg.chipSlot = some o) : frameStep f s = .next (frameOnOpenLine o f s) := by
  simp [frameStep, hp, hl]

/-- R260 to R262, R268, R270: the chip sets `hazard` at the end of every frame that breaks a rule. -/
theorem chipEnds_hazard_of_breaks {s : State} {o : OpenFrame} {n : Nat} (h : FrameBreaksARule s o n) (e : Env) :
    (chipEnds o n s.cfg s.chip e).chip.hazard = true := by
  rcases h with hm | hx | hb | ⟨a, d, hd, hc⟩ | hs
  · exact chipEnds_mixed hm n _ _ e
  all_goals refine chipEnds_hazard e (.inr fun e' => chipFrame_hazard e' ?_)
  · exact .inl hx
  · exact .inr (.inl hb)
  · have hpage : withinPage s.cfg a.toNat d.length = false ↔
        s.cfg.pageSize < a.toNat % s.cfg.pageSize + d.length := by simp [withinPage]
    exact .inr (.inr (.inl ⟨a, d, hd, by rwa [hpage]⟩))
  · exact .inr (.inr (.inr hs))

@[simp] theorem frameOnOpenLine_cfg (o : OpenFrame) (f : Frame) (s : State) : (frameOnOpenLine o f s).cfg = s.cfg := rfl
@[simp] theorem frameOnOpenLine_reg (o : OpenFrame) (f : Frame) (s : State) : (frameOnOpenLine o f s).reg = s.reg := rfl
@[simp] theorem frameOnOpenLine_port (o : OpenFrame) (f : Frame) (s : State) :
    (frameOnOpenLine o f s).port = s.port := rfl
@[simp] theorem frameOnOpenLine_trace (o : OpenFrame) (f : Frame) (s : State) :
    (frameOnOpenLine o f s).trace = s.trace := rfl

/-- R18: the frame ends on the chip's line, and every other line stays. -/
theorem frameOnOpenLine_line (o : OpenFrame) (f : Frame) (s : State) (h : Nat) :
    (frameOnOpenLine o f s).bus.line h = if h = s.cfg.chipSlot then none else s.bus.line h :=
  Bus.line_setLine s.bus s.cfg.chipSlot h none

@[simp] theorem frameOnOpenLine_rx_length (o : OpenFrame) (f : Frame) (s : State) :
    (frameOnOpenLine o f s).bus.rx.length = f.nIn := by
  simp [frameOnOpenLine]

/-- The whole frame sets `hazard` where it breaks a rule. -/
theorem frameOnOpenLine_hazard {o : OpenFrame} {f : Frame} {s : State} (h : FrameBreaksARule s (o.push f.sent) f.nIn) :
    (frameOnOpenLine o f s).chip.hazard = true :=
  chipEnds_hazard_of_breaks h s.env

/-- Settles O9: each clause is the move of its event. -/
theorem stepRunsTheDecodedInstruction : Obligations.StepRunsTheDecodedInstruction := by
  refine ⟨fun s r rs i ha he hr hw hd => ?_, fun s i ha he hp hd => ?_, fun s f i ha he hp hl hd => ?_,
    fun s f ha he hp => ?_, fun s f o ha he hp hl => ?_⟩ <;> rw [step_eq_stepEvent ha, he]
  · exact blockStep_of_ready (s := s.moved) hr hw hd
  · exact blockStep_of_operation (s := s.moved) hp hd
  · exact frameStep_of_closed (s := s.moved) hp hl hd
  · exact frameStep_of_operation (s := s.moved) f hp
  · refine ⟨_, frameStep_of_open (s := s.moved) f hp hl, ?_, frameOnOpenLine_rx_length _ _ _,
      frameOnOpenLine_reg _ _ _, frameOnOpenLine_port _ _ _, frameOnOpenLine_trace _ _ _, frameOnOpenLine_cfg _ _ _,
      fun h hh => ?_, fun hb => frameOnOpenLine_hazard hb⟩
    · exact (frameOnOpenLine_line o f s.moved _).trans (if_pos rfl)
    · exact (frameOnOpenLine_line o f s.moved h).trans (if_neg hh)

end Sys2Proof.Machine
end

section
/-! R11, R271: the parameters. A forbidden erase opcode is refused; every part of every step keeps them. -/
namespace Sys2Proof.Machine
open Sys2Proof.Claims

@[simp] theorem perform_cfg (c : Call) (s : State) : (perform c s).2.cfg = s.cfg := by
  rcases perform_cases c s with ⟨-, h⟩ | ⟨-, ev, h⟩ | ⟨ov, -, h⟩
  · simp [h]
  · simp [h]
  · cases c <;> simp [h]

theorem proceed_cfg (r : Request) {p : Phase} (rs : List Byte) (u : State) (hp : p ≠ .idle) :
    (proceed r p rs u).cfg = u.cfg := by
  obtain ⟨v, hv, -, h⟩ := proceed_cases r p rs u hp
  have hcfg : v.cfg = u.cfg := by rcases hv with rfl | rfl | ⟨-, -, -, rfl⟩ <;> rfl
  rcases h with ⟨q, -, -, h⟩ | ⟨c, x, d, h⟩ <;> simp [h, hcfg]

theorem start_cfg (r : Request) (u : State) : (start r u).cfg = u.cfg := by
  obtain ⟨v, hv, h⟩ := start_cases r u
  have hcfg : v.cfg = u.cfg := by rcases hv with rfl | ⟨-, -, rfl⟩ | ⟨-, rfl⟩ <;> rfl
  rcases h with ⟨h, -⟩ | ⟨c, h⟩ <;> simp [h, hcfg]

/-- No host operation changes a parameter. -/
theorem exec_request_cfg {i : Instr} {r : Request} (hr : IsRequest i r) {s t : State} (h : exec i s = .next t) :
    t.cfg = s.cfg := by
  obtain ⟨e, he⟩ := hr
  rcases exec_host_inv he h with ⟨-, ⟨-, rfl⟩ | ⟨-, rfl⟩⟩ |
    ⟨hp, -, c, -, ⟨-, rfl⟩ | ⟨-, ev, rfl⟩ | ⟨ov, rs, u, -, hu, rfl⟩⟩
  · rfl
  · exact start_cfg r _
  · rfl
  · rfl
  · rw [proceed_cfg r rs u hp, ← perform_cfg c s, hu]

/-- No instruction changes a parameter. -/
theorem exec_cfg {i : Instr} {s t : State} (h : exec i s = .next t) : t.cfg = s.cfg := by
  rcases isFrame_or_isRequest i with hf | ⟨r, hr⟩
  · obtain ⟨f, hexec, -⟩ := exec_frame hf
    rw [hexec] at h
    cases h
    rfl
  · exact exec_request_cfg hr h

/-- No step changes a parameter. -/
theorem step_cfg {s t : State} (h : step s = .next t) : t.cfg = s.cfg := by
  cases step_did h with
  | accepts _ _ _ _ _ _ _ ht => exact (exec_cfg ht).trans (popRequest_cfg s.moved)
  | calls _ _ _ _ ht | frameRuns _ _ _ _ _ _ ht => exact (exec_cfg ht).trans s.moved_cfg
  | waits _ _ ht | completes _ ht | puts _ _ _ ht | takes _ ht | resets _ ht | frameOpen _ _ _ _ _ ht
  | frameStray _ _ _ _ ht => subst ht; rfl

/-- R11: the five fixed opcodes are no erase opcodes. -/
theorem not_allowed_of_fixed_opcode {p : Params}
    (h : p.eraseOpcode = 0x02#8 ∨ p.eraseOpcode = 0x03#8 ∨ p.eraseOpcode = 0x05#8 ∨ p.eraseOpcode = 0x06#8 ∨
      p.eraseOpcode = 0x9F#8) : p.allowed = false := by
  rcases h with h | h | h | h | h <;> simp [Params.allowed, eraseOpcodeAllowed, h]

/-- Settles O11: the check of R11 comes before the move, and no move writes a parameter. -/
theorem parametersAreCheckedAndNeverChange : Obligations.ParametersAreCheckedAndNeverChange :=
  ⟨fun s h => by simp [step, not_allowed_of_fixed_opcode h], fun _ _ => step_cfg⟩

end Sys2Proof.Machine
end

section
/-! R10, R127: `TRANSPORT_WORD_BYTES`. Changing it commutes with every part of an instruction: the chip's commands, the
calls, and what an operation does between them. -/
namespace Sys2Proof.Machine
open Sys2Proof.Claims

/-- The machine with the transport word size `n`. -/
def State.withWordBytes (n : Nat) (s : State) : State := { s with cfg := { s.cfg with transportWordBytes := n } }

/-- The word size has no effect on `k`: it may be changed before or after it. -/
def IgnoresWordBytes (k : State → State) : Prop := ∀ n s, k (s.withWordBytes n) = (k s).withWordBytes n

@[simp] theorem State.withWordBytes_reg (n : Nat) (s : State) : (s.withWordBytes n).reg = s.reg := rfl
@[simp] theorem State.withWordBytes_bus (n : Nat) (s : State) : (s.withWordBytes n).bus = s.bus := rfl
@[simp] theorem State.withWordBytes_chipSlot (n : Nat) (s : State) :
    (s.withWordBytes n).cfg.chipSlot = s.cfg.chipSlot := rfl
@[simp] theorem State.withWordBytes_answer (n : Nat) (s : State) : (s.withWordBytes n).answer = s.answer := rfl

/-! The chip -/

theorem readBytes_withWordBytes (p : Params) (m : Memory) (a w : Nat) : ∀ (n i : Nat) (e : Env),
    readBytes { p with transportWordBytes := w } m a n i e = readBytes p m a n i e
  | 0, _, _ => rfl
  | n + 1, i, e => by
    have ht : readTarget { p with transportWordBytes := w } a i = readTarget p a i := rfl
    simp only [readBytes, ht, readBytes_withWordBytes p m a w n]

theorem chipRead_withWordBytes (p : Params) (a : Addr) (n w : Nat) (c : Chip) (e : Env) :
    chipRead { p with transportWordBytes := w } a n c e = chipRead p a n c e := by
  simp only [chipRead, readBytes_withWordBytes]

theorem chipFrame_withWordBytes (p : Params) (f : Frame) (b : Bool) (w : Nat) (c : Chip) (e : Env) :
    chipFrame { p with transportWordBytes := w } f b c e = chipFrame p f b c e := by
  unfold chipFrame
  simp only [chipRead_withWordBytes]
  rfl

theorem chipEnds_withWordBytes (o : OpenFrame) (n w : Nat) (p : Params) (c : Chip) (e : Env) :
    chipEnds o n { p with transportWordBytes := w } c e = chipEnds o n p c e := by
  simp only [chipEnds, chipFrame_withWordBytes]

/-- A chip operation that does not read the word size, in the machine. -/
theorem onChip_ignoresWordBytes {f : Params → Chip → Env → ChipOut}
    (hf : ∀ w p c e, f { p with transportWordBytes := w } c e = f p c e) : IgnoresWordBytes (State.onChip · f) := by
  intro n s
  simp only [State.onChip, State.withWordBytes, hf]

/-- The chip's commands as instructions. -/
theorem exec_frame_withWordBytes {i : Instr} (h : IsFrame i) {s t : State} (n : Nat) (ht : exec i s = .next t) :
    exec i (s.withWordBytes n) = .next (t.withWordBytes n) := by
  obtain ⟨e, f, h⟩ := h
  cases i
  case read a k =>
    cases ht
    exact congrArg _ (onChip_ignoresWordBytes (fun w p => chipRead_withWordBytes p a k w) n s)
  case rdsr | wren | pp | rdid | se => cases ht; rfl
  all_goals cases h

/-! The transport -/

theorem endFrame_ignoresWordBytes (k : Nat) : IgnoresWordBytes (endFrame k) := by
  intro n s
  cases hf : s.bus.frame with
  | none => simp only [endFrame, State.withWordBytes_bus, hf]; rfl
  | some f =>
    by_cases ht : s.bus.target.toNat = s.cfg.chipSlot
    · rw [endFrame_open hf ht, endFrame_open (s := s.withWordBytes n) hf ht]
      exact onChip_ignoresWordBytes (fun w p => chipEnds_withWordBytes f k w p) n
        { s with bus := s.bus.setLine s.bus.target.toNat none }
    · simp only [endFrame, State.withWordBytes_bus, State.withWordBytes_chipSlot, hf, ht, if_false]; rfl

theorem commandSeen_ignoresWordBytes : IgnoresWordBytes commandSeen := by
  intro n s
  cases hf : s.bus.frame with
  | none => simp only [commandSeen, State.withWordBytes_bus, hf]
  | some f =>
    by_cases ht : s.bus.target.toNat = s.cfg.chipSlot
    · simp only [commandSeen, State.withWordBytes_bus, State.withWordBytes_chipSlot, hf, ht, if_true]; rfl
    · simp only [commandSeen, State.withWordBytes_bus, State.withWordBytes_chipSlot, hf, ht, if_false]

/-- R127: every call returns the same, and leaves the same line and chip. -/
theorem perform_withWordBytes (c : Call) (n : Nat) (s : State) :
    perform c (s.withWordBytes n) = ((perform c s).1, (perform c s).2.withWordBytes n) := by
  have hend (k : Nat) (u : State) := endFrame_ignoresWordBytes k n u
  have hseen (u : State) := commandSeen_ignoresWordBytes n u
  have hans : (s.withWordBytes n).answered = s.answered.withWordBytes n := rfl
  have hout (bs : List Byte) (u : State) : shiftOut bs (u.withWordBytes n) = (shiftOut bs u).withWordBytes n := rfl
  cases c
  all_goals
    simp only [perform, spiSelect, spiWrite, spiWriteContinue, spiRead, State.withWordBytes_answer, hans, hout, hend,
      hseen]
    cases s.answer <;> rfl

/-- `try` of a call, where what follows does not read the word size. -/
theorem attempt_withWordBytes {k : List Byte → State → State} (hk : ∀ rs, IgnoresWordBytes (k rs)) (n : Nat)
    (q : CallResult × State) : attempt (q.1, q.2.withWordBytes n) k = (attempt q k).withWordBytes n := by
  obtain ⟨res, u⟩ := q
  cases res with
  | ok rs => exact hk rs n u
  | err => rfl
  | silent => rfl

/-! Between the calls -/

/-- A choice whose condition does not read the word size. -/
theorem ite_ignoresWordBytes {P : State → Prop} [DecidablePred P] {k l : State → State}
    (hk : IgnoresWordBytes k) (hl : IgnoresWordBytes l)
    (hP : ∀ n s, P (s.withWordBytes n) ↔ P s := by intros; rfl) :
    IgnoresWordBytes fun s => if P s then k s else l s := by
  intro n s
  by_cases h : P s
  · simp only [hP, h, if_true, hk n s]
  · simp only [hP, h, if_false, hl n s]

theorem goto_ignoresWordBytes (p : Phase) : IgnoresWordBytes (goto p) := fun _ _ => rfl

theorem respond_ignoresWordBytes (c : ResultCode) (p : Phase) (v : BitVec 24) (d : List Byte) :
    IgnoresWordBytes (respond c p v d) := fun _ _ => rfl

theorem gateCheck_ignoresWordBytes {k : State → State} (hk : IgnoresWordBytes k) (b : Byte) :
    IgnoresWordBytes (gateCheck k b) :=
  ite_ignoresWordBytes hk fun _ _ => rfl

theorem programAfterGate_ignoresWordBytes (len : Word) : IgnoresWordBytes (programAfterGate len) :=
  ite_ignoresWordBytes (fun _ _ => rfl) fun _ _ => rfl

theorem afterPoll_ignoresWordBytes (bound : Word) (b : Byte) : IgnoresWordBytes (afterPoll bound b) :=
  ite_ignoresWordBytes (ite_ignoresWordBytes (fun _ _ => rfl) fun _ _ => rfl) fun _ _ => rfl

theorem proceed_ignoresWordBytes (r : Request) (p : Phase) (rs : List Byte) : IgnoresWordBytes (proceed r p rs) := by
  cases p with
  | idle | select | statusCmd | dataWrite => exact fun _ _ => rfl
  | wrenWrite | cmdWrite | dataRead =>
    simp only [proceed]
    repeat' split
    all_goals exact fun _ _ => rfl
  | statusRead =>
    have hset {k : Byte → State → State} (hk : ∀ b, IgnoresWordBytes (k b)) :
        IgnoresWordBytes fun s => k (rs.getD 0 0) (setSr (rs.getD 0 0) s) :=
      fun n s => hk (rs.getD 0 0) n (setSr (rs.getD 0 0) s)
    refine ite_ignoresWordBytes (fun _ _ => rfl) (ite_ignoresWordBytes (hset ?_) (ite_ignoresWordBytes (hset ?_)
      (hset ?_)))
    · exact gateCheck_ignoresWordBytes (programAfterGate_ignoresWordBytes r.arg1)
    · exact gateCheck_ignoresWordBytes (goto_ignoresWordBytes .cmdWrite)
    · exact afterPoll_ignoresWordBytes r.arg1

/-! The start of an operation -/

theorem requireBound_ignoresWordBytes {k : State → State} (hk : IgnoresWordBytes k) :
    IgnoresWordBytes (requireBound k) :=
  ite_ignoresWordBytes hk fun _ _ => rfl

theorem requireAddress_ignoresWordBytes {k : State → State} (hk : IgnoresWordBytes k) (a : Word) :
    IgnoresWordBytes (requireAddress a k) :=
  ite_ignoresWordBytes hk fun _ _ => rfl

theorem bindSlot_ignoresWordBytes (h : Word) : IgnoresWordBytes (bindSlot h) :=
  ite_ignoresWordBytes (fun _ _ => rfl) <|
    ite_ignoresWordBytes (fun _ _ => rfl) fun _ _ => rfl

theorem startPolling_ignoresWordBytes (bound : Word) : IgnoresWordBytes (startPolling bound) :=
  ite_ignoresWordBytes (fun _ _ => rfl) fun _ _ => rfl

theorem start_ignoresWordBytes (r : Request) : IgnoresWordBytes (start r) := by
  unfold start
  repeat' split
  · exact bindSlot_ignoresWordBytes r.arg0
  · exact requireBound_ignoresWordBytes (goto_ignoresWordBytes .select)
  · exact requireBound_ignoresWordBytes (requireAddress_ignoresWordBytes (goto_ignoresWordBytes .select) r.arg0)
  · exact requireBound_ignoresWordBytes (startPolling_ignoresWordBytes r.arg1)
  · exact respond_ignoresWordBytes .illegalOp .idle 0 []

theorem accept_ignoresWordBytes {k : State → State} (hk : IgnoresWordBytes k) (op : BitVec 4) (a b : Word)
    (d : List Byte) : IgnoresWordBytes (accept op a b d k) :=
  ite_ignoresWordBytes (fun n s => hk n (latch op a b d s)) fun _ _ => rfl

/-! The instructions -/

/-- The host operations, in phase IDLE and during their calls. -/
theorem exec_request_withWordBytes {i : Instr} {r : Request} (h : IsRequest i r) {s t : State} (n : Nat)
    (ht : exec i s = .next t) : exec i (s.withWordBytes n) = .next (t.withWordBytes n) := by
  obtain ⟨e, he⟩ := h
  by_cases hp : s.reg.phase = .idle
  · rw [exec_idle he hp] at ht
    cases ht
    rw [exec_idle he (s := s.withWordBytes n) hp,
      accept_ignoresWordBytes (start_ignoresWordBytes r) r.op r.arg0 r.arg1 r.payload n s]
  · have hcall : callOf (s.withWordBytes n).cfg.eraseOpcode r (s.withWordBytes n).reg.phase =
        callOf s.cfg.eraseOpcode r s.reg.phase := rfl
    rw [exec_call he hp] at ht
    rw [exec_call he (s := s.withWordBytes n) hp, hcall]
    cases hc : callOf s.cfg.eraseOpcode r s.reg.phase with
    | none => rw [hc] at ht; cases ht
    | some c =>
      rw [hc] at ht
      cases ht
      simp only [perform_withWordBytes, attempt_withWordBytes (proceed_ignoresWordBytes r _),
        State.withWordBytes_reg]

/-- Settles O43: an instruction is a command of the chip or a host operation, and neither reads the word size. -/
theorem transportWordSizeHasNoEffect : Obligations.TransportWordSizeHasNoEffect := by
  intro s t i n ht
  rcases isFrame_or_isRequest i with h | ⟨r, h⟩
  · exact exec_frame_withWordBytes h n ht
  · exact exec_request_withWordBytes h n ht

end Sys2Proof.Machine
end

section
/-! What the decoder reads is what the encoder writes (R91, R92, R97, R101). -/
namespace Sys2Proof

/-- A frame that decodes is the encoding of what it decodes to: each branch of the decoder that answers an instruction
has fixed the first byte, the number of address bytes and the number of bytes in (R97). -/
theorem encode_of_decodeFrame {e : Byte} {f : Frame} {i : Instr} (h : decodeFrame e f = .ok i) :
    encode e i = .frame f := by
  obtain ⟨sent, nIn⟩ := f
  unfold decodeFrame at h
  repeat' split at h
  all_goals simp_all
  all_goals subst h; simp_all [encode]

/-- R100: in a well-formed request only a page_program has a payload. -/
theorem Request.payload_eq_nil {r : Request} (h : r.wellFormed = true) (h5 : r.op ≠ 5#4) : r.payload = [] := by
  simpa [Request.wellFormed, h5] using h

/-- R101: an op code that is none of the eight operations is a reserved one, named by its low three bits. -/
theorem reservedOp_of_low : ∀ op : BitVec 4, op ∉ [0#4, 1#4, 2#4, 3#4, 4#4, 5#4, 6#4, 7#4] →
    (1#1 ++ op.extractLsb' 0 3 : BitVec 4) = op := by decide

/-- A request that decodes is well formed, and is the encoding of what it decodes to. -/
theorem encode_of_decodeRequest {r : Request} {i : Instr} (h : decodeRequest r = .ok i) (e : Byte) :
    r.wellFormed = true ∧ encode e i = .request r := by
  unfold decodeRequest at h
  split at h
  case isFalse => cases h
  case isTrue hw =>
    cases h
    refine ⟨hw, ?_⟩
    obtain ⟨op, x, y, d⟩ := r
    by_cases h5 : op = 5#4
    · subst h5; rfl
    · obtain rfl : d = [] := Request.payload_eq_nil hw h5
      unfold requestInstr
      split_ifs <;> simp_all [encode, reservedOp_of_low]

end Sys2Proof
end

section
/-! What a host operation keeps: the call of a phase, and what the operation does with its answer. -/
namespace Sys2Proof.Machine
open Sys2Proof.Claims

/-! The call -/

/-- A call leaves the registers, the port and the schedule. -/
theorem perform_kept (c : Call) (s : State) :
    (perform c s).2.reg = s.reg ∧ (perform c s).2.port = s.port ∧ (perform c s).2.env.sched = s.env.sched := by
  rcases perform_cases c s with ⟨-, h⟩ | ⟨-, ev, h⟩ | ⟨ov, -, h⟩
  · simp [h]
  · simp [h]
  · cases c <;> simp [h]

@[simp] theorem perform_reg (c : Call) (s : State) : (perform c s).2.reg = s.reg := (perform_kept c s).1
@[simp] theorem perform_port (c : Call) (s : State) : (perform c s).2.port = s.port := (perform_kept c s).2.1
@[simp] theorem perform_sched (c : Call) (s : State) : (perform c s).2.env.sched = s.env.sched := (perform_kept c s).2.2

/-- R120: only `spi_select` changes the target. -/
theorem perform_target {c : Call} (hc : c ≠ .select) (s : State) : (perform c s).2.bus.target = s.bus.target := by
  rcases perform_cases c s with ⟨-, h⟩ | ⟨-, ev, h⟩ | ⟨ov, -, h⟩
  · simp [h]
  · simp [h]
  · cases c
    · contradiction
    all_goals simp [h]

@[simp] theorem afterRead_line (n : Nat) (b) (s : State) (h : Nat) :
    (afterRead n b s).bus.line h = (endFrame n s.answered).bus.line h := rfl

/-- R18, R120: a call leaves the line of a slot that is neither bound nor the target. -/
theorem perform_line {h : Nat} {s : State} (hb : h ≠ s.reg.handle.toNat) (ht : h ≠ s.bus.target.toNat) (c : Call) :
    (perform c s).2.bus.line h = s.bus.line h := by
  rcases perform_cases c s with ⟨-, hc⟩ | ⟨-, ev, hc⟩ | ⟨ov, -, hc⟩
  · simp [hc]
  · rw [hc]; exact lineUnknown_line (s := s.answered) hb
  · have hout (bs : List Byte) : (shiftOut bs s.answered).bus.line h = s.bus.line h :=
      shiftOut_line (s := s.answered) ht bs
    rcases c with _ | bs | bs | n
    · simp [hc]
    · simp [hc, endFrame_line (s := shiftOut bs s.answered) (by simpa using ht), hout]
    · simp [hc, hout]
    · simp [hc, endFrame_line (s := s.answered) ht]

/-! What follows the call -/

/-- What a call's answer leaves of the operation in progress: the binding and the latches, and, until the operation
ends, the payload and the response registers. Nothing is sent or drawn by it. -/
structure OperationKept (s t : State) : Prop where
  bus     : t.bus = s.bus
  env     : t.env = s.env
  waiting : t.port.waiting = s.port.waiting
  bound   : t.reg.bound = s.reg.bound
  handle  : t.reg.handle = s.reg.handle
  op      : t.reg.op = s.reg.op
  arg0    : t.reg.arg0 = s.reg.arg0
  arg1    : t.reg.arg1 = s.reg.arg1
  stream  : t.reg.phase ≠ .idle → t.port.stream = s.port.stream
  resp    : t.reg.phase ≠ .idle → t.reg.resp = s.reg.resp

theorem OperationKept.rfl (s : State) : OperationKept s s := by constructor <;> simp

theorem transportError_kept (s : State) : OperationKept s (transportError s) := by
  constructor <;> simp [transportError]

theorem proceed_kept (r : Request) {p : Phase} (rs : List Byte) (u : State) (hp : p ≠ .idle) :
    OperationKept u (proceed r p rs u) := by
  obtain ⟨v, hv, -, h⟩ := proceed_cases r p rs u hp
  rcases h with ⟨q, -, -, h⟩ | ⟨c, x, d, h⟩ <;> rw [h] <;>
    rcases hv with rfl | rfl | ⟨-, -, -, rfl⟩ <;> constructor <;> simp

/-- `try` goes on, raises, or waits (R14, R131). -/
theorem attempt_cases (q : CallResult × State) (k : List Byte → State → State) :
    (∃ rs, attempt q k = k rs q.2) ∨ attempt q k = transportError q.2 ∨ attempt q k = q.2 := by
  unfold attempt
  cases q.1 with
  | ok rs => exact .inl ⟨rs, rfl⟩
  | err => exact .inr (.inl rfl)
  | silent => exact .inr (.inr rfl)

theorem attempt_kept (q : CallResult × State) (r : Request) {p : Phase} (hp : p ≠ .idle) :
    OperationKept q.2 (attempt q (proceed r p)) := by
  rcases attempt_cases q (proceed r p) with ⟨rs, h⟩ | h | h <;> rw [h]
  · exact proceed_kept r rs q.2 hp
  · exact transportError_kept q.2
  · exact .rfl q.2

/-! Phases (R110) -/

theorem idle_notMem_callPhases (op : BitVec 4) : Phase.idle ∉ callPhases op := by
  revert op; decide

/-- A host operation outside phase IDLE is the call of its phase, and that phase is one of its own. -/
theorem exec_call_inv {i : Instr} {r : Request} (hr : IsRequest i r) {s t : State} (hp : s.reg.phase ≠ .idle)
    (h : exec i s = .next t) :
    s.reg.phase ∈ callPhases r.op ∧ ∃ c, callOf s.cfg.eraseOpcode r s.reg.phase = some c ∧
      t = attempt (perform c s) (proceed r s.reg.phase) := by
  obtain ⟨e, he⟩ := hr
  rw [exec_call he hp] at h
  cases hc : callOf s.cfg.eraseOpcode r s.reg.phase with
  | none => rw [hc] at h; cases h
  | some c =>
    rw [hc] at h
    cases h
    refine ⟨?_, c, rfl, rfl⟩
    by_contra hn
    simp [callOf, hn] at hc

/-- R182: the operation ends with WriteNotEnabled, or its caller goes on. -/
theorem gateCheck_phase (k : State → State) (b : Byte) (s : State) :
    (gateCheck k b s).reg.phase = .idle ∨ gateCheck k b s = k s := by
  unfold gateCheck
  split
  · exact .inr rfl
  · exact .inl rfl

/-- R201: without payload the operation ends, else it sends its command. -/
theorem programAfterGate_phase (n : Word) (s : State) :
    (programAfterGate n s).reg.phase = .idle ∨ (programAfterGate n s).reg.phase = .cmdWrite := by
  unfold programAfterGate
  split
  · exact .inl rfl
  · exact .inr rfl

/-- R231: the poller ends, or polls again. -/
theorem afterPoll_phase (n : Word) (b : Byte) (s : State) :
    (afterPoll n b s).reg.phase = .idle ∨ (afterPoll n b s).reg.phase = .statusCmd := by
  unfold afterPoll
  split
  · split
    · exact .inl rfl
    · exact .inr rfl
  · exact .inl rfl

/-- R110: an operation's phases follow each other within it, with its gating or its polling after a status read. -/
theorem callPhases_closed (op : BitVec 4) :
    (.select ∈ callPhases op → (if op = 1#4 ∨ op = 4#4 then Phase.cmdWrite
      else if op = 2#4 ∨ op = 7#4 then .statusCmd else .wrenWrite) ∈ callPhases op) ∧
    (.wrenWrite ∈ callPhases op → op ≠ 3#4 → .statusCmd ∈ callPhases op) ∧
    (.statusCmd ∈ callPhases op → .statusRead ∈ callPhases op) ∧
    (.statusRead ∈ callPhases op → op ≠ 2#4 →
      ((op = 5#4 ∨ op = 6#4) ∧ .cmdWrite ∈ callPhases op) ∨ (op = 7#4 ∧ .statusCmd ∈ callPhases op)) ∧
    (.cmdWrite ∈ callPhases op → op ≠ 6#4 →
      (if op = 5#4 then Phase.dataWrite else .dataRead) ∈ callPhases op) := by
  refine ⟨?_, ?_, ?_, ?_, ?_⟩ <;> revert op <;> decide

/-- The phases an operation goes on to are its own. -/
theorem proceed_phase {r : Request} {p : Phase} (hp : p ∈ callPhases r.op) (rs : List Byte) (u : State) :
    (proceed r p rs u).reg.phase = .idle ∨ (proceed r p rs u).reg.phase ∈ callPhases r.op := by
  obtain ⟨hselect, hwren, hcmd, hread, hwrite⟩ := callPhases_closed r.op
  cases p with
  | idle => exact absurd hp (idle_notMem_callPhases r.op)
  | select => exact .inr (hselect hp)
  | wrenWrite =>
    by_cases h3 : r.op = 3#4
    · left; simp [proceed, h3]
    · right; simpa [proceed, h3] using hwren hp h3
  | statusCmd => exact .inr (hcmd hp)
  | statusRead =>
    by_cases h2 : r.op = 2#4
    · left; simp [proceed, h2]
    rcases hread hp h2 with ⟨h5 | h6, hnext⟩ | ⟨h7, hnext⟩
    · simp only [proceed, h5, if_true]
      rcases gateCheck_phase (programAfterGate r.arg1) (rs.getD 0 0) (setSr (rs.getD 0 0) u) with h | h
      · exact .inl h
      · rw [h5] at hnext
        rw [if_neg (by decide), h]
        exact (programAfterGate_phase _ _).imp_right fun hq => by rwa [hq]
    · rw [h6] at hnext
      simp only [proceed, h6, if_true]
      rw [if_neg (by decide), if_neg (by decide)]
      rcases gateCheck_phase (goto .cmdWrite) (rs.getD 0 0) (setSr (rs.getD 0 0) u) with h | h
      · exact .inl h
      · rw [h]; exact .inr hnext
    · rw [h7] at hnext
      simp only [proceed, h7]
      rw [if_neg (by decide), if_neg (by decide), if_neg (by decide)]
      exact (afterPoll_phase _ _ _).imp_right fun hq => by rwa [hq]
  | cmdWrite =>
    by_cases h6 : r.op = 6#4
    · left; simp [proceed, h6]
    · have hnext := hwrite hp h6
      right
      by_cases h5 : r.op = 5#4 <;> simpa [proceed, h5, h6] using hnext
  | dataWrite => exact .inl rfl
  | dataRead => left; simp only [proceed]; split <;> rfl

end Sys2Proof.Machine
end

section
/-! The sequencer invariant (R34, R47, R100, R110, R305, R63), move by move. -/
namespace Sys2Proof.Machine
open Sys2Proof.Claims

/-- The invariant reads FLASHCMD's registers and the payload alone. -/
theorem SequencerInv.congr {s t : State} (h : SequencerInv s) (hreg : t.reg = s.reg)
    (hstream : t.port.stream = s.port.stream) : SequencerInv t := by
  simpa only [SequencerInv, latchedRequest, hreg, hstream] using h

theorem latchedRequest_kept {s t : State} (h : OperationKept s t) (hp : t.reg.phase ≠ .idle) :
    latchedRequest t = latchedRequest s := by
  simp only [latchedRequest, h.op, h.arg0, h.arg1, h.stream hp]

/-- What an operation keeps and the phase it goes on in keep the invariant. -/
theorem SequencerInv.of_kept {s t : State} (h : SequencerInv s) (hp : s.reg.phase ≠ .idle) (hk : OperationKept s t)
    (hnext : t.reg.phase = .idle ∨ t.reg.phase ∈ callPhases s.reg.op) : SequencerInv t := by
  obtain hi | ⟨hb, hr, hw, -, ha⟩ := h
  · contradiction
  by_cases hq : t.reg.phase = .idle
  · exact .inl hq
  · refine .inr ⟨hk.bound.trans hb, (hk.resp hq).trans hr, ?_, ?_, ?_⟩
    · rwa [latchedRequest_kept hk hq]
    · rw [hk.op]; exact hnext.resolve_left hq
    · rwa [hk.op, hk.arg0]

/-- The call of a phase leaves its operation in one of its phases, or ended. -/
theorem attempt_phase (q : CallResult × State) {r : Request} (hp : q.2.reg.phase ∈ callPhases r.op) :
    (attempt q (proceed r q.2.reg.phase)).reg.phase = .idle ∨
      (attempt q (proceed r q.2.reg.phase)).reg.phase ∈ callPhases r.op := by
  rcases attempt_cases q (proceed r q.2.reg.phase) with ⟨rs, h⟩ | h | h <;> rw [h]
  · exact proceed_phase hp rs q.2
  · exact .inl rfl
  · exact .inr hp

/-- A call of the latched operation keeps the invariant. -/
theorem SequencerInv.calls {s t : State} (h : SequencerInv s) (hp : s.reg.phase ≠ .idle) {i : Instr}
    (hr : IsRequest i (latchedRequest s)) (ht : exec i s = .next t) : SequencerInv t := by
  obtain ⟨hmem, c, -, rfl⟩ := exec_call_inv hr hp ht
  have hinv : SequencerInv (perform c s).2 := h.congr (perform_reg c s) (by rw [perform_port])
  rw [← perform_reg c s] at hp hmem ⊢
  refine hinv.of_kept hp (attempt_kept _ _ hp) ?_
  have := attempt_phase _ hmem
  rwa [show (latchedRequest s).op = (perform c s).2.reg.op by rw [perform_reg]; rfl] at this

theorem traffic_starts_in_select : ∀ op : BitVec 4, 1 ≤ op.toNat → op.toNat ≤ 7 → Phase.select ∈ callPhases op := by
  decide

/-- R100: the latches and the payload of a well-formed request give it back. -/
theorem latchedRequest_latch {r : Request} (h : r.wellFormed = true) (s : State) :
    latchedRequest (latch r.op r.arg0 r.arg1 r.payload s) = r := by
  obtain ⟨op, x, y, d⟩ := r
  by_cases h5 : op = 5#4
  · simp [latchedRequest, h5]
  · obtain rfl : d = [] := Request.payload_eq_nil h h5
    simp [latchedRequest, h5]

/-- A latched request that has passed the checks of R308 meets the invariant in SELECT. -/
theorem SequencerInv.of_select {u : State} (hb : u.reg.bound = true) (hn : u.reg.resp = none)
    (hw : (latchedRequest u).wellFormed = true) (hlo : 1 ≤ u.reg.op.toNat) (hhi : u.reg.op.toNat ≤ 7)
    (ha : (u.reg.op = 4#4 ∨ u.reg.op = 5#4 ∨ u.reg.op = 6#4) → addressValid u.reg.arg0 = true) :
    SequencerInv (goto .select u) :=
  .inr ⟨hb, hn, hw, traffic_starts_in_select _ hlo hhi, ha⟩

/-- An accepted request either ends at once or has passed the checks of R308, and its operation begins in SELECT. -/
theorem SequencerInv.accepts {s t : State} {i : Instr} {r : Request} (hi : s.reg.phase = .idle)
    (hn : s.reg.resp = none) (hr : IsRequest i r) (hw : r.wellFormed = true) (ht : exec i s = .next t) :
    SequencerInv t := by
  obtain ⟨e, he⟩ := hr
  have hready : s.ready = true := s.ready_iff.2 ⟨hi, hn⟩
  rw [exec_idle he hi, accept, if_pos hready] at ht
  cases ht
  rw [← latchedRequest_latch hw s] at hw
  obtain ⟨v, hv, ⟨h, hb, hlo, hhi, ha⟩ | ⟨c, h⟩⟩ := start_cases r (latch r.op r.arg0 r.arg1 r.payload s) <;> rw [h]
  · rcases hv with rfl | ⟨h0, -⟩ | ⟨-, rfl⟩
    · exact .of_select hb hn hw hlo hhi ha
    · rw [h0] at hlo
      contradiction
    · exact .of_select hb hn hw hlo hhi ha
  · exact .inl rfl

/-- Settles O56: every move but acceptance, a call and a take leaves FLASHCMD's registers, or makes it idle. -/
theorem sequencerInvariantIsKept : Obligations.SequencerInvariantIsKept := by
  intro s t h ht
  have hm : SequencerInv s.moved := h.congr rfl rfl
  cases step_did ht with
  | waits _ _ ht => exact ht ▸ hm
  | accepts r i _ hp hn _ hd ht =>
    obtain ⟨hw, hr⟩ := encode_of_decodeRequest hd 0
    exact .accepts (s := popRequest s.moved) hp hn ⟨0, hr⟩ hw ht
  | calls i _ hp hd ht =>
    obtain ⟨-, hr⟩ := encode_of_decodeRequest hd 0
    exact hm.calls hp ⟨0, hr⟩ ht
  | completes _ ht | puts _ _ _ ht | frameOpen _ _ _ _ _ ht | frameStray _ _ _ _ ht => subst ht; exact hm.congr rfl rfl
  | takes _ ht => subst ht; exact hm.imp id fun ⟨hb, _, hrest⟩ => ⟨hb, rfl, hrest⟩
  | resets _ ht => subst ht; exact .inl rfl
  | frameRuns f i _ _ _ hd ht =>
    obtain ⟨g, hg, -⟩ := exec_frame ⟨_, f, encode_of_decodeFrame hd⟩
    rw [hg] at ht
    cases ht
    exact hm.congr rfl rfl

end Sys2Proof.Machine
end

section
/-! The model's fault (R34, R110): which phases raise it, and that no step comes to one from a coherent state. -/
namespace Sys2Proof.Machine
open Sys2Proof.Claims

theorem callOf_eq_none {r : Request} {p : Phase} (hp : p ∉ callPhases r.op) (e : Byte) : callOf e r p = none :=
  if_neg hp

theorem callOf_eq_some {r : Request} {p : Phase} (hp : p ∈ callPhases r.op) (e : Byte) :
    ∃ c, callOf e r p = some c := by
  unfold callOf
  rw [if_pos hp]
  cases p with
  | idle => exact absurd hp (idle_notMem_callPhases r.op)
  | cmdWrite =>
    dsimp only
    repeat' split
    all_goals exact ⟨_, rfl⟩
  | select | wrenWrite | statusCmd | statusRead | dataWrite | dataRead => exact ⟨_, rfl⟩

/-- Settles O29: the phase has no call. -/
theorem operationOutsideItsPhasesFaults : Obligations.OperationOutsideItsPhasesFaults := by
  intro s i r ⟨e, he⟩ hp hn
  rw [exec_call he hp, callOf_eq_none hn]

/-- In phase IDLE no instruction faults. -/
theorem exec_idle_ne_fault {s : State} (hp : s.reg.phase = .idle) (i : Instr) (f : Fault) : exec i s ≠ .fault f := by
  rcases isFrame_or_isRequest i with hi | ⟨r, e, he⟩
  · obtain ⟨g, hg, -⟩ := exec_frame hi
    simp [hg]
  · simp [exec_idle he hp]

/-- In a phase of its own an operation makes its call, and does not fault. -/
theorem exec_call_ne_fault {s : State} {i : Instr} {r : Request} (hr : IsRequest i r) (hp : s.reg.phase ≠ .idle)
    (hmem : s.reg.phase ∈ callPhases r.op) (f : Fault) : exec i s ≠ .fault f := by
  obtain ⟨e, he⟩ := hr
  obtain ⟨c, hc⟩ := callOf_eq_some hmem s.cfg.eraseOpcode
  simp [exec_call he hp, hc]

theorem blockStep_ne_fault {s : State} (h : SequencerInv s) (f : Fault) : blockStep s ≠ .fault f := by
  by_cases hp : s.reg.phase = .idle
  · simp only [blockStep, hp]
    repeat' split
    · simp
    · simp
    · exact exec_idle_ne_fault (s := popRequest s) hp _ f
    · simp
  · obtain ⟨-, -, hw, hmem, -⟩ := h.resolve_left hp
    have hd : decodeRequest (latchedRequest s) = .ok (requestInstr (latchedRequest s)) := if_pos hw
    rw [blockStep_of_operation hp hd]
    exact exec_call_ne_fault ⟨0, (encode_of_decodeRequest hd 0).2⟩ hp hmem f

theorem frameStep_ne_fault (g : Frame) (s : State) (f : Fault) : frameStep g s ≠ .fault f := by
  by_cases hp : s.reg.phase = .idle
  · simp only [frameStep, hp]
    repeat' split
    · simp
    · exact exec_idle_ne_fault hp _ f
    · simp
  · simp [frameStep_of_operation g hp]

/-- Settles O57: only FLASHCMD's own move runs a host operation outside IDLE, and there the latches hold a request
whose phase it is. -/
theorem coherentStateNeverFaults : Obligations.CoherentStateNeverFaults := by
  intro s f h
  have hm : SequencerInv s.moved := h.congr rfl rfl
  unfold step
  split
  · cases s.event with
    | block => exact blockStep_ne_fault hm f
    | frame g => exact frameStep_ne_fault g s.moved f
    | request r => simp only [stepEvent]; split <;> simp
    | complete | take | reset => simp [stepEvent]
  · simp

end Sys2Proof.Machine
end

section
/-! The frame of a host operation (R31 to R38, R18, R120): what its start and its calls leave unchanged. -/
namespace Sys2Proof.Machine
open Sys2Proof.Claims

/-- What the start of a latched operation leaves: no call is made, the latches stay, and only a bind writes the binding
and only wait_ready `POLLS`. -/
structure StartKept (r : Request) (s t : State) : Prop where
  bus     : t.bus = s.bus
  env     : t.env = s.env
  waiting : t.port.waiting = s.port.waiting
  sr      : t.reg.sr = s.reg.sr
  binding : r.op ≠ 0#4 → t.reg.bound = s.reg.bound ∧ t.reg.handle = s.reg.handle
  polls   : r.op ≠ 7#4 → t.reg.polls = s.reg.polls
  resp    : t.reg.phase ≠ .idle → t.reg.resp = s.reg.resp

theorem start_kept (r : Request) (u : State) : StartKept r u (start r u) := by
  obtain ⟨v, hv, h⟩ := start_cases r u
  rcases hv with rfl | ⟨h0, -, rfl⟩ | ⟨h7, rfl⟩
  · rcases h with ⟨h, -⟩ | ⟨c, h⟩ <;> rw [h] <;> constructor <;> simp
  · rcases h with ⟨h, -⟩ | ⟨c, h⟩ <;> rw [h] <;> constructor <;> simp [h0]
  · rcases h with ⟨h, -⟩ | ⟨c, h⟩ <;> rw [h] <;> constructor <;> simp [h7]

/-- R36: `SR` is written in phase STATUS_READ alone. -/
theorem proceed_sr (r : Request) {p : Phase} (rs : List Byte) (u : State) (hp : p ≠ .idle) (hread : p ≠ .statusRead) :
    (proceed r p rs u).reg.sr = u.reg.sr := by
  obtain ⟨v, -, hv, h⟩ := proceed_cases r p rs u hp
  obtain rfl := hv hread
  rcases h with ⟨q, -, -, h⟩ | ⟨c, x, d, h⟩ <;> rw [h] <;> rfl

/-- R37: `POLLS` is counted in wait_ready alone. -/
theorem proceed_polls {r : Request} {p : Phase} (hp : p ∈ callPhases r.op) (h7 : r.op ≠ 7#4) (rs : List Byte)
    (u : State) : (proceed r p rs u).reg.polls = u.reg.polls := by
  have hi : p ≠ .idle := fun hq => idle_notMem_callPhases r.op (hq ▸ hp)
  obtain ⟨v, hv, hquiet, h⟩ := proceed_cases r p rs u hi
  have hpolls : v.reg.polls = u.reg.polls := by
    rcases hv with rfl | rfl | ⟨h2, h5, h6, -⟩
    · rfl
    · rfl
    · have hread : p ≠ .statusRead := by
        rintro rfl
        obtain ⟨-, -, -, hstatus, -⟩ := callPhases_closed r.op
        simpa [h5, h6, h7] using hstatus hp h2
      rw [hquiet hread]
  rcases h with ⟨q, -, -, h⟩ | ⟨c, x, d, h⟩ <;> rw [h] <;> exact hpolls

theorem callOf_ne_select {e : Byte} {r : Request} {p : Phase} {c : Call} (hp : p ≠ .select)
    (h : callOf e r p = some c) : c ≠ .select := by
  rintro rfl
  unfold callOf at h
  split at h
  case isFalse => cases h
  case isTrue =>
    cases p with
    | select => contradiction
    | cmdWrite => dsimp only at h; split_ifs at h <;> cases h
    | idle | wrenWrite | statusCmd | statusRead | dataWrite | dataRead => cases h

/-- Where neither what goes on nor the error writes a part of the state, `try` does not. -/
theorem attempt_keeps {α : Type} (part : State → α) {q : CallResult × State} {k : List Byte → State → State}
    (hk : ∀ rs, part (k rs q.2) = part q.2) (he : part (transportError q.2) = part q.2) :
    part (attempt q k) = part q.2 := by
  rcases attempt_cases q k with ⟨rs, h⟩ | h | h <;> rw [h]
  · exact hk rs
  · exact he

/-- In phase IDLE: the request is accepted and started, or nothing happens. -/
theorem exec_idle_inv {i : Instr} {r : Request} (hr : IsRequest i r) {s t : State} (hp : s.reg.phase = .idle)
    (h : exec i s = .next t) : t = s ∨ StartKept r (latch r.op r.arg0 r.arg1 r.payload s) t := by
  obtain ⟨e, he⟩ := hr
  rw [exec_idle he hp, accept] at h
  cases h
  split
  · exact .inr (start_kept r _)
  · exact .inl rfl

/-- Settles O44: phase IDLE keeps what a start keeps; any other phase what its call and the call's answer keep. -/
theorem hostOperationFrame : Obligations.HostOperationFrame := by
  intro s t i r hr h
  by_cases hp : s.reg.phase = .idle
  · rcases exec_idle_inv hr hp h with rfl | k
    · simp
    · exact ⟨exec_cfg h, k.waiting, congrArg Env.sched k.env, k.binding, fun hn => absurd hp hn,
        fun hn => absurd hp hn, fun _ => k.sr, k.polls, k.resp, fun _ => congrArg Bus.target k.bus,
        fun x _ _ => congrArg (Bus.line · x) k.bus⟩
  · obtain ⟨hmem, c, hc, rfl⟩ := exec_call_inv hr hp h
    have hcfg := exec_cfg h
    have htarget (hq : s.reg.phase ≠ .select) := perform_target (callOf_ne_select hq hc) s
    have hline (x : Nat) := perform_line (h := x) (s := s) (c := c)
    rw [← perform_reg c s] at hp hmem hcfg htarget hline ⊢
    rw [← perform_port c s, ← perform_sched c s]
    have k := attempt_kept (perform c s) r hp
    exact ⟨hcfg, k.waiting, congrArg Env.sched k.env, fun _ => ⟨k.bound, k.handle⟩,
      fun _ => ⟨k.op, k.arg0, k.arg1⟩, fun _ => k.stream,
      fun hread => attempt_keeps (·.reg.sr) (fun rs => proceed_sr r rs _ hp hread) rfl,
      fun h7 => attempt_keeps (·.reg.polls) (fun rs => proceed_polls hmem h7 rs _) rfl, k.resp,
      fun hselect => (congrArg Bus.target k.bus).trans (htarget hselect),
      fun x hb ht => (congrArg (Bus.line · x) k.bus).trans (hline x hb ht)⟩

end Sys2Proof.Machine
end

section
/-! The reset state, and FLASHCMD's waiting (R46, R47, R103, R250, R332). -/
namespace Sys2Proof.Machine
open Sys2Proof.Claims

/-- Settles O7: each field of the reset state, and the bounds of R10 and R11 for the vectors' parameters. -/
theorem resetStateIsIdleAndUnbound : Obligations.ResetStateIsIdleAndUnbound :=
  ⟨rfl, rfl, rfl, rfl, rfl, rfl, rfl, rfl, by decide⟩

/-- R47, R332: FLASHCMD makes no move of its own without a request, or before its response is taken. -/
theorem blockStep_of_waiting {s : State} (hp : s.reg.phase = .idle) (h : s.port.waiting = [] ∨ s.reg.resp ≠ none) :
    blockStep s = .next s := by
  unfold blockStep
  rw [hp]
  cases hr : s.reg.resp with
  | some x => simp
  | none => simp [h.resolve_right (not_not.2 hr)]

/-- Settles O10: the two moves of an idle FLASHCMD that accept nothing. -/
theorem blockWaitsForRequestAndForTake : Obligations.BlockWaitsForRequestAndForTake := by
  intro s ha hp
  refine ⟨fun he hw => ?_, fun he => ⟨takeResponse s.moved, ?_, ?_, rfl, rfl⟩⟩
  · rw [step_eq_stepEvent ha, he]
    exact blockStep_of_waiting (s := s.moved) hp hw
  · rw [step_eq_stepEvent ha, he]
    rfl
  · exact (State.ready_iff _).2 ⟨hp, rfl⟩

theorem gatingInv_reset : GatingInv State.reset := ⟨rfl, rfl⟩

theorem sequencerInv_reset : SequencerInv State.reset := .inl rfl

/-- R45: between frames no line is asserted. -/
theorem frameInv_reset : FrameInv State.reset := by
  have hline (h : Nat) : State.reset.bus.line h = none := rfl
  refine ⟨fun hp => absurd rfl hp, fun ho => ?_, fun h f hf => ?_, rfl⟩
  · exact absurd ho (by decide)
  · rw [hline h] at hf
    cases hf

theorem arrayInv_reset : ArrayInv State.reset := ⟨rfl, rfl⟩

/-- Settles O60: FLASHCMD is idle, its trace and its array list nothing, and no frame is open. -/
theorem resetMeetsTheInvariants : Obligations.ResetMeetsTheInvariants :=
  ⟨gatingInv_reset, sequencerInv_reset, frameInv_reset, arrayInv_reset⟩

end Sys2Proof.Machine
end

section
/-! R60, R250: the array. No move but a completion stores a byte: the array stays as it is, or is drawn anew with no byte
listed. -/
namespace Sys2Proof.Machine
open Sys2Proof.Claims

/-! What follows a call or starts an operation leaves the chip -/

@[simp] theorem transportError_chip (s : State) : (transportError s).chip = s.chip := rfl

theorem proceed_chip (r : Request) {p : Phase} (rs : List Byte) (u : State) (hp : p ≠ .idle) :
    (proceed r p rs u).chip = u.chip := by
  obtain ⟨v, hv, -, h⟩ := proceed_cases r p rs u hp
  have hchip : v.chip = u.chip := by rcases hv with rfl | rfl | ⟨-, -, -, rfl⟩ <;> rfl
  rcases h with ⟨q, -, -, h⟩ | ⟨c, x, d, h⟩ <;> simp [h, hchip]

theorem start_chip (r : Request) (u : State) : (start r u).chip = u.chip := by
  obtain ⟨v, hv, h⟩ := start_cases r u
  have hchip : v.chip = u.chip := by rcases hv with rfl | ⟨-, -, rfl⟩ | ⟨-, rfl⟩ <;> rfl
  rcases h with ⟨h, -⟩ | ⟨c, h⟩ <;> simp [h, hchip]

/-- The chip after a host operation's call is the chip the call leaves. -/
theorem attempt_chip (q : CallResult × State) (r : Request) {p : Phase} (hp : p ≠ .idle) :
    (attempt q (proceed r p)).chip = q.2.chip :=
  attempt_keeps (·.chip) (fun rs => proceed_chip r rs q.2 hp) rfl

/-- In phase IDLE no call is made. -/
theorem exec_idle_chip {i : Instr} {r : Request} (hr : IsRequest i r) {s t : State} (hp : s.reg.phase = .idle)
    (h : exec i s = .next t) : t.chip = s.chip ∧ t.bus = s.bus := by
  obtain ⟨e, he⟩ := hr
  rw [exec_idle he hp, accept] at h
  cases h
  split
  · exact ⟨start_chip r _, (start_kept r _).bus⟩
  · exact ⟨rfl, rfl⟩

/-! The array after a call, an instruction and a step -/

/-- A call keeps the array or loses it whole, and loses it only by an `err` or with `hazard` set (R126, R261, R262, R268,
R270). -/
theorem perform_mem (c : Call) (s : State) :
    (perform c s).2.chip.mem = s.chip.mem ∨
      ((perform c s).2.chip.mem.cells = [] ∧ (s.answer ≠ .err → (perform c s).2.chip.hazard = true)) := by
  rcases perform_cases c s with ⟨-, h⟩ | ⟨ha, ev, h⟩ | ⟨ov, -, h⟩
  · simp [h]
  · simp [h, ha]
  · rcases c with _ | bs | bs | n <;> rw [h]
    · exact .inl rfl
    · exact (endFrame_legal 0 (shiftOut bs s.answered)).mem.imp_right fun ⟨hm, hz⟩ => ⟨hm, fun _ => hz⟩
    · exact .inl (commandSeen_mem (shiftOut bs s.answered))
    · exact (endFrame_legal n s.answered).mem.imp_right fun ⟨hm, hz⟩ => ⟨hm, fun _ => hz⟩

/-- So does a whole host operation, in any phase. -/
theorem exec_request_mem {i : Instr} {r : Request} (hr : IsRequest i r) {s t : State} (h : exec i s = .next t) :
    t.chip.mem = s.chip.mem ∨ (t.chip.mem.cells = [] ∧ (s.answer ≠ .err → t.chip.hazard = true)) := by
  by_cases hp : s.reg.phase = .idle
  · exact .inl (congrArg Chip.mem (exec_idle_chip hr hp h).1)
  · obtain ⟨-, c, -, rfl⟩ := exec_call_inv hr hp h
    rw [attempt_chip _ r hp]
    exact perform_mem c s

theorem exec_mem {i : Instr} {s t : State} (h : exec i s = .next t) :
    t.chip.mem = s.chip.mem ∨ t.chip.mem.cells = [] := by
  rcases isFrame_or_isRequest i with hf | ⟨r, hr⟩
  · obtain ⟨f, hexec, hlegal⟩ := exec_frame hf
    rw [hexec] at h
    cases h
    exact (hlegal s.cfg s.chip s.env).mem.imp_right And.left
  · exact (exec_request_mem hr h).imp_right And.left

/-- R331: a reset draws the array where it cuts an operation. -/
theorem resetBlock_mem (s : State) :
    (resetBlock s).chip.mem = s.chip.mem ∨ (resetBlock s).chip.mem.cells = [] := by
  by_cases hp : s.reg.phase = .idle <;> simp [resetBlock, hp]

/-- The invariant holds of an array that is as before, and of one with no byte listed. -/
theorem ArrayInv.of_mem {s t : State} (h : ArrayInv s) (hc : t.cfg = s.cfg)
    (hm : t.chip.mem = s.chip.mem ∨ t.chip.mem.cells = []) : ArrayInv t := by
  rcases hm with hm | hm
  · rwa [ArrayInv, hc, hm]
  · simp [ArrayInv, Memory.wf, Memory.below, hm, cellsRise]

/-- R259, R260, R264: the bytes a completion writes stand below `FLASH_SIZE`, each in canonical form. -/
theorem ArrayInv.completes {s : State} (h : ArrayInv s) : ArrayInv (completeStep s) := by
  obtain ⟨hwf, hbelow⟩ := h
  cases hb : s.chip.busy with
  | none => exact .of_mem ⟨hwf, hbelow⟩ rfl (.inl (by simp [chipComplete, hb]))
  | some b =>
    simp only [ArrayInv, completeStep_chip, completeStep_cfg, chipComplete, hb]
    exact ⟨completedMemory_wf s.cfg s.env b hwf, completedMemory_below s.cfg s.env b hbelow⟩

/-- Settles O59: a completion writes in canonical form inside the array; every other move keeps the array or draws it
whole. -/
theorem arrayInvariantIsKept : Obligations.ArrayInvariantIsKept := by
  intro s t h ht
  have hcfg := step_cfg ht
  cases step_did ht with
  | completes _ ht => exact ht ▸ ArrayInv.completes (s := s.moved) h
  | waits _ _ ht | puts _ _ _ ht | takes _ ht => exact h.of_mem hcfg (.inl (ht ▸ rfl))
  | accepts _ _ _ _ _ _ _ ht | calls _ _ _ _ ht | frameRuns _ _ _ _ _ _ ht =>
    have hm := exec_mem ht
    exact h.of_mem hcfg hm
  | resets _ ht => exact h.of_mem hcfg (ht ▸ resetBlock_mem s.moved)
  | frameOpen o f _ _ _ ht =>
    subst ht
    exact h.of_mem hcfg ((chipEnds_legal (o.push f.sent) f.nIn s.cfg s.chip s.moved.env).mem.imp_right And.left)
  | frameStray f _ _ _ ht =>
    subst ht
    exact h.of_mem hcfg ((hazardOut_legal f.nIn s.chip s.moved.env).mem.imp_right And.left)

end Sys2Proof.Machine
end

section
/-! R74, R120, R234, R265: what a host operation leaves unchanged of chip and array. -/
namespace Sys2Proof.Machine
open Sys2Proof.Claims

/-- The chip's commands that only read (R252, R255, R257). -/
def IsReadCommand (i : Instr) : Prop := i = .rdsr ∨ i = .rdid ∨ ∃ a n, i = .read a n

/-- A whole frame of a command that only reads leaves the chip, or sets `hazard` (R262). -/
theorem chipFrame_of_read {p : Params} {f : Frame} {i : Instr} (hd : decodeFrame p.eraseOpcode f = .ok i)
    (hi : IsReadCommand i) (sb : Bool) (c : Chip) (e : Env) :
    (chipFrame p f sb c e).chip = c ∨ (chipFrame p f sb c e).chip.hazard = true := by
  rcases hi with rfl | hi
  · left; simp [chipFrame, hd, chipRdsr]
  · by_cases hb : sb = true ∨ c.busy ≠ none
    · right
      refine chipFrame_busy e hb ?_
      rcases hi with rfl | ⟨a, n, rfl⟩ <;> simp [hd]
    · left
      obtain ⟨rfl, hc⟩ : sb = false ∧ c.busy = none := by simpa using hb
      rcases hi with rfl | ⟨a, n, rfl⟩ <;> simp [chipFrame, hd, hc, chipRdid, chipRead]

/-- So does the end of an open frame with such a command; a line without a frame, or another slot's, leaves the chip
anyway. -/
theorem endFrame_of_read {s : State} {n : Nat}
    (h : ∀ f, s.bus.frame = some f → f.nIn = 0 ∧ f.mixed = false ∧
      ∃ i, decodeFrame s.cfg.eraseOpcode ⟨f.sent, n⟩ = .ok i ∧ IsReadCommand i) :
    (endFrame n s).chip = s.chip ∨ (endFrame n s).chip.hazard = true := by
  cases hf : s.bus.frame with
  | none => left; simp [endFrame, hf]
  | some f =>
    obtain ⟨hn, hm, i, hd, hi⟩ := h f hf
    by_cases ht : s.bus.target.toNat = s.cfg.chipSlot
    · rw [endFrame_whole hf hn hm ht]
      exact chipFrame_of_read hd hi f.sawBusy s.chip s.env
    · left; simp [endFrame, hf, ht]

/-- The frame on the line in a phase that ends it carries that phase's command alone, where its bytes are known. -/
theorem FrameInv.frame {s : State} (h : FrameInv s) {f : OpenFrame} (hf : s.bus.frame = some f) (hk : f.known = true) :
    openCommand s.reg.op s.reg.arg0 s.reg.phase = some f.sent ∧ f.nIn = 0 ∧ f.mixed = false := by
  obtain ⟨-, -, hknown, -⟩ := h
  exact (hknown s.bus.target.toNat f hf hk).2

/-- R110: the operations that only read, and wait_ready, have no phase that writes, and only the two that send a command
of their own have its phases. -/
theorem callPhases_of_reads : ∀ op : BitVec 4, op = 1#4 ∨ op = 2#4 ∨ op = 4#4 ∨ op = 7#4 →
    Phase.wrenWrite ∉ callPhases op ∧ Phase.dataWrite ∉ callPhases op ∧
      (Phase.cmdWrite ∈ callPhases op → op = 1#4 ∨ op = 4#4) ∧
      (Phase.dataRead ∈ callPhases op → op = 1#4 ∨ op = 4#4) := by decide

/-- The calls of the operations that only read, and of wait_ready: none of them is a write, and a read ends the frame of a
command that only reads. -/
theorem callOf_of_reads {e : Byte} {r : Request} {p : Phase} {c : Call}
    (hr : r.op = 1#4 ∨ r.op = 2#4 ∨ r.op = 4#4 ∨ r.op = 7#4) (hc : callOf e r p = some c) :
    c = .select ∨ (∃ bs, c = .continue bs) ∨
      ∃ n, c = .read n ∧ ∀ bs, openCommand r.op r.arg0 p = some bs →
        ∃ i, decodeFrame e ⟨bs, n⟩ = .ok i ∧ IsReadCommand i := by
  obtain ⟨hwren, hdata, hcmd, hread⟩ := callPhases_of_reads r.op hr
  unfold callOf at hc
  split at hc
  case isFalse => cases hc
  case isTrue hp =>
    cases p with
    | idle => cases hc
    | select => cases hc; exact .inl rfl
    | wrenWrite => exact absurd hp hwren
    | dataWrite => exact absurd hp hdata
    | statusCmd => cases hc; exact .inr (.inl ⟨_, rfl⟩)
    | statusRead =>
      cases hc
      refine .inr (.inr ⟨1, rfl, ?_⟩)
      rintro _ ⟨⟩
      exact ⟨.rdsr, rfl, .inl rfl⟩
    | cmdWrite =>
      rcases hcmd hp with h | h <;> simp only [h] at hc <;> cases hc <;> exact .inr (.inl ⟨_, rfl⟩)
    | dataRead =>
      cases hc
      refine .inr (.inr ⟨_, rfl, ?_⟩)
      rcases hread hp with h | h <;> rw [h] <;> rintro _ ⟨⟩
      · exact ⟨.rdid, rfl, .inr (.inl rfl)⟩
      · exact ⟨.read (wireAddr r.arg0) r.arg1.toNat, by simp [decodeFrame, encAddr], .inr (.inr ⟨_, _, rfl⟩)⟩

/-- A call of such an operation leaves the chip, or sets `hazard`, unless it fails or ends a frame of unknown bytes. -/
theorem perform_of_reads {s : State} {c : Call} (hinv : FrameInv s)
    (hr : s.reg.op = 1#4 ∨ s.reg.op = 2#4 ∨ s.reg.op = 4#4 ∨ s.reg.op = 7#4)
    (hc : callOf s.cfg.eraseOpcode (latchedRequest s) s.reg.phase = some c) (ha : s.answer ≠ .err)
    (hk : ∀ f, s.bus.frame = some f → f.known = true) (hz : (perform c s).2.chip.hazard = false) :
    (perform c s).2.chip = s.chip := by
  rcases perform_cases c s with ⟨-, h⟩ | ⟨herr, -⟩ | ⟨ov, -, h⟩
  · simp [h]
  · contradiction
  · rcases callOf_of_reads hr hc with rfl | ⟨bs, rfl⟩ | ⟨n, rfl, hread⟩ <;> rw [h] at hz ⊢
    · rfl
    · exact commandSeen_clear hz
    · refine (endFrame_of_read (s := s.answered) fun f hf => ?_).resolve_right (by simpa using hz)
      obtain ⟨hopen, hn, hm⟩ := hinv.frame hf (hk f hf)
      exact ⟨hn, hm, hread f.sent hopen⟩

/-- R120: `spi_select` has no bus effect. -/
theorem perform_select {s : State} (ha : s.answer ≠ .err) :
    (perform .select s).2.chip = s.chip ∧ (perform .select s).2.bus.lines = s.bus.lines ∧
      (perform .select s).2.bus.rx = s.bus.rx := by
  rcases perform_cases .select s with ⟨-, h⟩ | ⟨herr, -⟩ | ⟨ov, -, h⟩
  · simp [h]
  · contradiction
  · simp [h]

theorem callOf_select {e : Byte} {r : Request} {c : Call} (h : callOf e r .select = some c) : c = .select := by
  unfold callOf at h
  split at h <;> cases h
  rfl

/-- Settles O45: phase IDLE makes no call; any other phase leaves chip and array as its call does. -/
theorem hostOperationMemoryFrame : Obligations.HostOperationMemoryFrame := by
  intro s t i r hr h
  refine ⟨fun hp => exec_idle_chip hr hp h, fun hp ha => ?_, fun ha hz x => ?_, fun ha hk hz hinv hl hop => ?_⟩
  · have hi : s.reg.phase ≠ .idle := by rw [hp]; decide
    obtain ⟨-, c, hc, rfl⟩ := exec_call_inv hr hi h
    rw [hp] at hc
    obtain rfl := callOf_select hc
    rw [attempt_chip _ r hi, (attempt_kept _ r hi).bus]
    exact perform_select ha
  · rcases exec_request_mem hr h with hm | ⟨-, hm⟩
    · rw [hm]
    · rw [hm ha] at hz
      cases hz
  · by_cases hp : s.reg.phase = .idle
    · exact (exec_idle_chip hr hp h).1
    · obtain ⟨-, c, hc, rfl⟩ := exec_call_inv hr hp h
      subst hl
      rw [attempt_chip _ _ hp] at hz ⊢
      exact perform_of_reads hinv hop hc ha hk hz

end Sys2Proof.Machine
end

section
/-! Encode and decode (R91, R92, R94, R97, R101): what the encoder writes for a well-formed instruction the decoder
reads as that instruction, and every packet the decoder reads is what the encoder writes. -/
namespace Sys2Proof

/-! The frames with an address, row by row (R92, R93) -/

theorem decodeFrame_read (e : Byte) (a : Addr) (n : Nat) : decodeFrame e ⟨0x03 :: encAddr a, n⟩ = .ok (.read a n) := by
  simp [decodeFrame, encAddr]

/-- R258: a program frame carries at least one payload byte. -/
theorem decodeFrame_pp (e : Byte) (a : Addr) {d : List Byte} (hd : d ≠ []) :
    decodeFrame e ⟨0x02 :: (encAddr a ++ d), 0⟩ = .ok (.pp a d) := by
  cases d with
  | nil => contradiction
  | cons b d => simp [decodeFrame, encAddr]

/-- R11: an erase opcode that is none of the five fixed ones is read as the erase. -/
theorem decodeFrame_se {e : Byte} (he : eraseOpcodeAllowed e = true) (a : Addr) :
    decodeFrame e ⟨e :: encAddr a, 0⟩ = .ok (.se a) := by
  simp_all [eraseOpcodeAllowed, decodeFrame, encAddr]

/-! Either kind of packet -/

/-- The frame of a well-formed command decodes to it. -/
theorem decodeFrame_of_encode {e : Byte} {i : Instr} {f : Frame} (he : eraseOpcodeAllowed e = true)
    (hw : i.wellFormed = true) (h : encode e i = .frame f) : decodeFrame e f = .ok i := by
  cases i <;> cases h
  case rdsr | wren | rdid => rfl
  case read a n => exact decodeFrame_read e a n
  case pp a d =>
    refine decodeFrame_pp e a ?_
    rintro rfl
    cases hw
  case se a => exact decodeFrame_se he a

/-- The request of a well-formed host operation decodes to it. -/
theorem decodeRequest_of_encode {e : Byte} {i : Instr} {r : Request} (hw : i.wellFormed = true)
    (h : encode e i = .request r) : decodeRequest r = .ok i := by
  cases i <;> cases h
  case pageProgram a n d => exact if_pos hw
  case reserved k x y =>
    obtain ⟨hr, hi⟩ := Laws.EncodeForm.reserved k x y e hw
    rw [decodeRequest, if_pos hr, hi]
  all_goals rfl

/-- Settles O2: by the kind of packet the instruction is encoded in. -/
theorem decodeOfEncodeIsTheInstruction : Obligations.DecodeOfEncodeIsTheInstruction := by
  intro e i he hw
  cases h : encode e i with
  | frame f => exact decodeFrame_of_encode he hw h
  | request r => exact decodeRequest_of_encode hw h

/-- Settles O3: by the kind of packet. -/
theorem decodedPacketIsTheEncoding : Obligations.DecodedPacketIsTheEncoding := by
  intro e p i h
  cases p with
  | frame f => exact encode_of_decodeFrame h
  | request r => exact (encode_of_decodeRequest h e).2

/-- Settles O1: the decoder evaluated on each word. -/
theorem wordsOfEveryRowDecode : Obligations.WordsOfEveryRowDecode := by
  refine ⟨?_, ?_, ?_, ?_, ?_, ?_, ?_, ?_, ?_, ?_, ?_, ?_, ?_, ?_, ?_⟩ <;> rfl

end Sys2Proof
end

section
/-! The response bundle (R103, R104, R109). -/
namespace Sys2Proof.Machine

/-- R104: code 7 is the number of no result code. -/
theorem ResultCode.toBits_ne_seven (c : ResultCode) : c.toBits ≠ 7#3 := by
  cases c <;> decide

/-- R103: the three fields of the bundle, each where the rule places it. -/
theorem Response.bundle_fields (r : Response) :
    r.bundle.extractLsb' 27 3 = r.code.toBits ∧ r.bundle.extractLsb' 24 3 = r.ephase.toBits ∧
      r.bundle.extractLsb' 0 24 = r.value := by
  have hp := r.ephase.toBits.isLt
  have hv := r.value.isLt
  have hb : r.bundle.toNat = r.code.toBits.toNat * 2 ^ 27 + r.ephase.toBits.toNat * 2 ^ 24 + r.value.toNat := by
    simp only [Response.bundle, BitVec.toNat_append]
    rw [← Nat.shiftLeft_add_eq_or_of_lt (by omega), ← Nat.shiftLeft_add_eq_or_of_lt (by omega)]
    simp only [Nat.shiftLeft_eq]
    omega
  refine ⟨?_, ?_, ?_⟩ <;> apply BitVec.eq_of_toNat_eq <;>
    simp only [BitVec.extractLsb'_toNat, hb, Nat.shiftRight_eq_div_pow] <;> omega

/-- Settles O5: the fields of the bundle, and the tables of numbers evaluated. -/
theorem responseBundleCarriesItsFields : Obligations.ResponseBundleCarriesItsFields := by
  refine ⟨fun r => ?_, rfl, rfl⟩
  obtain ⟨hcode, hphase, hvalue⟩ := r.bundle_fields
  exact ⟨hcode, hphase, hvalue, r.code.toBits_ne_seven⟩

end Sys2Proof.Machine
end

section
/-! The address bytes (R65, R94): in the encoder's frames, and in what the operations with an address send (R157, R200,
R210). -/
namespace Sys2Proof.Machine

/-- R65, R94: the bytes of a valid address, most significant first. -/
theorem encAddr_wireAddr_toNat {a : Word} (ha : a.toNat < 2 ^ 24) :
    (encAddr (wireAddr a)).map BitVec.toNat = [a.toNat / 2 ^ 16, a.toNat / 2 ^ 8 % 2 ^ 8, a.toNat % 2 ^ 8] := by
  simp only [encAddr, wireAddr, List.map_cons, List.map_nil, BitVec.extractLsb'_toNat, Nat.shiftRight_eq_div_pow,
    List.cons.injEq, and_true]
  omega

/-- R92: the address bytes follow the first byte of every frame with an address. -/
theorem encode_address {a : Addr} {i : Instr} {n : Nat} {d : List Byte} {e : Byte} {f : Frame}
    (hi : i = .read a n ∨ i = .pp a d ∨ i = .se a) (h : encode e i = .frame f) :
    (f.sent.drop 1).take 3 = encAddr a := by
  rcases hi with rfl | rfl | rfl <;> cases h <;> rfl

/-- R157, R200, R210: in phase CMD_WRITE an operation with an address sends one byte and the address. -/
theorem exec_cmdWrite_sends {s : State} {i : Instr} {a n : Word} {d : List Byte} {ov : Option (List Byte)}
    (hi : i = .readData a n ∨ i = .pageProgram a n d ∨ i = .sectorErase a n) (hp : s.reg.phase = .cmdWrite)
    (ha : s.answer = .ok ov) :
    ∃ t b, exec i s = .next t ∧
      (t.trace = .wc (b :: encAddr (wireAddr a)) :: s.trace ∨
        ∃ r, t.trace = .rsp r :: .w (b :: encAddr (wireAddr a)) :: s.trace) := by
  rcases hi with rfl | rfl | rfl
  · exact ⟨_, 0x03, by rw [exec, execReadData, hp], .inl (by simp [try_continue_ok ha])⟩
  · exact ⟨_, 0x02, by rw [exec, execPageProgram, hp], .inl (by simp [try_continue_ok ha])⟩
  · exact ⟨_, s.cfg.eraseOpcode, by rw [exec, execSectorErase, hp],
      .inr ⟨⟨.ok, .idle, 0, []⟩, by simp [try_write_ok ha]⟩⟩

/-- Settles O4: in each of the three places the bytes are `enc_addr(a)`. -/
theorem addressBytesAreBigEndian : Obligations.AddressBytesAreBigEndian := by
  intro a ha
  refine ⟨encAddr_wireAddr_toNat ha, fun e i n d f hi h => ?_, fun s i n d ov hi hp hok => ?_⟩
  · rw [encode_address hi h, encAddr_wireAddr_toNat ha]
  · obtain ⟨t, b, h, ht⟩ := exec_cmdWrite_sends hi hp hok
    exact ⟨t, _, h, ht, encAddr_wireAddr_toNat ha⟩

end Sys2Proof.Machine
end

section
/-! Requests at the port (R100, R319, R308): refused, put, or accepted and latched. -/
namespace Sys2Proof.Machine
open Sys2Proof.Claims

/-- R100: well formed, by the two kinds of request. -/
theorem request_wellFormed_iff (r : Request) :
    r.wellFormed = true ↔ (r.op = 5#4 → r.payload.length = r.arg1.toNat) ∧ (r.op ≠ 5#4 → r.payload = []) := by
  by_cases h5 : r.op = 5#4 <;> simp [Request.wellFormed, h5]

/-- R100: a malformed request at the head of the port is refused when FLASHCMD is ready for it. -/
theorem blockStep_of_malformed {s : State} {r : Request} {rs : List Request} (hr : s.ready = true)
    (hw : s.port.waiting = r :: rs) (hm : r.wellFormed = false) : blockStep s = .refused .malformedRequest := by
  obtain ⟨hp, hn⟩ := s.ready_iff.1 hr
  simp [blockStep, hp, hn, hw, decodeRequest, hm]

/-- Settles O12: the two moves that look at a request's form, and what putting one changes. -/
theorem malformedRequestIsRefused : Obligations.MalformedRequestIsRefused := by
  refine ⟨fun s r ha h => ?_, fun s r ha he h5 hn => ?_⟩
  · have hm : r.wellFormed = false := by
      rw [Bool.eq_false_iff, ne_eq, request_wellFormed_iff]
      tauto
    refine ⟨fun he => ?_, fun rs he hr hw => ?_⟩ <;> rw [step_eq_stepEvent ha, he]
    · simp [stepEvent, hm]
    · exact blockStep_of_malformed (s := s.moved) hr hw hm
  · have hw : r.wellFormed = true := (request_wellFormed_iff r).2 ⟨h5, hn⟩
    refine ⟨putRequest r s.moved, ?_, rfl, rfl, rfl, rfl, rfl, rfl, rfl⟩
    rw [step_eq_stepEvent ha, he]
    exact if_pos hw

/-! How each kind of operation starts -/

/-- R101: the op codes, by how their operations start. -/
theorem op_kinds : ∀ op : BitVec 4, op = 0#4 ∨ (op = 1#4 ∨ op = 2#4 ∨ op = 3#4) ∨ (op = 4#4 ∨ op = 5#4 ∨ op = 6#4) ∨
    op = 7#4 ∨ 8 ≤ op.toNat := by decide

theorem start_of_bind {r : Request} (h : r.op = 0#4) : start r = bindSlot r.arg0 := if_pos h

theorem start_of_plain {r : Request} (h : r.op = 1#4 ∨ r.op = 2#4 ∨ r.op = 3#4) :
    start r = requireBound (goto .select) := by
  rcases h with h | h | h <;> simp [start, h]

theorem start_of_addressed {r : Request} (h : r.op = 4#4 ∨ r.op = 5#4 ∨ r.op = 6#4) :
    start r = requireBound (requireAddress r.arg0 (goto .select)) := by
  rcases h with h | h | h <;> simp [start, h]

theorem start_of_waitReady {r : Request} (h : r.op = 7#4) : start r = requireBound (startPolling r.arg1) := by
  simp [start, h]

theorem start_of_reserved {r : Request} (h : 8 ≤ r.op.toNat) : start r = raiseError .illegalOp .idle 0 := by
  have hne (k : BitVec 4) (hk : k.toNat < 8) : r.op ≠ k := by
    rintro rfl
    omega
  simp [start, hne]

/-- R308: a latched operation with traffic whose checks pass goes to phase SELECT; wait_ready clears `POLLS` (R230). -/
theorem start_of_checks {r : Request} {u : State} (hlo : 1 ≤ r.op.toNat) (hhi : r.op.toNat ≤ 7)
    (hb : u.reg.bound = true) (ha : r.op = 4#4 ∨ r.op = 5#4 ∨ r.op = 6#4 → r.arg0.toNat < 2 ^ 24)
    (hn : r.op = 7#4 → r.arg1 ≠ 0#32) :
    start r u = goto .select (if r.op = 7#4 then setPolls 0 u else u) := by
  rcases op_kinds r.op with h | h | h | h | h
  · simp [h] at hlo
  · have h7 : r.op ≠ 7#4 := by rcases h with h | h | h <;> simp [h]
    simp [start_of_plain h, requireBound, hb, h7]
  · have h7 : r.op ≠ 7#4 := by rcases h with h | h | h <;> simp [h]
    have hvalid : addressValid r.arg0 = true := decide_eq_true (ha h)
    simp [start_of_addressed h, requireBound, hb, requireAddress, hvalid, h7]
  · simp [start_of_waitReady h, requireBound, hb, startPolling, hn h, h]
  · omega

/-- Settles O18: acceptance latches, and the checks of R308 pass. -/
theorem acceptedRequestIsLatched : Obligations.AcceptedRequestIsLatched := by
  intro s i r ⟨e, he⟩ hlo hhi hr hb ha hn
  obtain ⟨hp, -⟩ := s.ready_iff.1 hr
  have hstart := start_of_checks (u := latch r.op r.arg0 r.arg1 r.payload s) hlo hhi hb ha hn
  refine ⟨_, exec_idle he hp, ?_⟩
  rw [accept, if_pos hr, hstart]
  split_ifs with h7 <;> simp [NoTraffic, GoesOn, h7, hb]

end Sys2Proof.Machine
end

section
/-! Every response an operation gives (R103 to R107): which operation gives it, with which code, and the fields that go
with the code. -/
namespace Sys2Proof.Machine
open Sys2Proof.Claims

/-- The responses with which the operation of `r` can end as it goes from `s` to `t`, one row per way to end. -/
inductive EndsWith (r : Request) (s t : State) : Response → Prop where
  | bound (h : r.op = 0#4) : EndsWith r s t ⟨.ok, .idle, 0, []⟩
  | configError (h : r.op = 0#4 ∨ s.reg.bound = false) (hhi : r.op.toNat ≤ 7) :
      EndsWith r s t ⟨.configError, .idle, 0, []⟩
  | invalidAddress (h : r.op = 4#4 ∨ r.op = 5#4 ∨ r.op = 6#4) : EndsWith r s t ⟨.invalidAddress, .idle, 0, []⟩
  | noPolls (h : r.op = 7#4) (hn : r.arg1 = 0#32) : EndsWith r s t ⟨.timeout, .idle, 0, []⟩
  | illegalOp (h : 8 ≤ r.op.toNat) : EndsWith r s t ⟨.illegalOp, .idle, 0, []⟩
  | transportError (hlo : 1 ≤ r.op.toNat) (hhi : r.op.toNat ≤ 7) (hp : s.reg.phase ≠ .idle) :
      EndsWith r s t ⟨.transportError, s.reg.phase, 0, []⟩
  | written (h : r.op = 3#4 ∨ r.op = 5#4 ∨ r.op = 6#4) : EndsWith r s t ⟨.ok, .idle, 0, []⟩
  | status (h : r.op = 2#4 ∨ r.op = 7#4) : EndsWith r s t ⟨.ok, .idle, zext24 t.reg.sr, []⟩
  | notEnabled (h : r.op = 5#4 ∨ r.op = 6#4) : EndsWith r s t ⟨.writeNotEnabled, .idle, zext24 t.reg.sr, []⟩
  | polled (h : r.op = 7#4) : EndsWith r s t ⟨.timeout, .idle, zext24 t.reg.sr, []⟩
  | identity (h : r.op = 1#4) (b0 b1 b2 : Byte)
      (ht : t.trace = .rsp ⟨.ok, .idle, decAddr b0 b1 b2, []⟩ :: .rd 3 (some [b0, b1, b2]) :: s.trace) :
      EndsWith r s t ⟨.ok, .idle, decAddr b0 b1 b2, []⟩
  | data (h : r.op = 4#4) (rs : List Byte) (hlen : rs.length = r.arg1.toNat)
      (ht : t.trace = .rsp ⟨.ok, .idle, 0, rs⟩ :: .rd r.arg1.toNat (some rs) :: s.trace) :
      EndsWith r s t ⟨.ok, .idle, 0, rs⟩

/-! At the start -/

/-- R140: a bind ends with `OK` or `ConfigError`. -/
theorem bindSlot_response {h : Word} {u : State} {p : Response} (ht : (bindSlot h u).reg.resp = some p) :
    p = ⟨.ok, .idle, 0, []⟩ ∨ p = ⟨.configError, .idle, 0, []⟩ := by
  unfold bindSlot at ht
  split_ifs at ht <;> cases ht
  · exact .inr rfl
  · exact .inl rfl
  · exact .inr rfl

/-- R305: an operation that needs a binding goes on, or ends with `ConfigError` where there is none. -/
theorem requireBound_response {k : State → State} {u : State} {p : Response}
    (ht : (requireBound k u).reg.resp = some p) :
    (k u).reg.resp = some p ∨ (u.reg.bound = false ∧ p = ⟨.configError, .idle, 0, []⟩) := by
  unfold requireBound at ht
  split_ifs at ht with hb
  · exact .inl ht
  · cases ht
    exact .inr ⟨by simpa using hb, rfl⟩

/-- R302: an operation with an address goes on, or ends with `InvalidAddress`. -/
theorem requireAddress_response {a : Word} {k : State → State} {u : State} {p : Response}
    (ht : (requireAddress a k u).reg.resp = some p) :
    (k u).reg.resp = some p ∨ p = ⟨.invalidAddress, .idle, 0, []⟩ := by
  unfold requireAddress at ht
  split_ifs at ht
  · exact .inl ht
  · cases ht
    exact .inr rfl

/-- R232: wait_ready ends before its first call where its bound is 0. -/
theorem startPolling_response {n : Word} {u : State} {p : Response} (hu : u.reg.resp = none)
    (ht : (startPolling n u).reg.resp = some p) : n = 0#32 ∧ p = ⟨.timeout, .idle, 0, []⟩ := by
  unfold startPolling at ht
  split_ifs at ht with hn
  · cases ht
    exact ⟨hn, rfl⟩
  · simp [hu] at ht

/-- An operation that ends at its start, by its kind. -/
theorem start_endsWith {r : Request} {s u t : State} {p : Response} (hu : u.reg.resp = none)
    (hb : u.reg.bound = s.reg.bound) (ht : (start r u).reg.resp = some p) : EndsWith r s t p := by
  have hgoto : (goto .select u).reg.resp ≠ some p := by simp [hu]
  rcases op_kinds r.op with h | h | h | h | h
  · rw [start_of_bind h] at ht
    rcases bindSlot_response ht with rfl | rfl
    · exact .bound h
    · exact .configError (.inl h) (by simp [h])
  · rw [start_of_plain h] at ht
    obtain ⟨hn, rfl⟩ := (requireBound_response ht).resolve_left hgoto
    exact .configError (.inr (hb ▸ hn)) (by rcases h with h | h | h <;> simp [h])
  · rw [start_of_addressed h] at ht
    rcases requireBound_response ht with ht | ⟨hn, rfl⟩
    · obtain rfl := (requireAddress_response ht).resolve_left hgoto
      exact .invalidAddress h
    · exact .configError (.inr (hb ▸ hn)) (by rcases h with h | h | h <;> simp [h])
  · rw [start_of_waitReady h] at ht
    rcases requireBound_response ht with ht | ⟨hn, rfl⟩
    · obtain ⟨hn, rfl⟩ := startPolling_response hu ht
      exact .noPolls h hn
    · exact .configError (.inr (hb ▸ hn)) (by simp [h])
  · rw [start_of_reserved h] at ht
    cases ht
    exact .illegalOp h

/-! After a call -/

/-- R101: the operations with calls are 0x1 to 0x7. -/
theorem op_of_callPhases {op : BitVec 4} {p : Phase} (hp : p ∈ callPhases op) : 1 ≤ op.toNat ∧ op.toNat ≤ 7 := by
  have key : ∀ op : BitVec 4, callPhases op ≠ [] → 1 ≤ op.toNat ∧ op.toNat ≤ 7 := by decide
  exact key op (List.ne_nil_of_mem hp)

/-! The operations that pass through a phase (R110) -/

theorem op_of_wrenWrite : ∀ {op : BitVec 4}, .wrenWrite ∈ callPhases op → op = 3#4 ∨ op = 5#4 ∨ op = 6#4 := by decide

theorem op_of_statusRead : ∀ {op : BitVec 4},
    .statusRead ∈ callPhases op → op = 2#4 ∨ op = 5#4 ∨ op = 6#4 ∨ op = 7#4 := by decide

theorem op_of_dataWrite : ∀ {op : BitVec 4}, .dataWrite ∈ callPhases op → op = 5#4 := by decide

theorem op_of_dataRead : ∀ {op : BitVec 4}, .dataRead ∈ callPhases op → op = 1#4 ∨ op = 4#4 := by decide

/-- R182, R105: the gating ends an operation with `WriteNotEnabled` and the byte in `SR`, or the operation goes on. -/
theorem gateCheck_endsWith {r : Request} {s u : State} {p : Response} {k : State → State}
    (h : r.op = 5#4 ∨ r.op = 6#4) (hk : (k u).reg.resp = some p → EndsWith r s (k u) p)
    (ht : (gateCheck k u.reg.sr u).reg.resp = some p) : EndsWith r s (gateCheck k u.reg.sr u) p := by
  unfold gateCheck at ht ⊢
  split_ifs at ht ⊢
  · exact hk ht
  · cases ht
    exact .notEnabled h

/-- R201: a page_program without payload ends after its gating. -/
theorem programAfterGate_endsWith {r : Request} {s u : State} {p : Response} (h : r.op = 5#4) (hu : u.reg.resp = none)
    (ht : (programAfterGate r.arg1 u).reg.resp = some p) : EndsWith r s (programAfterGate r.arg1 u) p := by
  unfold programAfterGate at ht ⊢
  split_ifs at ht ⊢
  · cases ht
    exact .written (.inr (.inl h))
  · simp [hu] at ht

/-- R230, R231: a poll ends wait_ready with `OK` or `Timeout` and the byte in `SR`, or it polls again. -/
theorem afterPoll_endsWith {r : Request} {s u : State} {p : Response} (h : r.op = 7#4) (hu : u.reg.resp = none)
    (ht : (afterPoll r.arg1 u.reg.sr u).reg.resp = some p) : EndsWith r s (afterPoll r.arg1 u.reg.sr u) p := by
  unfold afterPoll at ht ⊢
  split_ifs at ht ⊢
  · cases ht
    exact .polled h
  · simp [hu] at ht
  · cases ht
    exact .status (.inr h)

/-- R36, R105: the ends of an operation after a status read, whose byte is in `SR`. -/
theorem statusRead_endsWith {r : Request} {s u : State} {rs : List Byte} {p : Response}
    (hp : Phase.statusRead ∈ callPhases r.op) (hu : u.reg.resp = none)
    (ht : (proceed r .statusRead rs u).reg.resp = some p) : EndsWith r s (proceed r .statusRead rs u) p := by
  have hv : (setSr (rs.getD 0 0) u).reg.resp = none := hu
  simp only [proceed] at ht ⊢
  generalize rs.getD 0 0 = b at *
  have hsr : b = (setSr b u).reg.sr := rfl
  generalize setSr b u = v at *
  subst hsr
  split_ifs at ht ⊢ with h2 h5 h6
  · cases ht
    exact .status (.inl h2)
  · exact gateCheck_endsWith (.inl h5) (programAfterGate_endsWith h5 hv) ht
  · exact gateCheck_endsWith (.inr h6) (fun hg => by simp [hv] at hg) ht
  · have h7 : r.op = 7#4 := by
      have := op_of_statusRead hp
      tauto
    exact afterPoll_endsWith h7 hv ht

/-- R129, R130: a read that returns `ok` delivers its number of bytes, and the trace shows them. -/
theorem perform_read_ok {n : Nat} {s u : State} {rs : List Byte} (h : perform (.read n) s = (.ok rs, u)) :
    rs.length = n ∧ u.trace = .rd n (some rs) :: s.trace := by
  rcases perform_cases (.read n) s with ⟨-, hc⟩ | ⟨-, ev, hc⟩ | ⟨ov, -, hc⟩ <;> rw [hc] at h <;> cases h
  simp

/-- R95, R107: the ends of an operation after its data phase. -/
theorem dataRead_endsWith {r : Request} {s u : State} {rs : List Byte} {p : Response}
    (hp : Phase.dataRead ∈ callPhases r.op)
    (hc : perform (.read (if r.op = 1#4 then 3 else r.arg1.toNat)) s = (.ok rs, u))
    (ht : (proceed r .dataRead rs u).reg.resp = some p) : EndsWith r s (proceed r .dataRead rs u) p := by
  obtain ⟨hlen, htrace⟩ := perform_read_ok hc
  rcases op_of_dataRead hp with h | h
  · rw [if_pos h] at hlen htrace
    obtain ⟨b0, b1, b2, rfl⟩ := List.length_eq_three.1 hlen
    rw [show proceed r .dataRead [b0, b1, b2] u = respond .ok .idle (decAddr b0 b1 b2) [] u from
      congrFun (if_pos h) u] at ht ⊢
    cases ht
    exact .identity h b0 b1 b2 (by rw [respond_trace, htrace])
  · have h1 : r.op ≠ 1#4 := by simp [h]
    rw [if_neg h1] at hlen htrace
    rw [show proceed r .dataRead rs u = respond .ok .idle 0 rs u from congrFun (if_neg h1) u] at ht ⊢
    cases ht
    exact .data h rs hlen (by rw [respond_trace, htrace])

/-- An operation that ends with a call that returned `ok`, by the phase of the call. -/
theorem proceed_endsWith {r : Request} {s u : State} {c : Call} {rs : List Byte} {p : Response} {e : Byte}
    (hp : s.reg.phase ∈ callPhases r.op) (hs : s.reg.resp = none) (hc : callOf e r s.reg.phase = some c)
    (hu : perform c s = (.ok rs, u)) (ht : (proceed r s.reg.phase rs u).reg.resp = some p) :
    EndsWith r s (proceed r s.reg.phase rs u) p := by
  have hn : u.reg.resp = none := by rw [← hs, ← perform_reg c s, hu]
  generalize hq : s.reg.phase = q at *
  cases q with
  | idle => exact absurd hp (idle_notMem_callPhases r.op)
  | select => simp [proceed, hn] at ht
  | statusCmd => simp [proceed, hn] at ht
  | wrenWrite =>
    simp only [proceed] at ht ⊢
    split_ifs at ht ⊢
    · cases ht
      exact .written (op_of_wrenWrite hp)
    · simp [hn] at ht
  | statusRead => exact statusRead_endsWith hp hn ht
  | cmdWrite =>
    simp only [proceed] at ht ⊢
    split_ifs at ht ⊢ with h5 h6
    · simp [hn] at ht
    · cases ht
      exact .written (.inr (.inr h6))
    · simp [hn] at ht
  | dataWrite =>
    cases ht
    exact .written (.inr (.inl (op_of_dataWrite hp)))
  | dataRead =>
    simp only [callOf, hp, if_true, Option.some.injEq] at hc
    subst hc
    exact dataRead_endsWith hp hu ht

/-- EVERY RESPONSE of a host operation. -/
theorem exec_endsWith {i : Instr} {r : Request} {s t : State} {p : Response} (hr : IsRequest i r)
    (hs : s.reg.resp = none) (h : exec i s = .next t) (ht : t.reg.resp = some p) : EndsWith r s t p := by
  obtain ⟨e, he⟩ := hr
  rcases exec_host_inv he h with ⟨-, ⟨-, rfl⟩ | ⟨-, rfl⟩⟩ |
    ⟨hp, hmem, c, hc, ⟨-, rfl⟩ | ⟨-, ev, rfl⟩ | ⟨ov, rs, u, -, hu, rfl⟩⟩
  · simp [hs] at ht
  · exact start_endsWith (u := latch r.op r.arg0 r.arg1 r.payload s) hs rfl ht
  · simp [hs] at ht
  · cases ht
    obtain ⟨hlo, hhi⟩ := op_of_callPhases hmem
    exact .transportError hlo hhi hp
  · exact proceed_endsWith hmem hs hc hu ht

/-! The two statements over all responses -/

/-- Settles O38: row by row of the responses. -/
theorem resultCodesComeFromTheirOperations : Obligations.ResultCodesComeFromTheirOperations := by
  intro s t i r p hr hs h ht
  cases exec_endsWith hr hs h ht with
  | bound h | noPolls h | polled h | identity h | data h | illegalOp h => simp [h]
  | configError h hhi => simp [h, Nat.lt_succ_of_le hhi]
  | transportError hlo hhi => simp [hlo, hhi, Nat.lt_succ_of_le hhi]
  | invalidAddress h | written h => rcases h with h | h | h <;> simp [h]
  | status h | notEnabled h => rcases h with h | h <;> simp [h]

/-- R105: a status byte as a number. -/
@[simp] theorem zext24_toNat (b : Byte) : (zext24 b).toNat = b.toNat := by
  have := b.isLt
  simp [zext24]
  omega

/-- Settles O39: row by row of the responses. -/
theorem responseFieldsFollowTheirRules : Obligations.ResponseFieldsFollowTheirRules := by
  intro s t i r p hr hs h ht
  cases exec_endsWith hr hs h ht with
  | configError | invalidAddress | illegalOp => simp
  | transportError _ _ hp => simp [hp]
  | bound h | polled h => simp [h]
  | noPolls h hn => simp [hn]
  | written h => rcases h with h | h | h <;> simp [h]
  | status h | notEnabled h => rcases h with h | h <;> simp [h]
  | identity h b0 b1 b2 htrace =>
    have hbytes : ∃ x y z : Byte,
        t.trace = .rsp ⟨.ok, .idle, decAddr b0 b1 b2, []⟩ :: .rd 3 (some [x, y, z]) :: s.trace ∧
        (decAddr b0 b1 b2).toNat = x.toNat * 2 ^ 16 + y.toNat * 2 ^ 8 + z.toNat :=
      ⟨b0, b1, b2, htrace, decAddr_toNat b0 b1 b2⟩
    simpa [h] using hbytes
  | data h rs hlen htrace => simpa [h, hlen] using htrace

end Sys2Proof.Machine
end

section
/-! R101: the ignored fields. No rule reads them: the start of an operation writes its response and its registers the
same whatever the latches and the trace hold, and its calls read the operands alone. -/
namespace Sys2Proof.Machine
open Sys2Proof.Claims

/-- The machine with other operand latches and another trace. -/
def State.relatched (x y : Word) (tr : List TraceEvent) (s : State) : State :=
  { s with reg := { s.reg with arg0 := x, arg1 := y }, trace := tr }

/-- `k` does not read the operand latches or the trace: it adds the same events to any trace, and leaves all else the
same. -/
def IgnoresLatches (k : State → State) : Prop :=
  ∀ s, ∃ evs, ∀ x y tr, k (s.relatched x y tr) = (k s).relatched x y (evs ++ tr)

/-- A choice whose condition does not read them. -/
theorem ite_ignoresLatches {P : State → Prop} [DecidablePred P] {k l : State → State} (hk : IgnoresLatches k)
    (hl : IgnoresLatches l) (hP : ∀ x y tr s, P (s.relatched x y tr) ↔ P s := by intros; rfl) :
    IgnoresLatches fun s => if P s then k s else l s := by
  intro s
  by_cases h : P s
  · simpa only [hP, h, if_true] using hk s
  · simpa only [hP, h, if_false] using hl s

theorem goto_ignoresLatches (p : Phase) : IgnoresLatches (goto p) := fun _ => ⟨[], fun _ _ _ => rfl⟩

theorem respond_ignoresLatches (c : ResultCode) (p : Phase) (v : BitVec 24) (d : List Byte) :
    IgnoresLatches (respond c p v d) := fun _ => ⟨[.rsp ⟨c, p, v, d⟩], fun _ _ _ => rfl⟩

theorem bindSlot_ignoresLatches (h : Word) : IgnoresLatches (bindSlot h) :=
  ite_ignoresLatches (respond_ignoresLatches _ _ _ _) <|
    ite_ignoresLatches (fun s => respond_ignoresLatches _ _ _ _ (setBound h s)) (respond_ignoresLatches _ _ _ _)

theorem requireBound_ignoresLatches {k : State → State} (hk : IgnoresLatches k) : IgnoresLatches (requireBound k) :=
  ite_ignoresLatches hk (respond_ignoresLatches _ _ _ _)

theorem requireAddress_ignoresLatches {k : State → State} (hk : IgnoresLatches k) (a : Word) :
    IgnoresLatches (requireAddress a k) :=
  ite_ignoresLatches hk (respond_ignoresLatches _ _ _ _)

theorem startPolling_ignoresLatches (n : Word) : IgnoresLatches (startPolling n) :=
  ite_ignoresLatches (fun s => respond_ignoresLatches _ _ _ _ (setPolls 0 s))
    fun s => goto_ignoresLatches .select (setPolls 0 s)

/-- The start of an operation reads its operands from the request. -/
theorem start_ignoresLatches (r : Request) : IgnoresLatches (start r) := by
  rcases op_kinds r.op with h | h | h | h | h
  · exact start_of_bind h ▸ bindSlot_ignoresLatches r.arg0
  · exact start_of_plain h ▸ requireBound_ignoresLatches (goto_ignoresLatches .select)
  · exact start_of_addressed h ▸
      requireBound_ignoresLatches (requireAddress_ignoresLatches (goto_ignoresLatches .select) r.arg0)
  · exact start_of_waitReady h ▸ requireBound_ignoresLatches (startPolling_ignoresLatches r.arg1)
  · exact start_of_reserved h ▸ respond_ignoresLatches .illegalOp .idle 0 []

/-- What follows a call depends on the op code, and on `arg1` in page_program and wait_ready alone. -/
theorem proceed_congr {r r' : Request} {p : Phase} (hop : r'.op = r.op)
    (harg : r.op = 5#4 ∨ r.op = 7#4 → r'.arg1 = r.arg1) (hp : p ∈ callPhases r.op) : proceed r' p = proceed r p := by
  funext rs u
  cases p with
  | statusRead =>
    simp only [proceed, hop]
    split_ifs with h2 h5 h6
    · rfl
    · rw [harg (.inl h5)]
    · rfl
    · have h7 : r.op = 7#4 := by
        have := op_of_statusRead hp
        tauto
      rw [harg (.inr h7)]
  | _ => simp only [proceed, hop]

/-- Two requests that are one operation with the same operands: they start the same, make the same calls, and do the
same with the answers. -/
structure SameOperation (r r' : Request) : Prop where
  op      : r'.op = r.op
  payload : r'.payload = r.payload
  start   : start r' = start r
  call    : ∀ e p, callOf e r' p = callOf e r p
  proceed : ∀ p ∈ callPhases r.op, proceed r' p = proceed r p

/-- R101: requests that differ in the fields their operation ignores are one operation. -/
theorem sameOperation_of_ignored {i i' : Instr} {r r' : Request} {h a b g g' k k' : Word}
    (hi : (i = .bind h g ∧ i' = .bind h g') ∨ (i = .readIdentity g k ∧ i' = .readIdentity g' k') ∨
      (i = .readStatus g k ∧ i' = .readStatus g' k') ∨ (i = .writeEnable g k ∧ i' = .writeEnable g' k') ∨
      (i = .sectorErase a g ∧ i' = .sectorErase a g') ∨ (i = .waitReady g b ∧ i' = .waitReady g' b))
    (hr : IsRequest i r) (hr' : IsRequest i' r') : SameOperation r r' := by
  obtain ⟨e, he⟩ := hr
  obtain ⟨e', he'⟩ := hr'
  rcases hi with ⟨rfl, rfl⟩ | ⟨rfl, rfl⟩ | ⟨rfl, rfl⟩ | ⟨rfl, rfl⟩ | ⟨rfl, rfl⟩ | ⟨rfl, rfl⟩ <;>
    cases he <;> cases he' <;>
    exact ⟨rfl, rfl, rfl, fun e p => by cases p <;> rfl, fun p hp => proceed_congr rfl (by simp) hp⟩

/-- During the operation the two do the same. -/
theorem SameOperation.exec_call {i i' : Instr} {r r' : Request} (h : SameOperation r r') (hr : IsRequest i r)
    (hr' : IsRequest i' r') {s : State} (hp : s.reg.phase ≠ .idle) : exec i' s = exec i s := by
  obtain ⟨e, he⟩ := hr
  obtain ⟨e', he'⟩ := hr'
  rw [Machine.exec_call he hp, Machine.exec_call he' hp, h.call]
  by_cases hm : s.reg.phase ∈ callPhases r.op
  · rw [h.proceed _ hm]
  · rw [callOf_eq_none hm]

/-- In phase IDLE with a response pending, a request does nothing (log entry 15). -/
theorem exec_of_not_ready {i : Instr} {r : Request} (hr : IsRequest i r) {s : State} (hp : s.reg.phase = .idle)
    (hs : s.ready = false) : exec i s = .next s := by
  obtain ⟨e, he⟩ := hr
  rw [exec_idle he hp, accept, if_neg (by simp [hs])]

/-- At acceptance the two do the same but for the latches and the `Req` event. -/
theorem SameOperation.exec_accepts {i i' : Instr} {r r' : Request} (h : SameOperation r r') (hr : IsRequest i r)
    (hr' : IsRequest i' r') {s t t' : State} (hs : s.ready = true) (ht : exec i s = .next t)
    (ht' : exec i' s = .next t') :
    ∃ evs, t.trace = evs ++ .req r.op r.arg0 r.arg1 r.payload :: s.trace ∧
      t' = t.relatched r'.arg0 r'.arg1 (evs ++ .req r'.op r'.arg0 r'.arg1 r'.payload :: s.trace) := by
  obtain ⟨e, he⟩ := hr
  obtain ⟨e', he'⟩ := hr'
  obtain ⟨hp, -⟩ := s.ready_iff.1 hs
  rw [exec_idle he hp, accept, if_pos hs] at ht
  rw [exec_idle he' hp, accept, if_pos hs] at ht'
  cases ht
  cases ht'
  obtain ⟨evs, hevs⟩ := start_ignoresLatches r (latch r.op r.arg0 r.arg1 r.payload s)
  refine ⟨evs, ?_, ?_⟩
  · exact congrArg State.trace (hevs r.arg0 r.arg1 (.req r.op r.arg0 r.arg1 r.payload :: s.trace))
  · rw [← hevs, h.start, h.op, h.payload]
    rfl

/-- Settles O42: during the operation, at acceptance, and in phase IDLE with a response pending. -/
theorem ignoredFieldsHaveNoEffect : Obligations.IgnoredFieldsHaveNoEffect := by
  intro s t t' i i' r r' h a b g g' k k' hi hr hr' ht ht'
  have hsame := sameOperation_of_ignored hi hr hr'
  by_cases hp : s.reg.phase = .idle
  · cases hs : s.ready
    · rw [exec_of_not_ready hr hp hs] at ht
      rw [exec_of_not_ready hr' hp hs] at ht'
      cases ht
      cases ht'
      exact ⟨rfl, fun _ => rfl, fun _ _ => rfl, fun h => absurd h (by simp)⟩
    · obtain ⟨evs, htr, rfl⟩ := hsame.exec_accepts hr hr' hs ht ht'
      exact ⟨rfl, fun hn => absurd hp hn, nofun, fun _ => ⟨evs, htr, rfl⟩⟩
  · have hsteps : t' = t := by
      rw [hsame.exec_call hr hr' hp, ht] at ht'
      cases ht'
      rfl
    subst hsteps
    exact ⟨rfl, fun _ => rfl, fun hq => absurd hq hp, fun hs => absurd (s.ready_iff.1 hs).1 hp⟩

end Sys2Proof.Machine
end

section
/-! R120, R123, R125, R131: a call by the transport's answer. What `ok` of `spi_select`, `err` and no answer make of any
host operation. -/
namespace Sys2Proof.Machine
open Sys2Proof.Claims

/-- In a phase of its own an operation makes the call of that phase and goes on as the answer says (R34, R110). -/
theorem exec_attempt {i : Instr} {r : Request} (hr : IsRequest i r) {s : State} (hp : s.reg.phase ∈ callPhases r.op) :
    ∃ c, callOf s.cfg.eraseOpcode r s.reg.phase = some c ∧
      exec i s = .next (attempt (perform c s) (proceed r s.reg.phase)) := by
  obtain ⟨e, he⟩ := hr
  obtain ⟨c, hc⟩ := callOf_eq_some hp s.cfg.eraseOpcode
  have hi : s.reg.phase ≠ .idle := fun hq => idle_notMem_callPhases r.op (hq ▸ hp)
  exact ⟨c, hc, by rw [exec_call he hi, hc]⟩

theorem perform_silent {s : State} (ha : s.answer = .silent) (c : Call) : perform c s = (.silent, s.answered) := by
  cases c <;> simp [perform, spiSelect, spiWrite, spiWriteContinue, spiRead, ha]

/-- Settles O19: the call of phase SELECT is `spi_select(HANDLE)`, and the operation proceeds from it. -/
theorem firstCallSelectsTheBoundSlot : Obligations.FirstCallSelectsTheBoundSlot := by
  intro s i r ov hr hlo hhi hp ha
  have hmem : s.reg.phase ∈ callPhases r.op := by rw [hp]; exact traffic_starts_in_select r.op hlo hhi
  obtain ⟨c, hc, hexec⟩ := exec_attempt hr hmem
  rw [hp] at hc hexec
  obtain rfl := callOf_select hc
  have hcall := try_select_ok (k := proceed r .select) ha s.reg.handle
  exact ⟨_, hexec.trans (congrArg _ hcall), rfl, rfl, rfl, rfl, rfl, rfl⟩

/-- Settles O28: `exec_err` is the operation, and the error writes the response alone. -/
theorem failedCallEndsWithTransportError : Obligations.FailedCallEndsWithTransportError := by
  intro s i r ⟨e, he⟩ hp ha
  exact ⟨_, exec_err he hp ha, ⟨rfl, rfl, rfl⟩, rfl, rfl, rfl⟩

/-- Settles O30: of a call without an answer only the answer is used up. -/
theorem callWithoutAnswerKeepsThePhase : Obligations.CallWithoutAnswerKeepsThePhase := by
  intro s i r hr hp ha
  obtain ⟨c, -, hexec⟩ := exec_attempt hr hp
  rw [perform_silent ha] at hexec
  exact ⟨s.answered, hexec, rfl, rfl, rfl, rfl, rfl⟩

end Sys2Proof.Machine
end

section
/-! The frame invariant (R121, R122, R123, R126), move by move. A `spi_write_continue` leaves its bytes in an open frame
and the operation goes on in the phase that ends it; every other call leaves no frame of known bytes, and the operation
goes on in a phase that ends none. -/
namespace Sys2Proof.Machine
open Sys2Proof.Claims

/-! The lines -/

/-- The part of the frame invariant that reads the lines: `o` is the command held open on the line of slot `h`, if one
is; any other open frame is of unknown bytes. -/
def FramesFit (o : Option (List Byte)) (h : Nat) (b : Bus) : Prop :=
  (o.isSome = true → b.frame.isSome = true) ∧
    (∀ k f, b.line k = some f → f.known = true → k = h ∧ o = some f.sent ∧ f.nIn = 0 ∧ f.mixed = false) ∧
    cellsRise 0 b.lines = true

theorem frameInv_iff (s : State) :
    FrameInv s ↔ (s.reg.phase ≠ .idle → s.reg.phase ≠ .select → s.bus.target = s.reg.handle) ∧
      FramesFit (openCommand s.reg.op s.reg.arg0 s.reg.phase) s.reg.handle.toNat s.bus := Iff.rfl

theorem FramesFit.rise {o : Option (List Byte)} {h : Nat} {b : Bus} (hb : FramesFit o h b) :
    cellsRise 0 b.lines = true := hb.2.2

/-- Where no command is held open, no frame has known bytes, on whatever line. -/
theorem framesFit_none_iff {h : Nat} {b : Bus} :
    FramesFit none h b ↔ (∀ k f, b.line k = some f → f.known = false) ∧ cellsRise 0 b.lines = true := by
  simp [FramesFit]

/-- Where no command is held open, slot and target do not matter. -/
theorem FramesFit.of_lines {h h' : Nat} {b b' : Bus} (hb : FramesFit none h b) (hl : b'.lines = b.lines) :
    FramesFit none h' b' := by
  rw [framesFit_none_iff] at hb ⊢
  simpa only [Bus.line, hl] using hb

/-- One line is closed, or left with a frame of unknown bytes, and the others stay. -/
theorem FramesFit.of_line {o : Option (List Byte)} {h : Nat} {b b' : Bus} (hb : FramesFit o h b)
    (hother : ∀ k, k ≠ h → b'.line k = b.line k) (hline : ∀ f, b'.line h = some f → f.known = false)
    (hrise : cellsRise 0 b'.lines = true) (h' : Nat) : FramesFit none h' b' := by
  obtain ⟨-, hknown, -⟩ := hb
  refine framesFit_none_iff.2 ⟨fun k f hf => ?_, hrise⟩
  by_cases hk : k = h
  · exact hline f (hk ▸ hf)
  · rw [hother k hk] at hf
    cases hkn : f.known with
    | false => rfl
    | true => exact absurd (hknown k f hf hkn).1 hk

/-- R45: closing a line. -/
theorem FramesFit.close {h : Nat} {b : Bus} (hb : FramesFit none h b) (k h' : Nat) :
    FramesFit none h' (b.setLine k none) := by
  have hb : FramesFit none k b := hb.of_lines rfl
  refine hb.of_line (fun j hj => Bus.line_setLine_other hj b none) (fun f hf => ?_) (Bus.setLine_rise _ _ _ hb.rise) h'
  simp at hf

/-- R126: an error or a reset leaves only unknown bytes on the bound slot's line. -/
theorem FramesFit.lineUnknown {o : Option (List Byte)} {s : State} (hb : FramesFit o s.reg.handle.toNat s.bus)
    (h : Nat) : FramesFit none h (lineUnknown s).bus :=
  hb.of_line (fun _ => lineUnknown_line) (fun _ => lineUnknown_frame s) (lineUnknown_rise hb.rise) h

/-- R121, R122: the bytes of a `spi_write_continue` are the command of the frame it opens; a frame that an error has
left open keeps its unknown bytes. -/
theorem FramesFit.opens {s : State} (hb : FramesFit none s.bus.target.toNat s.bus) (bs : List Byte) :
    FramesFit (some bs) s.bus.target.toNat (shiftOut bs s).bus := by
  obtain ⟨hunknown, hrise⟩ := framesFit_none_iff.1 hb
  have hopen : ∃ f, (shiftOut bs s).bus.frame = some f ∧ (f.known = true → f = .start s.chip.wip bs) := by
    cases hf : s.bus.frame with
    | none => exact ⟨_, shiftOut_frame_none hf bs, fun _ => rfl⟩
    | some f => exact ⟨_, shiftOut_frame_some hf bs, fun hk => by simp [hunknown _ f hf] at hk⟩
  obtain ⟨f, hf, hknown⟩ := hopen
  refine ⟨fun _ => by simp [hf], fun k g hg hk => ?_, shiftOut_rise hrise bs⟩
  by_cases hkt : k = s.bus.target.toNat
  · have hgf : g = f := by
      rw [Bus.frame, shiftOut_target, ← hkt, hg] at hf
      exact Option.some.inj hf
    rw [hkt, hgf, hknown (hgf ▸ hk)]
    exact ⟨rfl, rfl, rfl, rfl⟩
  · rw [shiftOut_line hkt] at hg
    rw [hunknown k g hg] at hk
    cases hk

/-! The calls -/

/-- R120: the bytes a call leaves in a frame that stays open. -/
def Call.heldOpen : Call → Option (List Byte)
  | .continue bs => some bs
  | _ => none

/-- R122: a command is sent where none is held open. -/
theorem openCommand_of_continue {e : Byte} {r : Request} {p : Phase} {bs : List Byte}
    (hc : callOf e r p = some (.continue bs)) : openCommand r.op r.arg0 p = none := by
  unfold callOf at hc
  split at hc
  case isFalse => cases hc
  case isTrue =>
    cases p with
    | idle | select | wrenWrite | statusCmd | cmdWrite => rfl
    | statusRead | dataWrite | dataRead => cases hc

theorem op_of_cmdWrite : ∀ {op : BitVec 4},
    .cmdWrite ∈ callPhases op → op = 1#4 ∨ op = 4#4 ∨ op = 5#4 ∨ op = 6#4 := by decide

/-- After a status read an operation ends, sends its command, or polls again: phases without a command held open. -/
theorem openCommand_statusRead (r : Request) (rs : List Byte) (u : State) :
    openCommand r.op r.arg0 (proceed r .statusRead rs u).reg.phase = none := by
  have hquiet {v : State} {q : Phase} (h : v.reg.phase = .idle ∨ v.reg.phase = q)
      (hq : openCommand r.op r.arg0 q = none) : openCommand r.op r.arg0 v.reg.phase = none := by
    rcases h with h | h <;> rw [h]
    · rfl
    · exact hq
  simp only [proceed]
  split_ifs
  · rfl
  · rcases gateCheck_phase (programAfterGate r.arg1) (rs.getD 0 0) (setSr (rs.getD 0 0) u) with h | h
    · exact hquiet (q := .idle) (.inl h) rfl
    · rw [h]; exact hquiet (programAfterGate_phase _ _) rfl
  · rcases gateCheck_phase (goto .cmdWrite) (rs.getD 0 0) (setSr (rs.getD 0 0) u) with h | h
    · exact hquiet (q := .idle) (.inl h) rfl
    · rw [h]; rfl
  · exact hquiet (afterPoll_phase _ _ _) rfl

/-- R110, R122: the phase an operation goes on in is the one that ends the frame its call has left open, if it has left
one. -/
theorem openCommand_proceed {e : Byte} {r : Request} {p : Phase} {c : Call} (hc : callOf e r p = some c)
    (rs : List Byte) (u : State) : openCommand r.op r.arg0 (proceed r p rs u).reg.phase = c.heldOpen := by
  unfold callOf at hc
  split at hc
  case isFalse => cases hc
  case isTrue hp =>
    cases p with
    | idle => cases hc
    | select => cases hc; simp only [proceed, goto_phase]; split_ifs <;> rfl
    | wrenWrite => cases hc; simp only [proceed]; split_ifs <;> rfl
    | statusCmd | dataWrite => cases hc; rfl
    | statusRead => cases hc; exact openCommand_statusRead r rs u
    | cmdWrite =>
      rcases op_of_cmdWrite hp with h | h | h | h
      all_goals
        simp only [h] at hc
        cases hc
        simp [proceed, h, openCommand, Call.heldOpen]
    | dataRead => cases hc; simp only [proceed]; split_ifs <;> rfl

theorem perform_ok {s : State} {ov : Option (List Byte)} (ha : s.answer = .ok ov) (c : Call) :
    ∃ rs, (perform c s).1 = .ok rs := by
  cases c <;> simp [perform, spiSelect, spiWrite, spiWriteContinue, spiRead, ha]

theorem attempt_of_ok {q : CallResult × State} {rs : List Byte} (hq : q.1 = .ok rs)
    (k : List Byte → State → State) : attempt q k = k rs q.2 := by
  rw [attempt, hq]

theorem perform_rise {s : State} (h : cellsRise 0 s.bus.lines = true) (c : Call) :
    cellsRise 0 (perform c s).2.bus.lines = true := by
  rcases perform_cases c s with ⟨-, hc⟩ | ⟨-, ev, hc⟩ | ⟨ov, -, hc⟩
  · rw [hc]; exact h
  · rw [hc]; exact lineUnknown_rise (s := s.answered) h
  · rcases c with _ | bs | bs | n <;> rw [hc]
    · exact h
    · exact endFrame_rise (shiftOut_rise (s := s.answered) h bs) 0
    · simpa using shiftOut_rise (s := s.answered) h bs
    · exact endFrame_rise (s := s.answered) h n

/-- R121: `spi_write` and `spi_read` end the frame on the target's line. -/
theorem perform_closes {s : State} {c : Call} {ov : Option (List Byte)} (ha : s.answer = .ok ov) (hs : c ≠ .select)
    (hc : c.heldOpen = none) : (perform c s).2.bus.line s.bus.target.toNat = none := by
  rcases perform_cases c s with ⟨hn, -⟩ | ⟨hn, -⟩ | ⟨ov', -, h⟩
  · simp [ha] at hn
  · simp [ha] at hn
  · have htarget := perform_target hs s
    rw [← htarget]
    change (perform c s).2.bus.frame = none
    rcases c with _ | bs | bs | n
    · contradiction
    · simp [h]
    · cases hc
    · simp [h]

/-- R121, R122: a call on the bound slot leaves the lines as the next phase expects them. -/
theorem perform_framesFit {s : State} {c : Call} {o ov : Option (List Byte)} (ha : s.answer = .ok ov)
    (hs : c ≠ .select) (ht : s.bus.target = s.reg.handle) (hb : FramesFit o s.reg.handle.toNat s.bus)
    (ho : ∀ bs, c = .continue bs → o = none) : FramesFit c.heldOpen s.reg.handle.toNat (perform c s).2.bus := by
  by_cases hheld : ∃ bs, c = .continue bs
  · obtain ⟨bs, rfl⟩ := hheld
    obtain rfl := ho bs rfl
    rw [← ht] at hb ⊢
    simpa [perform, spiWriteContinue, ha, Call.heldOpen] using FramesFit.opens (s := s.answered) hb bs
  · have hc : c.heldOpen = none := by
      rcases c with _ | bs | bs | n
      · rfl
      · rfl
      · exact absurd ⟨bs, rfl⟩ hheld
      · rfl
    have hclosed := perform_closes ha hs hc
    rw [hc]
    rw [ht] at hclosed
    exact hb.of_line (fun k hk => perform_line hk (ht ▸ hk) c) (fun f hf => by simp [hclosed] at hf)
      (perform_rise hb.rise c) _

/-! The moves -/

theorem FrameInv.framesFit {s : State} (h : FrameInv s) :
    FramesFit (openCommand s.reg.op s.reg.arg0 s.reg.phase) s.reg.handle.toNat s.bus := h.2

/-- The invariant reads FLASHCMD's registers, the target and the lines alone. -/
theorem FrameInv.congr {s t : State} (h : FrameInv s) (hreg : t.reg = s.reg) (htarget : t.bus.target = s.bus.target)
    (hlines : t.bus.lines = s.bus.lines) : FrameInv t := by
  simpa only [FrameInv, Bus.frame, Bus.line, hreg, htarget, hlines] using h

/-- Before the first call of an operation and after its end no command is held open. -/
theorem openCommand_of_quiet {p : Phase} (hp : p = .idle ∨ p = .select) (op : BitVec 4) (x : Word) :
    openCommand op x p = none := by
  rcases hp with rfl | rfl <;> rfl

theorem FrameInv.quiet {s : State} (h : FrameInv s) (hp : s.reg.phase = .idle ∨ s.reg.phase = .select) (k : Nat) :
    FramesFit none k s.bus := by
  have hb := h.framesFit
  rw [openCommand_of_quiet hp] at hb
  exact hb.of_lines rfl

theorem FrameInv.of_quiet {t : State} (hp : t.reg.phase = .idle ∨ t.reg.phase = .select) {k : Nat}
    (hb : FramesFit none k t.bus) : FrameInv t := by
  refine (frameInv_iff t).2 ⟨fun hi hs => absurd hp (not_or.2 ⟨hi, hs⟩), ?_⟩
  rw [openCommand_of_quiet hp]
  exact hb.of_lines rfl

/-- What a call's bytes make the operation do keeps the invariant, where the call has left target and lines as the next
phase expects them. -/
theorem FrameInv.proceeds {e : Byte} {r : Request} {p : Phase} {c : Call} (hp : p ≠ .idle)
    (hc : callOf e r p = some c) {u : State} (hop : u.reg.op = r.op) (harg : u.reg.arg0 = r.arg0)
    (ht : u.bus.target = u.reg.handle) (hb : FramesFit c.heldOpen u.reg.handle.toNat u.bus) (rs : List Byte) :
    FrameInv (proceed r p rs u) := by
  have hk := proceed_kept r rs u hp
  rw [frameInv_iff, hk.bus, hk.handle, hk.op, hk.arg0, hop, harg, openCommand_proceed hc]
  exact ⟨fun _ _ => ht, hb⟩

/-- `ok` of the call of a phase: `spi_select` makes the bound slot the target, which every later call finds. -/
theorem FrameInv.callReturns {s : State} {c : Call} {ov : Option (List Byte)} (h : FrameInv s)
    (hp : s.reg.phase ≠ .idle) (hc : callOf s.cfg.eraseOpcode (latchedRequest s) s.reg.phase = some c)
    (ha : s.answer = .ok ov) : FrameInv (attempt (perform c s) (proceed (latchedRequest s) s.reg.phase)) := by
  by_cases hsel : s.reg.phase = .select
  · have hb := h.quiet (.inr hsel) s.reg.handle.toNat
    have hcall : callOf s.cfg.eraseOpcode (latchedRequest s) .select = some c := hsel ▸ hc
    obtain rfl := callOf_select hcall
    rw [perform, try_select_ok ha]
    refine .proceeds hp hc ?_ ?_ ?_ ?_ []
    · rfl
    · rfl
    · rfl
    · exact hb.of_lines rfl
  · obtain ⟨htarget, hb⟩ := (frameInv_iff s).1 h
    have hs := callOf_ne_select hsel hc
    obtain ⟨rs, hrs⟩ := perform_ok ha c
    rw [attempt_of_ok hrs]
    refine .proceeds hp hc (by rw [perform_reg]; rfl) (by rw [perform_reg]; rfl) ?_ ?_ rs
    · rw [perform_target hs, perform_reg, htarget hp hsel]
    · rw [perform_reg]
      exact perform_framesFit ha hs (htarget hp hsel) hb fun bs hbs => openCommand_of_continue (hbs ▸ hc)

/-- A call of the latched operation keeps the invariant, whatever the transport answers. -/
theorem FrameInv.calls {s t : State} (h : FrameInv s) (hp : s.reg.phase ≠ .idle) {i : Instr}
    (hr : IsRequest i (latchedRequest s)) (ht : exec i s = .next t) : FrameInv t := by
  obtain ⟨-, c, hc, rfl⟩ := exec_call_inv hr hp ht
  rcases perform_cases c s with ⟨-, hcall⟩ | ⟨-, ev, hcall⟩ | ⟨ov, ha, -⟩
  · rw [hcall]; exact h.congr rfl rfl rfl
  · rw [hcall]; exact .of_quiet (.inl rfl) (FramesFit.lineUnknown (s := s.answered) h.framesFit 0)
  · exact h.callReturns hp hc ha

/-- An accepted request makes no call, and its operation ends or stands before its first. -/
theorem FrameInv.accepts {s t : State} (h : FrameInv s) (hp : s.reg.phase = .idle) {i : Instr} {r : Request}
    (hr : IsRequest i r) (ht : exec i s = .next t) : FrameInv t := by
  obtain ⟨-, hbus⟩ := exec_idle_chip hr hp ht
  obtain ⟨e, he⟩ := hr
  have hphase : t.reg.phase = .idle ∨ t.reg.phase = .select := by
    rcases exec_host_inv he ht with ⟨-, ⟨-, rfl⟩ | ⟨-, rfl⟩⟩ | ⟨hn, -⟩
    · exact .inl hp
    · obtain ⟨v, -, ⟨hv, -⟩ | ⟨c, hv⟩⟩ := start_cases r (latch r.op r.arg0 r.arg1 r.payload s) <;> rw [hv]
      · exact .inr rfl
      · exact .inl rfl
    · contradiction
  exact .of_quiet hphase (hbus ▸ h.quiet (.inl hp) 0)

/-- R331: a reset that cuts an operation leaves only unknown bytes on the bound slot's line; any other leaves
the lines. -/
theorem FrameInv.resets {s : State} (h : FrameInv s) : FrameInv (resetBlock s) := by
  refine .of_quiet (k := 0) (.inl rfl) ?_
  by_cases hp : s.reg.phase = .idle
  · simpa [resetBlock, hp] using h.quiet (.inl hp) 0
  · simpa [resetBlock, hp] using h.framesFit.lineUnknown 0

/-- Settles O58: a call or a reset leaves the lines as the phase it goes on in expects them; a frame of another
agent closes the chip's line or leaves it; no other move touches a line. -/
theorem openFrameInvariantIsKept : Obligations.OpenFrameInvariantIsKept := by
  intro s t h ht
  have hm : FrameInv s.moved := h.congr rfl rfl rfl
  cases step_did ht with
  | waits _ _ ht | completes _ ht | puts _ _ _ ht | frameStray _ _ _ _ ht => subst ht; exact hm.congr rfl rfl rfl
  | takes _ ht => subst ht; exact hm
  | accepts r i _ hp _ _ hd ht =>
    obtain ⟨-, hr⟩ := encode_of_decodeRequest hd 0
    exact .accepts (s := popRequest s.moved) hm hp ⟨0, hr⟩ ht
  | calls i _ hp hd ht =>
    obtain ⟨-, hr⟩ := encode_of_decodeRequest hd 0
    exact hm.calls hp ⟨0, hr⟩ ht
  | resets _ ht => subst ht; exact hm.resets
  | frameOpen o f _ hp _ ht => subst ht; exact .of_quiet (.inl hp) ((hm.quiet (.inl hp) 0).close s.cfg.chipSlot 0)
  | frameRuns f i _ _ _ hd ht =>
    obtain ⟨g, hg, -⟩ := exec_frame ⟨_, f, encode_of_decodeFrame hd⟩
    rw [hg] at ht
    cases ht
    exact hm.congr rfl rfl rfl

end Sys2Proof.Machine
end

section
/-! The binding (R140, R142, R144, R309): what a bind does, and that nothing but a reset undoes it. -/
namespace Sys2Proof.Machine
open Sys2Proof.Claims

/-- R144: a valid handle. -/
theorem slotValid_iff (p : Params) (h : Word) :
    p.slotValid h = true ↔ h.toNat < p.numSlots ∧ h.toNat ∈ p.boundSlots := by
  simp [Params.slotValid]

/-! A bind (R140) -/

/-- A bind binds an unbound instance to a valid slot. -/
theorem bindSlot_of_valid {h : Word} {u : State} (hb : u.reg.bound = false) (hv : u.cfg.slotValid h = true) :
    bindSlot h u = respond .ok .idle 0 [] (setBound h u) := by
  simp [bindSlot, hb, hv]

/-- A bound instance, or an invalid handle, makes a bind fail. -/
theorem bindSlot_of_invalid {h : Word} {u : State} (hf : u.reg.bound = true ∨ u.cfg.slotValid h = false) :
    bindSlot h u = respond .configError .idle 0 [] u := by
  rcases hf with hb | hv
  · simp [bindSlot, hb]
  · simp [bindSlot, hv]

/-- R100: an instance that is ready accepts a bind. -/
theorem exec_bind_of_ready {s : State} (hr : s.ready = true) (h g : Word) :
    exec (.bind h g) s = .next (bindSlot h (latch 0x0 h g [] s)) := by
  obtain ⟨hp, -⟩ := s.ready_iff.1 hr
  rw [exec_idle (e := 0) rfl hp, accept, if_pos hr, start_of_bind rfl]

/-- Settles O13: the outcome turns on whether the instance is unbound and the handle valid, and latching the request
changes neither. -/
theorem bindBindsOrReportsConfigError : Obligations.BindBindsOrReportsConfigError := by
  intro s h g hr
  refine ⟨_, exec_bind_of_ready hr h g, ?_⟩
  by_cases hok : s.reg.bound = false ∧ s.cfg.slotValid h = true
  · obtain ⟨hb, hv⟩ := hok
    obtain ⟨hlt, hmem⟩ := (slotValid_iff s.cfg h).1 hv
    rw [bindSlot_of_valid (u := latch 0x0 h g [] s) hb hv]
    refine ⟨⟨rfl, rfl, rfl, rfl, rfl⟩, fun _ => ⟨rfl, rfl, rfl, rfl, rfl⟩, fun hbad => ?_⟩
    simp [hb, hmem, Nat.not_le.2 hlt] at hbad
  · have hf : s.reg.bound = true ∨ s.cfg.slotValid h = false := by
      simpa [or_iff_not_imp_left] using hok
    rw [bindSlot_of_invalid (u := latch 0x0 h g [] s) hf]
    exact ⟨⟨rfl, rfl, rfl, rfl, rfl⟩, fun ⟨hb, hslot⟩ => absurd ⟨hb, (slotValid_iff s.cfg h).2 hslot⟩ hok,
      fun _ => ⟨rfl, rfl, rfl, rfl, rfl⟩⟩

/-! What keeps the binding (R142, R309) -/

/-- The start of an operation, a bind among them, leaves a binding as it is. -/
theorem start_binding (r : Request) {u : State} (hb : u.reg.bound = true) :
    (start r u).reg.bound = true ∧ (start r u).reg.handle = u.reg.handle := by
  obtain ⟨v, hv, h⟩ := start_cases r u
  have hbinding : v.reg.bound = true ∧ v.reg.handle = u.reg.handle := by
    rcases hv with rfl | ⟨-, hunbound, -⟩ | ⟨-, rfl⟩
    · exact ⟨hb, rfl⟩
    · rw [hb] at hunbound
      contradiction
    · exact ⟨hb, rfl⟩
  rcases h with ⟨h, -⟩ | ⟨c, h⟩ <;> rwa [h]

/-- No host operation undoes a binding: it starts, or goes on with what its call answered. -/
theorem exec_request_binding {i : Instr} {r : Request} (hr : IsRequest i r) {s t : State} (hb : s.reg.bound = true)
    (h : exec i s = .next t) : t.reg.bound = true ∧ t.reg.handle = s.reg.handle := by
  by_cases hp : s.reg.phase = .idle
  · obtain ⟨e, he⟩ := hr
    rw [exec_idle he hp, accept] at h
    cases h
    split
    · exact start_binding r (u := latch r.op r.arg0 r.arg1 r.payload s) hb
    · exact ⟨hb, rfl⟩
  · obtain ⟨-, c, -, rfl⟩ := exec_call_inv hr hp h
    have k := attempt_kept (perform c s) r hp
    rw [k.bound, k.handle, perform_reg]
    exact ⟨hb, rfl⟩

/-- No instruction undoes a binding. -/
theorem exec_binding {i : Instr} {s t : State} (hb : s.reg.bound = true) (h : exec i s = .next t) :
    t.reg.bound = true ∧ t.reg.handle = s.reg.handle := by
  rcases isFrame_or_isRequest i with hf | ⟨r, hr⟩
  · obtain ⟨f, hexec, -⟩ := exec_frame hf
    rw [hexec] at h
    cases h
    exact ⟨hb, rfl⟩
  · exact exec_request_binding hr hb h

/-- Settles O40: a move runs an instruction, or is a reset, or leaves `BOUND` and `HANDLE`. -/
theorem onlyResetUnbinds : Obligations.OnlyResetUnbinds := by
  intro s t h hb hne
  cases step_did h with
  | accepts _ _ _ _ _ _ _ ht => exact exec_binding (s := popRequest s.moved) hb ht
  | calls _ _ _ _ ht | frameRuns _ _ _ _ _ _ ht => exact exec_binding (s := s.moved) hb ht
  | resets he _ => exact absurd he hne
  | waits _ _ ht | completes _ ht | puts _ _ _ ht | takes _ ht | frameOpen _ _ _ _ _ ht | frameStray _ _ _ _ ht =>
    subst ht
    exact ⟨hb, rfl⟩

end Sys2Proof.Machine
end

section
/-! A command held open and the read that ends it (R121, R122, R130): what each leaves of the trace, the line and the
chip. The read operations, the gating and the poller are made of these two calls. -/
namespace Sys2Proof.Machine
open Sys2Proof.Claims

/-! The bytes a command has shown the chip -/

/-- R262: on a busy chip bytes that do not begin with 0x05 leave the frame they join no end without `hazard`. -/
theorem frameBreaks_push_of_busy {p : Params} {c : Chip} {b : Byte} (hb : c.busy ≠ none) (h5 : b ≠ 0x05#8)
    (f : OpenFrame) (bs : List Byte) : frameBreaks p (f.push (b :: bs)) c = true := by
  have hbusy : c.busy.isSome = true := Option.isSome_iff_ne_none.2 hb
  cases hs : f.sent <;> simp [frameBreaks, hs, h5, hbusy]

/-- R252: 0x05 breaks no rule, busy or not. -/
theorem frameBreaks_rdsr (p : Params) (sb : Bool) (c : Chip) : frameBreaks p (.start sb [0x05]) c = false := by
  simp [frameBreaks]

/-- R257: 0x9F breaks no rule on an idle chip. -/
theorem frameBreaks_rdid {c : Chip} (hb : c.busy = none) (p : Params) :
    frameBreaks p (.start c.wip [0x9F]) c = false := by
  simp [frameBreaks, Chip.wip, hb]

/-- R255: 0x03 and an address break no rule on an idle chip. -/
theorem frameBreaks_read {c : Chip} (hb : c.busy = none) (p : Params) (a : Addr) :
    frameBreaks p (.start c.wip (0x03 :: encAddr a)) c = false := by
  simp [frameBreaks, Chip.wip, hb, encAddr]

/-! `spi_write_continue` of a command -/

/-- The machine after `spi_write_continue(bs)` has returned `ok` and the operation has gone on to phase `q`. -/
def commandHeld (bs : List Byte) (q : Phase) (s : State) : State :=
  goto q ((commandSeen (shiftOut bs s.answered)).log (.wc bs))

theorem try_command_ok {s : State} {ov : Option (List Byte)} (ha : s.answer = .ok ov) (bs : List Byte) (q : Phase) :
    attempt (spiWriteContinue bs s) (fun _ => goto q) = commandHeld bs q s :=
  try_continue_ok ha bs

theorem commandHeld_goesOn (bs : List Byte) (q : Phase) (s : State) : GoesOn s (commandHeld bs q s) [.wc bs] q := by
  simp [GoesOn, commandHeld]

/-- R121: on a closed line the command is all that the open frame carries. -/
theorem commandHeld_frameOn {s : State} (hl : ClosedLine s) (bs : List Byte) (q : Phase) :
    FrameOn s.chip.wip bs (commandHeld bs q s) := by
  obtain ⟨ht, hf⟩ := hl
  have hframe := shiftOut_frame_none (s := s.answered) hf bs
  exact ⟨by simp [commandHeld, ht], by simpa [commandHeld] using hframe⟩

/-- On a closed line a command that breaks no rule leaves the chip. -/
theorem commandHeld_chip {s : State} {bs : List Byte} (hl : ClosedLine s)
    (hq : frameBreaks s.cfg (.start s.chip.wip bs) s.chip = false) (q : Phase) :
    (commandHeld bs q s).chip = s.chip := by
  have hseen : commandSeen (shiftOut bs s.answered) = shiftOut bs s.answered := by
    refine commandSeen_quiet fun f hf => ?_
    rw [shiftOut_frame_none (s := s.answered) hl.2 bs] at hf
    cases hf
    exact hq
  simp [commandHeld, hseen]

/-- R262: a busy chip sets `hazard` with a command that is not 0x05, whatever its line. -/
theorem commandHeld_hazard_of_busy {s : State} {b : Byte} (h5 : b ≠ 0x05#8)
    (ht : s.bus.target.toNat = s.cfg.chipSlot) (hb : s.chip.busy ≠ none) (bs : List Byte) (q : Phase) :
    (commandHeld (b :: bs) q s).chip.hazard = true := by
  have hframe : ∃ f : OpenFrame, (shiftOut (b :: bs) s.answered).bus.frame = some (f.push (b :: bs)) := by
    cases hf : s.bus.frame with
    | none => exact ⟨.start s.chip.wip [], shiftOut_frame_none (s := s.answered) hf _⟩
    | some f => exact ⟨f, shiftOut_frame_some (s := s.answered) hf _⟩
  obtain ⟨f, hf⟩ := hframe
  exact commandSeen_breaks hf (by simpa using ht) (frameBreaks_push_of_busy hb h5 f bs)

/-! `spi_read` -/

/-- R130: bytes of the transport's own choice, of the right number, are delivered whatever is on the line. -/
theorem delivered_of_length {n : Nat} {ov : Option (List Byte)} {bs : List Byte} (ho : ov = some bs)
    (hn : bs.length = n) (s : State) : delivered n ov s = bs := by
  subst ho hn
  exact delivered_some bs s

/-- R260 to R262, R268, R270: a read that ends a frame on the modelled chip's line sets `hazard` where the frame breaks a
rule. -/
theorem afterRead_setsHazard (n : Nat) (ov : Option (List Byte)) (s : State) :
    EndSetsHazard s (afterRead n ov s) n := by
  intro o ht hf hb
  rw [afterRead_chip, endFrame_open (s := s.answered) hf ht]
  exact chipEnds_hazard_of_breaks (s := s) hb _

/-- R121, R251: a read ends the open frame as the chip's whole frame. -/
theorem endFrame_of_frameOn {sb : Bool} {bs : List Byte} {s : State} (h : FrameOn sb bs s) (n : Nat) :
    (endFrame n s.answered).chip = (chipFrame s.cfg ⟨bs, n⟩ sb s.chip s.answered.env).chip ∧
      (endFrame n s.answered).bus.rx = (chipFrame s.cfg ⟨bs, n⟩ sb s.chip s.answered.env).rx := by
  obtain ⟨ht, hf⟩ := h
  rw [endFrame_whole (s := s.answered) hf rfl rfl ht]
  exact ⟨rfl, rfl⟩

theorem afterRead_chip_of_frameOn {sb : Bool} {bs : List Byte} {s : State} (h : FrameOn sb bs s) (n : Nat)
    (ov : Option (List Byte)) :
    (afterRead n ov s).chip = (chipFrame s.cfg ⟨bs, n⟩ sb s.chip s.answered.env).chip :=
  (endFrame_of_frameOn h n).1

/-- The bytes the chip sends are the bytes delivered. -/
theorem delivered_of_frameOn {sb : Bool} {bs : List Byte} {s : State} (h : FrameOn sb bs s) (n : Nat) :
    delivered n none s = (chipFrame s.cfg ⟨bs, n⟩ sb s.chip s.answered.env).rx := by
  obtain ⟨-, hrx⟩ := endFrame_of_frameOn h n
  rw [delivered_none, hrx]
  rw [hrx, chipFrame_length]

end Sys2Proof.Machine
end

section
/-! Whole operations, step by step, under a chosen schedule and chosen answers (R9, R34, R110; log entries 7, 14). An
accepted request is `Running`; each step of FLASHCMD uses up one move and one answer, and keeps it so until it ends. -/
namespace Sys2Proof.Machine
open Sys2Proof.Claims

/-! The schedule and the answers -/

theorem event_of_moves {ev : Event} {evs : List Event} {s : State} (h : Moves (ev :: evs) s) : s.event = ev := by
  obtain ⟨rest, h⟩ := h
  simp [State.event, h]

theorem moves_moved {ev : Event} {evs : List Event} {s : State} (h : Moves (ev :: evs) s) : Moves evs s.moved := by
  obtain ⟨rest, h⟩ := h
  exact ⟨rest, by simp [h]⟩

theorem answer_of_answers {a : Answer} {as : List Answer} {s : State} (h : Answers (a :: as) s) : s.answer = a := by
  obtain ⟨rest, h⟩ := h
  simp [State.answer, h]

/-- The answers after the next one are those left when it is used up. -/
theorem answers_of_tail {a : Answer} {as : List Answer} {s t : State} (h : Answers (a :: as) s)
    (ht : t.env.answers = s.env.answers.tail) : Answers as t := by
  obtain ⟨rest, h⟩ := h
  exact ⟨rest, by simp [ht, h]⟩

/-- R130: every call uses up one answer, whichever it is. -/
theorem perform_answers (c : Call) (s : State) : (perform c s).2.env.answers = s.env.answers.tail := by
  rcases perform_cases c s with ⟨-, h⟩ | ⟨-, ev, h⟩ | ⟨ov, -, h⟩
  · simp [h]
  · simp [h]
  · cases c <;> simp [h]

/-! An operation in progress -/

/-- The latches hold the request `r`; the next `m` moves are FLASHCMD's and the transport's next answers are `as`. -/
structure Running (r : Request) (m : Nat) (as : List Answer) (s : State) : Prop where
  allowed : s.cfg.allowed = true
  latched : latchedRequest s = r
  moves   : BlockMoves m s
  answers : Answers as s

theorem Running.answer {r : Request} {m : Nat} {a : Answer} {as : List Answer} {s : State}
    (h : Running r m (a :: as) s) : s.moved.answer = a :=
  answer_of_answers (s := s.moved) h.answers

theorem perform_latchedRequest (c : Call) (s : State) : latchedRequest (perform c s).2 = latchedRequest s := by
  rw [latchedRequest, perform_reg, perform_port]
  rfl

/-- R9, R34: FLASHCMD's move runs the latched operation, which until its end stays in progress, with one move and one
answer less. -/
theorem Running.steps {r : Request} {m : Nat} {a : Answer} {as : List Answer} {s t : State} {i : Instr}
    (h : Running r (m + 1) (a :: as) s) (hd : decodeRequest r = .ok i) (hp : s.reg.phase ≠ .idle)
    (ht : exec i s.moved = .next t) :
    step s = .next t ∧ (t.reg.phase ≠ .idle → Running r m as t) := by
  obtain ⟨hallowed, hlatched, hmoves, hanswers⟩ := h
  refine ⟨(stepRunsTheDecodedInstruction.2.1 s i hallowed (event_of_moves hmoves) hp (hlatched ▸ hd)).trans ht,
    fun hq => ?_⟩
  have hcfg := exec_cfg ht
  obtain ⟨-, he⟩ := encode_of_decodeRequest hd 0
  obtain ⟨-, c, -, rfl⟩ := exec_call_inv ⟨0, he⟩ (s := s.moved) hp ht
  have hk := attempt_kept (perform c s.moved) r (p := s.moved.reg.phase) hp
  refine ⟨hcfg ▸ hallowed, ?_, ?_, answers_of_tail hanswers ?_⟩
  · rw [latchedRequest_kept hk hq, perform_latchedRequest]
    exact hlatched
  · rw [BlockMoves, Moves, hk.env, perform_sched]
    exact moves_moved hmoves
  · rw [hk.env, perform_answers]
    rfl

/-- R100, R308: the first request that waits is accepted; where it has traffic and its checks pass, its operation is in
progress, before its first call. -/
theorem step_accepts {s : State} {r : Request} {rs : List Request} {i : Instr} {m : Nat} {as : List Answer}
    (ha : s.cfg.allowed = true) (hr : s.ready = true) (hb : s.reg.bound = true) (hw : s.port.waiting = r :: rs)
    (hd : decodeRequest r = .ok i) (hlo : 1 ≤ r.op.toNat) (hhi : r.op.toNat ≤ 7)
    (haddr : r.op = 4#4 ∨ r.op = 5#4 ∨ r.op = 6#4 → r.arg0.toNat < 2 ^ 24) (hn : r.op = 7#4 → r.arg1 ≠ 0#32)
    (hm : BlockMoves (m + 1) s) (has : Answers as s) :
    ∃ t, step s = .next t ∧ Running r m as t ∧ GoesOn s t [.req r.op r.arg0 r.arg1 r.payload] .select ∧
      NoTraffic (popRequest s.moved) t ∧ t.reg.bound = true ∧ t.reg.handle = s.reg.handle ∧
      (r.op = 7#4 → t.reg.polls = 0) := by
  obtain ⟨hwf, he⟩ := encode_of_decodeRequest hd 0
  obtain ⟨t, ht, ⟨hbus, hchip, henv, hcfg, hport⟩, hgo, hop, harg0, harg1, hstream, hbound, hhandle, hpolls⟩ :=
    acceptedRequestIsLatched (popRequest s.moved) i r ⟨0, he⟩ hlo hhi hr hb haddr hn
  have hlatched : latchedRequest t = r := by
    rw [latchedRequest, hop, harg0, harg1, hstream]
    exact latchedRequest_latch hwf s
  have hstep := (stepRunsTheDecodedInstruction.1 s r rs i ha (event_of_moves hm) hr hw hd).trans ht
  refine ⟨t, hstep, ⟨hcfg ▸ ha, hlatched, ?_, ?_⟩, hgo, ⟨hbus, hchip, henv, hcfg, hport⟩, hbound, hhandle, hpolls⟩
  · rw [BlockMoves, Moves, henv]
    exact moves_moved hm
  · rwa [Answers, henv]

/-- A run is its first step and the run from there. -/
theorem run_of_step {M : Host.Core} {s t : M.State} (h : M.step s = .next t) (k : Nat) :
    M.run (k + 1) s = M.run k t := by
  rw [Host.Core.run, h]

/-- R100, R123: the first two steps of an operation with traffic accept its request and make the bound slot the target,
without effect on lines and chip. -/
theorem run_accepts_and_selects {s : State} {r : Request} {rs : List Request} {i : Instr} {m : Nat}
    {ov : Option (List Byte)} {as : List Answer} (ha : s.cfg.allowed = true) (hr : s.ready = true)
    (hb : s.reg.bound = true) (hw : s.port.waiting = r :: rs) (hd : decodeRequest r = .ok i) (hlo : 1 ≤ r.op.toNat)
    (hhi : r.op.toNat ≤ 7) (haddr : r.op = 4#4 ∨ r.op = 5#4 ∨ r.op = 6#4 → r.arg0.toNat < 2 ^ 24)
    (hn : r.op = 7#4 → r.arg1 ≠ 0#32) (hm : BlockMoves (m + 2) s) (has : Answers (.ok ov :: as) s) :
    ∃ t : State, (∀ k, Host.Core.run Sys2Proof.core (k + 2) s = Host.Core.run Sys2Proof.core k t) ∧ Running r m as t ∧
      GoesOn s t [.sel s.reg.handle, .req r.op r.arg0 r.arg1 r.payload]
        (if r.op = 1#4 ∨ r.op = 4#4 then .cmdWrite else if r.op = 2#4 ∨ r.op = 7#4 then .statusCmd else .wrenWrite) ∧
      t.bus.target = s.reg.handle ∧ t.bus.lines = s.bus.lines ∧ t.chip = s.chip ∧ t.cfg = s.cfg := by
  obtain ⟨-, he⟩ := encode_of_decodeRequest hd 0
  obtain ⟨u, hu, run, ⟨hp, hresp, htrace⟩, ⟨hbus, hchip, -, hcfg, -⟩, -, hhandle, -⟩ :=
    step_accepts ha hr hb hw hd hlo hhi haddr hn hm has
  obtain ⟨t, hexec, htarget, hlines, hchip', hp', hresp', htrace'⟩ :=
    firstCallSelectsTheBoundSlot u.moved i r ov ⟨0, he⟩ hlo hhi hp run.answer
  obtain ⟨ht, run'⟩ := run.steps hd (by simp [hp]) hexec
  have hq : t.reg.phase ≠ .idle := by rw [hp']; split_ifs <;> decide
  refine ⟨t, fun k => (run_of_step hu _).trans (run_of_step ht k), run' hq, ⟨hp', hresp'.trans hresp, ?_⟩,
    htarget.trans hhandle, ?_, hchip'.trans hchip, (exec_cfg hexec).trans hcfg⟩
  · rw [htrace', State.moved_trace, htrace, State.moved_reg, hhandle]
    rfl
  · rw [hlines, State.moved_bus, hbus]
    rfl

end Sys2Proof.Machine
end

section
/-! read_identity, read_status and read_data, call by call (R150, R152, R155, R157), and read_identity as a whole
(R151). -/
namespace Sys2Proof.Machine
open Sys2Proof.Claims

/-! read_identity -/

theorem exec_readIdentity_cmdWrite {s : State} {ov : Option (List Byte)} (hp : s.reg.phase = .cmdWrite)
    (ha : s.answer = .ok ov) (g0 g1 : Word) :
    exec (.readIdentity g0 g1) s = .next (commandHeld [0x9F] .dataRead s) := by
  rw [exec, execReadIdentity, hp]
  exact congrArg _ (try_command_ok ha _ _)

theorem exec_readIdentity_dataRead {s : State} {ov : Option (List Byte)} (hp : s.reg.phase = .dataRead)
    (ha : s.answer = .ok ov) (g0 g1 : Word) :
    exec (.readIdentity g0 g1) s = .next (respond .ok .idle (identityOf (delivered 3 ov s)) []
      ((afterRead 3 ov s).log (.rd 3 (some (delivered 3 ov s))))) := by
  rw [exec, execReadIdentity, hp]
  exact congrArg _ (try_read_ok ha 3)

/-- R257: an idle chip ends a read identity frame with `ID_VALUE`, and stays as it was. -/
theorem chipFrame_rdid {p : Params} {c : Chip} (hb : c.busy = none) (e : Env) :
    chipFrame p ⟨[0x9F], 3⟩ false c e = ⟨identityBytes p.idValue, c, e⟩ := by
  rw [show chipFrame p ⟨[0x9F], 3⟩ false c e = chipRdid p c e from rfl, chipRdid, hb]

/-- R95, R257: the identity is read from its own bytes. -/
theorem identityOf_identityBytes (v : BitVec 24) : identityOf (identityBytes v) = v := decAddr_encAddr v

/-- R257: `ID_VALUE` is what the read delivers where an idle chip drives it, and the chip stays as it was. -/
theorem read_identity_of_frameOn {s : State} (hf : FrameOn false [0x9F] s) (hb : s.chip.busy = none) :
    delivered 3 none s = identityBytes s.cfg.idValue ∧ (afterRead 3 none s).chip = s.chip := by
  rw [delivered_of_frameOn hf, afterRead_chip_of_frameOn hf, chipFrame_rdid hb]
  exact ⟨rfl, rfl⟩

/-- Settles O20: 0x9F is held open, the read ends its frame, and the identity is the number of the three bytes. -/
theorem readIdentityReturnsTheThreeBytes : Obligations.ReadIdentityReturnsTheThreeBytes := by
  intro s g0 g1 ov sb ha
  refine ⟨fun hp => ?_, fun hp => ?_⟩
  · exact ⟨_, exec_readIdentity_cmdWrite hp ha g0 g1, commandHeld_goesOn _ _ s,
      fun hl hb => commandHeld_chip hl (frameBreaks_rdid hb s.cfg) _,
      fun ht hb => commandHeld_hazard_of_busy (by decide) ht hb _ _⟩
  · obtain ⟨r0, r1, r2, hr⟩ := List.length_eq_three.1 (delivered_length 3 ov s)
    have hexec := exec_readIdentity_dataRead hp ha g0 g1
    rw [hr] at hexec
    refine ⟨_, identityOf [r0, r1, r2], r0, r1, r2, hexec, decAddr_toNat r0 r1 r2, ⟨rfl, rfl, by simp⟩, fun b0 b1 b2 ho => ?_,
      fun ho hf hsb hb => ?_, afterRead_setsHazard 3 ov s⟩
    · have hd := delivered_of_length ho rfl s
      simpa [hr] using hd
    · subst ho hsb
      obtain ⟨hd, hchip⟩ := read_identity_of_frameOn hf hb
      exact ⟨hchip, by rw [← hr, hd, identityOf_identityBytes]⟩

/-! read_status -/

theorem exec_readStatus_statusCmd {s : State} {ov : Option (List Byte)} (hp : s.reg.phase = .statusCmd)
    (ha : s.answer = .ok ov) (g0 g1 : Word) :
    exec (.readStatus g0 g1) s = .next (commandHeld [0x05] .statusRead s) := by
  rw [exec, execReadStatus, hp]
  exact congrArg _ (try_command_ok ha _ _)

theorem exec_readStatus_statusRead {s : State} {ov : Option (List Byte)} {c : Byte} (hp : s.reg.phase = .statusRead)
    (ha : s.answer = .ok ov) (hc : delivered 1 ov s = [c]) (g0 g1 : Word) :
    exec (.readStatus g0 g1) s = .next (respond .ok .idle (zext24 c) []
      (setSr c ((afterRead 1 ov s).log (.rd 1 (some [c]))))) := by
  rw [exec, execReadStatus, hp, ← hc]
  refine congrArg _ ((try_read_ok ha 1).trans ?_)
  rw [hc]
  rfl

/-- R252: the byte that ends a read status frame on the modelled chip is its status. -/
theorem showsStatus_of_frameOn {sb : Bool} {s : State} {c : Byte} (hf : FrameOn sb [0x05] s)
    (hc : delivered 1 none s = [c]) : ShowsStatus s c := by
  obtain ⟨b, hrx, hb⟩ := chipRdsr_rx s.cfg s.chip s.answered.env
  rw [delivered_of_frameOn hf, chipFrame_rdsr, hrx] at hc
  cases hc
  exact hb

/-- Settles O21: 0x05 is held open, and the read ends its frame with one byte. -/
theorem readStatusReturnsTheByte : Obligations.ReadStatusReturnsTheByte := by
  intro s g0 g1 ov sb ha
  refine ⟨fun hp => ?_, fun hp => ?_⟩
  · exact ⟨_, exec_readStatus_statusCmd hp ha g0 g1, commandHeld_goesOn _ _ s,
      fun hl => commandHeld_chip hl (frameBreaks_rdsr s.cfg _ s.chip) _⟩
  · obtain ⟨c, hc⟩ := List.length_eq_one_iff.1 (delivered_length 1 ov s)
    refine ⟨_, _, c, exec_readStatus_statusRead hp ha hc g0 g1, zext24_toNat c, rfl, ⟨rfl, rfl, by simp⟩,
      fun b ho => ?_, fun ho hf => ?_, afterRead_setsHazard 1 ov s⟩
    · have hd := delivered_of_length ho rfl s
      simpa [hc] using hd
    · subst ho
      exact ⟨showsStatus_of_frameOn hf hc, afterRead_chip_of_frameOn hf 1 none⟩

/-! read_data -/

theorem exec_readData_cmdWrite {s : State} {ov : Option (List Byte)} (hp : s.reg.phase = .cmdWrite)
    (ha : s.answer = .ok ov) (a n : Word) :
    exec (.readData a n) s = .next (commandHeld (0x03 :: encAddr (wireAddr a)) .dataRead s) := by
  rw [exec, execReadData, hp]
  exact congrArg _ (try_command_ok ha _ _)

theorem exec_readData_dataRead {s : State} {ov : Option (List Byte)} (hp : s.reg.phase = .dataRead)
    (ha : s.answer = .ok ov) (a n : Word) :
    exec (.readData a n) s = .next (respond .ok .idle 0 (delivered n.toNat ov s)
      ((afterRead n.toNat ov s).log (.rd n.toNat (some (delivered n.toNat ov s))))) := by
  rw [exec, execReadData, hp]
  exact congrArg _ (try_read_ok ha n.toNat)

/-- R302: an address that is not valid ends a read_data as it is accepted. -/
theorem exec_readData_of_invalid {s : State} {a : Word} (ha : 2 ^ 24 ≤ a.toNat) (hr : s.ready = true)
    (hb : s.reg.bound = true) (n : Word) :
    exec (.readData a n) s = .next (respond .invalidAddress .idle 0 [] (latch 4 a n [] s)) := by
  obtain ⟨hp, -⟩ := s.ready_iff.1 hr
  have hinvalid : addressValid a = false := decide_eq_false (Nat.not_lt.2 ha)
  rw [exec_idle (e := 0) rfl hp, accept, if_pos hr, start_of_addressed (.inl rfl)]
  simp [requireBound, requireAddress, hb, hinvalid]

/-- R63, R94: a valid operand is the address on the wire. -/
theorem wireAddr_toNat {a : Word} (ha : a.toNat < 2 ^ 24) : (wireAddr a).toNat = a.toNat := by
  simpa [wireAddr] using Nat.mod_eq_of_lt ha

/-- R255: an idle chip ends a read frame with its bytes, and stays as it was. -/
theorem chipFrame_read {p : Params} {c : Chip} (hb : c.busy = none) (a : Addr) (n : Nat) (e : Env) :
    chipFrame p ⟨0x03 :: encAddr a, n⟩ false c e =
      ⟨(readBytes p c.mem a.toNat n 0 e).1, c, (readBytes p c.mem a.toNat n 0 e).2⟩ := by
  rw [chipFrame, decodeFrame_read]
  simp [chipRead, hb]

/-- R256: without a wrap table a byte below `FLASH_SIZE` comes from its own address. -/
theorem readTarget_inside {p : Params} {a i : Nat} (hw : p.readWrap = none) (h : a + i < p.flashSize) :
    readTarget p a i = some (a + i) := by
  simp [readTarget, hw, h]

/-- Settles O23: the command and its address are held open, the read ends their frame with exactly `N` bytes, and an
invalid address ends the operation before any call. -/
theorem readDataReturnsExactlyTheBytes : Obligations.ReadDataReturnsExactlyTheBytes := by
  intro s a n ov sb
  refine ⟨fun _ hok hp => ?_, fun ha hok hp => ?_, fun ha hr hb => ?_⟩
  · exact ⟨_, exec_readData_cmdWrite hp hok a n, commandHeld_goesOn _ _ s,
      fun hl hb => commandHeld_chip hl (frameBreaks_read hb s.cfg _) _,
      fun ht hb => commandHeld_hazard_of_busy (by decide) ht hb _ _⟩
  · refine ⟨_, _, exec_readData_dataRead hp hok a n, delivered_length _ ov s,
      fun bs ho hn => delivered_of_length ho hn s, ⟨rfl, rfl, by simp⟩, fun ho hf hsb hb => ?_,
      afterRead_setsHazard n.toNat ov s⟩
    subst ho hsb
    refine ⟨(afterRead_chip_of_frameOn hf n.toNat none).trans ?_, fun hw i hi hsize => ?_⟩
    · rw [chipFrame_read hb]
    · rw [delivered_of_frameOn hf, chipFrame_read hb, wireAddr_toNat ha]
      refine readBytes_getElem _ _ _ _ _ _ i _ hi ?_
      rw [Nat.zero_add]
      exact readTarget_inside hw hsize
  · exact ⟨_, exec_readData_of_invalid ha hr hb n, ⟨rfl, rfl, rfl, rfl, rfl⟩, rfl, rfl, rfl⟩

/-! read_identity as a whole -/

/-- R150: on the closed line of an idle chip 0x9F opens the frame of a read identity, and the chip stays. -/
theorem readIdentity_opens_frame {s : State} {ov : Option (List Byte)} (hp : s.reg.phase = .cmdWrite)
    (ha : s.answer = .ok ov) (hl : ClosedLine s) (hb : s.chip.busy = none) (g0 g1 : Word) :
    ∃ t, exec (.readIdentity g0 g1) s = .next t ∧ GoesOn s t [.wc [0x9F]] .dataRead ∧ t.chip = s.chip ∧
      FrameOn false [0x9F] t := by
  have hframe := commandHeld_frameOn hl [0x9F] .dataRead
  rw [Chip.wip, hb] at hframe
  exact ⟨_, exec_readIdentity_cmdWrite hp ha g0 g1, commandHeld_goesOn _ _ s,
    commandHeld_chip hl (frameBreaks_rdid hb s.cfg) _, hframe⟩

/-- R257: the read that ends it responds with `ID_VALUE`, and the chip stays. -/
theorem readIdentity_ends_frame {s : State} (hp : s.reg.phase = .dataRead) (ha : s.answer = .ok none)
    (hf : FrameOn false [0x9F] s) (hb : s.chip.busy = none) (g0 g1 : Word) :
    ∃ t, exec (.readIdentity g0 g1) s = .next t ∧ t.chip = s.chip ∧
      Responds s t [.rd 3 (some (identityBytes s.cfg.idValue))] ⟨.ok, .idle, s.cfg.idValue, []⟩ := by
  obtain ⟨hd, hchip⟩ := read_identity_of_frameOn hf hb
  have hexec := exec_readIdentity_dataRead hp ha g0 g1
  rw [hd, identityOf_identityBytes] at hexec
  exact ⟨_, hexec, hchip, rfl, rfl, by simp⟩

/-- Settles O33: acceptance and the three calls of R110, one step each; the chip is idle and its line closed when 0x9F is
sent. -/
theorem readIdentityOfTheReferenceChip : Obligations.ReadIdentityOfTheReferenceChip := by
  intro s g0 g1 rs hallowed hr hb hw hslot hline hbusy hm has
  have hd : decodeRequest ⟨1, g0, g1, []⟩ = .ok (.readIdentity g0 g1) := rfl
  obtain ⟨u, hu, run, ⟨hp, -, htrace⟩, htarget, hlines, hchip, hcfg⟩ :=
    run_accepts_and_selects hallowed hr hb hw hd (by simp) (by simp) (by simp) (by simp) hm has
  change u.reg.phase = .cmdWrite at hp
  have hclosed : ClosedLine u.moved := by
    refine ⟨by simp [htarget, hcfg, hslot], ?_⟩
    simpa [Bus.frame, Bus.line, htarget, hlines, hslot] using hline
  obtain ⟨v, hv, ⟨hp', -, htrace'⟩, hchip', hframe⟩ :=
    readIdentity_opens_frame (s := u.moved) hp run.answer hclosed (by simpa [hchip] using hbusy) g0 g1
  obtain ⟨hcommand, run'⟩ := run.steps hd (by simp [hp]) hv
  have hbusy' : v.chip.busy = none := by simpa [hchip', hchip] using hbusy
  obtain ⟨t, ht, hchip'', hp'', hresp, htrace''⟩ :=
    readIdentity_ends_frame (s := v.moved) hp' (run' (by simp [hp'])).answer hframe hbusy' g0 g1
  obtain ⟨hread, -⟩ := (run' (by simp [hp'])).steps hd (by simp [hp']) ht
  have hcfg' : v.moved.cfg = s.cfg := (exec_cfg hv).trans hcfg
  rw [hcfg'] at hresp htrace''
  refine ⟨t, (hu 2).trans ((run_of_step hcommand 1).trans (run_of_step hread 0)), ?_, hp'', hresp, ?_⟩
  · exact hchip''.trans (hchip'.trans hchip)
  · simp [htrace'', htrace', htrace]

end Sys2Proof.Machine
end

section
/-! The write-enable invariant of the trace (R83, R183), move by move. The event of a call either begins no program or
erase frame, or its phase says that the gating stands right before it; and each call of the gating leaves the trace as
the next phase expects it. -/
namespace Sys2Proof.Machine
open Sys2Proof.Claims

/-! The trace -/

theorem gatedTrace_cons_iff (e : Byte) (ev : TraceEvent) (tr : List TraceEvent) :
    gatedTrace e (ev :: tr) = true ↔ gatedEvent e ev tr = true ∧ gatedTrace e tr = true := by
  simp [gatedTrace]

/-- R183: an event that sends nothing begins no frame. -/
@[simp] theorem gatedTrace_rsp (e : Byte) (p : Response) (tr : List TraceEvent) :
    gatedTrace e (.rsp p :: tr) = gatedTrace e tr := rfl
@[simp] theorem gatedTrace_err (e : Byte) (p : Phase) (tr : List TraceEvent) :
    gatedTrace e (.err p :: tr) = gatedTrace e tr := rfl
@[simp] theorem gatedTrace_req (e : Byte) (op : BitVec 4) (x y : Word) (d : List Byte) (tr : List TraceEvent) :
    gatedTrace e (.req op x y d :: tr) = gatedTrace e tr := rfl

/-- R183: a frame that begins with another byte than the two opcodes is neither a program nor an erase. -/
theorem gatedEvent_wc {b : Byte} (hb : b ≠ 0x02#8) (e : Byte) (bs : List Byte) (tr : List TraceEvent) :
    gatedEvent e (.wc (b :: bs)) tr = true := by
  simp [gatedEvent, hb]

theorem gatedEvent_w {b e : Byte} (hb : b ≠ e) (bs : List Byte) (tr : List TraceEvent) :
    gatedEvent e (.w (b :: bs)) tr = true := by
  simp [gatedEvent, hb]

/-- R183: right after the gating any event may stand. -/
theorem gatedEvent_of_afterGating {tr : List TraceEvent} (h : afterGating tr = true) (e : Byte) (ev : TraceEvent) :
    gatedEvent e ev tr = true := by
  unfold gatedEvent
  split <;> simp [h]

/-- R122: a `W` that continues a frame begins none. -/
theorem gatedEvent_of_continuesFrame {tr : List TraceEvent} (h : continuesFrame tr = true) (e : Byte) (bs : List Byte) :
    gatedEvent e (.w bs) tr = true := by
  cases bs <;> simp [gatedEvent, h]

/-! Where a program or erase stands -/

section
variable {op : BitVec 4} {tr : List TraceEvent}

/-- R185: only a page_program or a sector_erase has a gating. -/
theorem gatingProgress_of_ungated (h : ¬(op = 5#4 ∨ op = 6#4)) (p : Phase) (tr : List TraceEvent) :
    gatingProgress op p tr = true := if_neg h

variable (h : op = 5#4 ∨ op = 6#4)
include h

theorem gatingProgress_statusCmd_iff :
    gatingProgress op .statusCmd tr = true ↔ ∃ older, tr = .w [0x06] :: older := by
  refine ⟨fun hg => ?_, fun ⟨older, ht⟩ => ht ▸ if_pos h⟩
  unfold gatingProgress at hg
  rw [if_pos h] at hg
  split at hg <;> simp_all

theorem gatingProgress_statusRead_iff :
    gatingProgress op .statusRead tr = true ↔ ∃ older, tr = .wc [0x05] :: .w [0x06] :: older := by
  refine ⟨fun hg => ?_, fun ⟨older, ht⟩ => ht ▸ if_pos h⟩
  unfold gatingProgress at hg
  rw [if_pos h] at hg
  split at hg <;> simp_all

theorem gatingProgress_cmdWrite : gatingProgress op .cmdWrite tr = afterGating tr := if_pos h

theorem gatingProgress_dataWrite : gatingProgress op .dataWrite tr = continuesFrame tr := if_pos h

end

/-- Outside an operation, and before its first calls, nothing of the gating need stand in the trace. -/
theorem gatingProgress_of_quiet {p : Phase} (hp : p = .idle ∨ p = .select ∨ p = .wrenWrite) (op : BitVec 4)
    (tr : List TraceEvent) : gatingProgress op p tr = true := by
  unfold gatingProgress
  rcases hp with rfl | rfl | rfl <;> split <;> rfl

/-! The calls -/

/-- R129: the event of a call that has returned: of a read, its bytes, or none where it failed. -/
def Call.event (handle : Word) (rs : Option (List Byte)) : Call → TraceEvent
  | .select => .sel handle
  | .write bs => .w bs
  | .continue bs => .wc bs
  | .read n => .rd n rs

/-- R129, R130: a call that returns `ok` stands in the trace with what it delivers. -/
theorem perform_ok_trace {s : State} {ov : Option (List Byte)} (ha : s.answer = .ok ov) (c : Call) :
    ∃ rs, (perform c s).1 = .ok rs ∧ (perform c s).2.trace = c.event s.reg.handle (some rs) :: s.trace ∧
      ∀ n, c = .read n → rs.length = n := by
  rcases c with _ | bs | bs | n
  · exact ⟨[], by simp [perform, spiSelect, ha, Call.event]⟩
  · exact ⟨[], by simp [perform, spiWrite, ha, Call.event]⟩
  · exact ⟨[], by simp [perform, spiWriteContinue, ha, Call.event]⟩
  · exact ⟨delivered n ov s, by simp [perform, spiRead, ha, Call.event, delivered]⟩

theorem perform_err_trace {s : State} (ha : s.answer = .err) (c : Call) :
    (perform c s).1 = .err ∧ (perform c s).2.trace = c.event s.reg.handle none :: s.trace := by
  cases c <;> simp [perform, spiSelect, spiWrite, spiWriteContinue, spiRead, ha, Call.event]

theorem attempt_of_err {q : CallResult × State} (hq : q.1 = .err) (k : List Byte → State → State) :
    attempt q k = transportError q.2 := by
  rw [attempt, hq]

/-- R11: an allowed erase opcode is not the write enable's. -/
theorem wren_ne_eraseOpcode {p : Params} (ha : p.allowed = true) : (0x06 : Byte) ≠ p.eraseOpcode := by
  intro h
  rw [not_allowed_of_fixed_opcode (.inr (.inr (.inr (.inl h.symm))))] at ha
  cases ha

/-- R183: no call begins a program or erase frame, but the command of a page_program or sector_erase, which its gating
precedes. -/
theorem gatedEvent_of_call {p : Params} (ha : p.allowed = true) {r : Request} {q : Phase} {c : Call}
    (hc : callOf p.eraseOpcode r q = some c) {tr : List TraceEvent} (hg : gatingProgress r.op q tr = true)
    (handle : Word) (rs : Option (List Byte)) : gatedEvent p.eraseOpcode (c.event handle rs) tr = true := by
  unfold callOf at hc
  split at hc
  case isFalse => cases hc
  case isTrue hq =>
    cases q with
    | idle => cases hc
    | select | statusRead | dataRead => cases hc; rfl
    | wrenWrite => cases hc; exact gatedEvent_w (wren_ne_eraseOpcode ha) _ _
    | statusCmd => cases hc; exact gatedEvent_wc (by decide) _ _ _
    | cmdWrite =>
      rcases op_of_cmdWrite hq with h | h | h
      · simp only [h] at hc; cases hc; exact gatedEvent_wc (by decide) _ _ _
      · simp only [h] at hc; cases hc; exact gatedEvent_wc (by decide) _ _ _
      · rw [gatingProgress_cmdWrite h] at hg
        exact gatedEvent_of_afterGating hg _ _
    | dataWrite =>
      cases hc
      rw [gatingProgress_dataWrite (.inl (op_of_dataWrite hq))] at hg
      exact gatedEvent_of_continuesFrame hg _ _

/-! What follows a call -/

/-- R182: a page_program or sector_erase goes on after the status read only where it showed WEL = 1, to its command. -/
theorem proceed_statusRead_of_gated {r : Request} (h : r.op = 5#4 ∨ r.op = 6#4) (b : Byte) (u : State) :
    (proceed r .statusRead [b] u).reg.phase = .idle ∨
      statusWel b = true ∧ (proceed r .statusRead [b] u).reg.phase = .cmdWrite := by
  cases hb : statusWel b with
  | false => left; rcases h with h | h <;> simp [proceed, h, gateCheck, hb]
  | true =>
    rcases h with h | h
    · simpa [proceed, h, gateCheck, hb] using programAfterGate_phase r.arg1 (setSr b u)
    · simp [proceed, h, gateCheck, hb]

/-- R185: the event of a call of the gating is the one the next phase expects before it. -/
theorem gatingProgress_proceed {e : Byte} {r : Request} {q : Phase} {c : Call} (hc : callOf e r q = some c)
    {tr : List TraceEvent} (hg : gatingProgress r.op q tr = true) {rs : List Byte}
    (hlen : ∀ n, c = .read n → rs.length = n) (handle : Word) (u : State) :
    gatingProgress r.op (proceed r q rs u).reg.phase (c.event handle (some rs) :: tr) = true := by
  by_cases h : r.op = 5#4 ∨ r.op = 6#4
  case neg => exact gatingProgress_of_ungated h _ _
  unfold callOf at hc
  split at hc
  case isFalse => cases hc
  case isTrue hq =>
    cases q with
    | idle => cases hc
    | select => rcases h with h | h <;> simp [proceed, h, gatingProgress_of_quiet]
    | wrenWrite =>
      cases hc
      have hnext : (proceed r .wrenWrite rs u).reg.phase = .statusCmd := by rcases h with h | h <;> simp [proceed, h]
      rw [hnext, gatingProgress_statusCmd_iff h]
      exact ⟨tr, rfl⟩
    | statusCmd =>
      cases hc
      obtain ⟨older, rfl⟩ := (gatingProgress_statusCmd_iff h).1 hg
      exact (gatingProgress_statusRead_iff h).2 ⟨older, rfl⟩
    | statusRead =>
      cases hc
      obtain ⟨older, rfl⟩ := (gatingProgress_statusRead_iff h).1 hg
      obtain ⟨b, rfl⟩ := List.length_eq_one_iff.1 (hlen 1 rfl)
      rcases proceed_statusRead_of_gated h b u with hnext | ⟨hwel, hnext⟩ <;> rw [hnext]
      · exact gatingProgress_of_quiet (.inl rfl) _ _
      · rw [gatingProgress_cmdWrite h]
        simp [Call.event, afterGating, hwel]
    | cmdWrite =>
      rcases h with h | h
      · simp only [h] at hc
        cases hc
        simp only [proceed, h, if_true, goto_phase]
        rfl
      · simp only [proceed, h]
        exact gatingProgress_of_quiet (.inl rfl) _ _
    | dataWrite => exact gatingProgress_of_quiet (.inl rfl) _ _
    | dataRead => rcases op_of_dataRead hq with h' | h' <;> simp [h'] at h

/-- R103: what follows a call sends nothing: it leaves the trace, or ends with a response. -/
theorem proceed_trace (r : Request) {p : Phase} (hp : p ≠ .idle) (rs : List Byte) (u : State) :
    (proceed r p rs u).trace = u.trace ∨
      (proceed r p rs u).reg.phase = .idle ∧ ∃ a, (proceed r p rs u).trace = .rsp a :: u.trace := by
  obtain ⟨v, hv, -, h⟩ := proceed_cases r p rs u hp
  have htrace : v.trace = u.trace := by rcases hv with rfl | rfl | ⟨-, -, -, rfl⟩ <;> rfl
  rcases h with ⟨q, -, -, h⟩ | ⟨c, x, d, h⟩ <;> rw [h]
  · exact .inl htrace
  · exact .inr ⟨rfl, _, congrArg _ htrace⟩

/-- The start of an operation sends nothing, and leaves it before its first call, or ended. -/
theorem start_trace (r : Request) (u : State) :
    ((start r u).reg.phase = .select ∧ (start r u).trace = u.trace) ∨
      (start r u).reg.phase = .idle ∧ ∃ a, (start r u).trace = .rsp a :: u.trace := by
  obtain ⟨v, hv, h⟩ := start_cases r u
  have htrace : v.trace = u.trace := by rcases hv with rfl | ⟨-, -, rfl⟩ | ⟨-, rfl⟩ <;> rfl
  rcases h with ⟨h, -⟩ | ⟨c, h⟩ <;> rw [h]
  · exact .inl ⟨rfl, htrace⟩
  · exact .inr ⟨rfl, _, congrArg _ htrace⟩

/-! The moves -/

/-- The invariant reads the erase opcode, the trace, the latched op code and the phase alone. -/
theorem GatingInv.congr {s t : State} (h : GatingInv s) (hcfg : t.cfg = s.cfg) (htrace : t.trace = s.trace)
    (hop : t.reg.op = s.reg.op) (hphase : t.reg.phase = s.reg.phase) : GatingInv t := by
  rwa [GatingInv, hcfg, htrace, hop, hphase]

theorem GatingInv.of_quiet {t : State} (hp : t.reg.phase = .idle ∨ t.reg.phase = .select)
    (ht : gatedTrace t.cfg.eraseOpcode t.trace = true) : GatingInv t :=
  ⟨ht, gatingProgress_of_quiet (hp.imp_right .inl) _ _⟩

/-- `ok` of the call of a phase: its event is gated, and stands where the next phase expects it. -/
theorem GatingInv.callReturns {s : State} {c : Call} {ov : Option (List Byte)} (h : GatingInv s)
    (hallowed : s.cfg.allowed = true) (hp : s.reg.phase ≠ .idle)
    (hc : callOf s.cfg.eraseOpcode (latchedRequest s) s.reg.phase = some c) (ha : s.answer = .ok ov) :
    GatingInv (attempt (perform c s) (proceed (latchedRequest s) s.reg.phase)) := by
  obtain ⟨htrace, hprogress⟩ := h
  obtain ⟨rs, hrs, hev, hlen⟩ := perform_ok_trace ha c
  rw [attempt_of_ok hrs]
  have hgated : gatedTrace s.cfg.eraseOpcode (perform c s).2.trace = true := by
    rw [hev, gatedTrace_cons_iff]
    exact ⟨gatedEvent_of_call hallowed hc hprogress _ _, htrace⟩
  have hcfg := (proceed_cfg (latchedRequest s) rs (perform c s).2 hp).trans (perform_cfg c s)
  have hop := (proceed_kept (latchedRequest s) rs (perform c s).2 hp).op.trans (congrArg Regs.op (perform_reg c s))
  rcases proceed_trace (latchedRequest s) hp rs (perform c s).2 with hquiet | ⟨hidle, a, hend⟩
  · refine ⟨by rwa [hcfg, hquiet], ?_⟩
    rw [hop, hquiet, hev]
    exact gatingProgress_proceed hc hprogress hlen _ _
  · exact .of_quiet (.inl hidle) (by rwa [hcfg, hend, gatedTrace_rsp])

/-- A call of the latched operation keeps the invariant, whatever the transport answers. -/
theorem GatingInv.calls {s t : State} (h : GatingInv s) (hallowed : s.cfg.allowed = true) (hp : s.reg.phase ≠ .idle)
    {i : Instr} (hr : IsRequest i (latchedRequest s)) (ht : exec i s = .next t) : GatingInv t := by
  obtain ⟨-, c, hc, rfl⟩ := exec_call_inv hr hp ht
  cases ha : s.answer with
  | silent => rw [perform_silent ha]; exact h.congr rfl rfl rfl rfl
  | ok ov => exact h.callReturns hallowed hp hc ha
  | err =>
    obtain ⟨herr, hev⟩ := perform_err_trace ha c
    obtain ⟨htrace, hprogress⟩ := h
    rw [attempt_of_err herr]
    refine .of_quiet (.inl rfl) ?_
    simp only [transportError, raiseError_eq, respond_cfg, respond_trace, State.log_cfg, State.log_trace, perform_cfg,
      gatedTrace_rsp, gatedTrace_err]
    rw [hev, gatedTrace_cons_iff]
    exact ⟨gatedEvent_of_call hallowed hc hprogress _ _, htrace⟩

/-- An accepted request makes no call. -/
theorem GatingInv.accepts {s t : State} (h : GatingInv s) (hp : s.reg.phase = .idle) {i : Instr} {r : Request}
    (hr : IsRequest i r) (ht : exec i s = .next t) : GatingInv t := by
  obtain ⟨e, he⟩ := hr
  rw [exec_idle he hp, accept] at ht
  cases ht
  by_cases hready : s.ready = true
  · have hcfg := start_cfg r (latch r.op r.arg0 r.arg1 r.payload s)
    obtain ⟨htrace, -⟩ := h
    rw [if_pos hready]
    rcases start_trace r (latch r.op r.arg0 r.arg1 r.payload s) with ⟨hselect, hq⟩ | ⟨hidle, a, hq⟩
    · exact .of_quiet (.inr hselect) (by rw [hcfg, hq]; exact htrace)
    · exact .of_quiet (.inl hidle) (by rw [hcfg, hq]; exact htrace)
  · rwa [if_neg hready]

/-- R11: a step is taken under allowed parameters alone. -/
theorem allowed_of_step {s t : State} (h : step s = .next t) : s.cfg.allowed = true := by
  by_contra hn
  simp [step, hn] at h

/-- Settles O55: only FLASHCMD's moves reach the trace; an accepted request sends nothing, and each call's event is
gated and leads its operation on as the invariant says. -/
theorem writeEnableGatingIsKept : Obligations.WriteEnableGatingIsKept := by
  intro s t h ht
  have hallowed := allowed_of_step ht
  have hm : GatingInv s.moved := h.congr rfl rfl rfl rfl
  cases step_did ht with
  | waits _ _ ht | completes _ ht | puts _ _ _ ht | takes _ ht | frameOpen _ _ _ _ _ ht | frameStray _ _ _ _ ht =>
    subst ht; exact hm.congr rfl rfl rfl rfl
  | resets _ ht => subst ht; exact .of_quiet (.inl rfl) hm.1
  | accepts r i _ hp _ _ hd ht =>
    obtain ⟨-, hr⟩ := encode_of_decodeRequest hd 0
    exact .accepts (s := popRequest s.moved) hm hp ⟨0, hr⟩ ht
  | calls i _ hp hd ht =>
    obtain ⟨-, hr⟩ := encode_of_decodeRequest hd 0
    exact hm.calls hallowed hp ⟨0, hr⟩ ht
  | frameRuns f i _ _ _ hd ht =>
    obtain ⟨g, hg, -⟩ := exec_frame ⟨_, f, encode_of_decodeFrame hd⟩
    rw [hg] at ht
    cases ht
    exact hm.congr rfl rfl rfl rfl

end Sys2Proof.Machine
end

section
/-! A frame that a `spi_write` sends or ends (R120, R121), and the write enable sent by it (R180, R182, R253, R262). -/
namespace Sys2Proof.Machine
open Sys2Proof.Claims

/-! `spi_write` -/

/-- The machine after `spi_write(bs)` has returned `ok`. -/
def frameWritten (bs : List Byte) (s : State) : State := (endFrame 0 (shiftOut bs s.answered)).log (.w bs)

/-- The frame the bytes of a `spi_write` go into: the one left open on the target's line, or one of their own. -/
def writtenInto (s : State) : OpenFrame := s.bus.frame.getD (.start s.chip.wip [])

theorem writtenInto_of_open {s : State} {o : OpenFrame} (h : s.bus.frame = some o) : writtenInto s = o := by
  simp [writtenInto, h]

theorem shiftOut_frame (bs : List Byte) (s : State) :
    (shiftOut bs s).bus.frame = some ((writtenInto s).push bs) := by
  cases hf : s.bus.frame with
  | none => rw [writtenInto, hf]; exact shiftOut_frame_none hf bs
  | some o => rw [writtenInto_of_open hf]; exact shiftOut_frame_some hf bs

/-- R121, R251: where the modelled chip is the target, its frame ends with the bytes. -/
theorem frameWritten_chip {s : State} (ht : s.bus.target.toNat = s.cfg.chipSlot) (bs : List Byte) :
    (frameWritten bs s).chip = (chipEnds ((writtenInto s).push bs) 0 s.cfg s.chip s.answered.env).chip := by
  rw [frameWritten, State.log_chip, endFrame_open (shiftOut_frame bs s.answered) (by simpa using ht)]
  rfl

/-- R251: on a closed line the bytes are the chip's whole frame. -/
theorem frameWritten_chip_of_closedLine {s : State} (hl : ClosedLine s) (bs : List Byte) :
    (frameWritten bs s).chip = (chipFrame s.cfg ⟨bs, 0⟩ s.chip.wip s.chip s.answered.env).chip := by
  obtain ⟨ht, hf⟩ := hl
  have hown : (writtenInto s).push bs = .start s.chip.wip bs := by rw [writtenInto, hf]; rfl
  rw [frameWritten_chip ht, hown, chipEnds_whole rfl rfl]
  rfl

/-- R260 to R262, R268, R270: bytes that end an open frame which then breaks a rule set `hazard`. -/
theorem frameWritten_setsHazard (bs : List Byte) (s : State) : WriteSetsHazard s (frameWritten bs s) bs := by
  intro o ht hf hb
  rw [frameWritten_chip ht, writtenInto_of_open hf]
  exact chipEnds_hazard_of_breaks hb _

theorem frameWritten_goesOn (bs : List Byte) (q : Phase) (s : State) :
    GoesOn s (goto q (frameWritten bs s)) [.w bs] q := by
  simp [GoesOn, frameWritten]

/-- R97: a frame that ends with bytes out is no read status. -/
theorem pushed_ne_rdsr {bs : List Byte} (hbs : bs ≠ []) (f : OpenFrame) (e : Byte) :
    (f.push bs).mixed = true ∨ decodeFrame e ⟨(f.push bs).sent, (f.push bs).nIn + 0⟩ ≠ .ok .rdsr := by
  by_cases hn : f.nIn = 0
  · right
    intro h
    have hone := (decodeFrame_nIn h).1 rfl
    simp [hn] at hone
  · left
    simp [OpenFrame.push, Nat.pos_of_ne_zero hn, hbs]

/-- R262: bytes written to a busy chip set `hazard`, whatever its line. -/
theorem frameWritten_hazard_of_busy {s : State} {bs : List Byte} (hbs : bs ≠ [])
    (ht : s.bus.target.toNat = s.cfg.chipSlot) (hb : s.chip.busy ≠ none) : (frameWritten bs s).chip.hazard = true := by
  rw [frameWritten_chip ht]
  refine chipEnds_hazard_of_breaks (s := s) ?_ _
  exact (pushed_ne_rdsr hbs _ s.cfg.eraseOpcode).imp_right fun hd => .inr (.inl ⟨.inr hb, hd⟩)

/-! The write enable -/

/-- R253: an idle chip's latch is set where the drawn bit is. -/
theorem chipWren_takes_or_ignores {c : Chip} (hb : c.busy = none) (e : Env) :
    TakesOrIgnoresWriteEnable e.bit c (chipWren c e).chip := by
  unfold chipWren
  split
  · rename_i hbusy
    rw [hb] at hbusy
    cases hbusy
  · exact ⟨fun h => by simp [h], fun h => by simp [h], rfl⟩

/-- R253: on the closed line of an idle chip the frame is the chip's write enable. -/
theorem writeEnable_takes_or_ignores {s : State} (hl : ClosedLine s) (hb : s.chip.busy = none) :
    TakesOrIgnoresWriteEnable s.answered.env.bit s.chip (frameWritten [0x06] s).chip := by
  rw [frameWritten_chip_of_closedLine hl, Chip.wip, hb]
  exact chipWren_takes_or_ignores hb s.answered.env

/-- R180, R253, R262: what the write enable does to the modelled chip, in every operation that sends it. -/
theorem writeEnable_chip {s t : State} (ht : t.chip = (frameWritten [0x06] s).chip) :
    (ClosedLine s → s.chip.busy = none → TakesOrIgnoresWriteEnable s.answered.env.bit s.chip t.chip) ∧
      (s.bus.target.toNat = s.cfg.chipSlot → s.chip.busy ≠ none → t.chip.hazard = true) ∧
      WriteSetsHazard s t [0x06] := by
  rw [WriteSetsHazard, ht]
  exact ⟨writeEnable_takes_or_ignores, frameWritten_hazard_of_busy (by simp), frameWritten_setsHazard [0x06] s⟩

theorem exec_writeEnable_wrenWrite {s : State} {ov : Option (List Byte)} (hp : s.reg.phase = .wrenWrite)
    (ha : s.answer = .ok ov) (g0 g1 : Word) :
    exec (.writeEnable g0 g1) s = .next (respond .ok .idle 0 [] (frameWritten [0x06] s)) := by
  rw [exec, execWriteEnable, hp]
  exact congrArg _ (try_write_ok ha _)

/-- Settles O22: the one call is the write enable, and its `ok` is the response. -/
theorem writeEnableSendsOneByte : Obligations.WriteEnableSendsOneByte := by
  intro s g0 g1 ov hp ha
  exact ⟨_, exec_writeEnable_wrenWrite hp ha g0 g1, ⟨rfl, rfl, by simp [frameWritten]⟩, writeEnable_chip rfl⟩

end Sys2Proof.Machine
end

section
/-! The gating of a page_program or sector_erase (R182, R184, R185), call by call, and the operation that its status
read ends. -/
namespace Sys2Proof.Machine
open Sys2Proof.Claims

/-! The three calls -/

section
variable {s : State} {i : Instr} {a n : Word} {d : List Byte} {ov : Option (List Byte)}
variable (hi : i = .pageProgram a n d ∨ i = .sectorErase a n) (ha : s.answer = .ok ov)
include hi ha

theorem exec_gating_wrenWrite (hp : s.reg.phase = .wrenWrite) :
    exec i s = .next (goto .statusCmd (frameWritten [0x06] s)) := by
  have hcall := try_write_ok (k := fun _ => goto .statusCmd) ha [0x06]
  rcases hi with rfl | rfl
  · rw [exec, execPageProgram, hp]; exact congrArg _ hcall
  · rw [exec, execSectorErase, hp]; exact congrArg _ hcall

theorem exec_gating_statusCmd (hp : s.reg.phase = .statusCmd) :
    exec i s = .next (commandHeld [0x05] .statusRead s) := by
  have hcall := try_command_ok ha [0x05] .statusRead
  rcases hi with rfl | rfl
  · rw [exec, execPageProgram, hp]; exact congrArg _ hcall
  · rw [exec, execSectorErase, hp]; exact congrArg _ hcall

end

/-- The machine after a status read has returned the byte `c`. -/
def statusReturned (ov : Option (List Byte)) (c : Byte) (s : State) : State :=
  setSr c ((afterRead 1 ov s).log (.rd 1 (some [c])))

theorem callStatusRead_ok {s : State} {ov : Option (List Byte)} {c : Byte} (ha : s.answer = .ok ov)
    (hc : delivered 1 ov s = [c]) (k : Byte → State → State) : callStatusRead k s = k c (statusReturned ov c s) := by
  rw [callStatusRead, try_read_ok ha, hc]
  rfl

/-- R201: what follows the gating of a page_program or sector_erase. -/
def afterGate (i : Instr) (a : Word) (d : List Byte) : State → State :=
  if i = .pageProgram a 0#32 d then respond .ok .idle 0 [] else goto .cmdWrite

theorem exec_gating_statusRead {s : State} {i : Instr} {a n : Word} {d : List Byte} {ov : Option (List Byte)} {c : Byte}
    (hi : i = .pageProgram a n d ∨ i = .sectorErase a n) (ha : s.answer = .ok ov) (hp : s.reg.phase = .statusRead)
    (hc : delivered 1 ov s = [c]) : exec i s = .next (gateCheck (afterGate i a d) c (statusReturned ov c s)) := by
  rcases hi with rfl | rfl
  · have hk : programAfterGate n = afterGate (.pageProgram a n d) a d := by
      funext u
      by_cases hn : n = 0#32 <;> simp [programAfterGate, afterGate, hn]
    rw [exec, execPageProgram, hp, ← hk]
    exact congrArg _ (callStatusRead_ok ha hc _)
  · rw [exec, execSectorErase, hp]
    exact congrArg _ (callStatusRead_ok ha hc _)

/-! WEL alone decides (R182) -/

theorem gateCheck_of_clear {c : Byte} (h : c.getLsbD 1 = false) (k : State → State) (u : State) :
    gateCheck k c u = respond .writeNotEnabled .idle (zext24 c) [] u := by
  have hclear : statusWel c = false := h
  simp [gateCheck, hclear]

theorem gateCheck_of_set {c : Byte} (h : c.getLsbD 1 = true) (k : State → State) (u : State) :
    gateCheck k c u = k u := if_pos h

theorem gateCheck_afterGate_kept (i : Instr) (a : Word) (d : List Byte) (c : Byte) (u : State) :
    (gateCheck (afterGate i a d) c u).reg.sr = u.reg.sr ∧ (gateCheck (afterGate i a d) c u).chip = u.chip := by
  unfold gateCheck afterGate
  split_ifs <;> exact ⟨rfl, rfl⟩

/-- Settles O24: the write enable is a frame of its own, 0x05 is held open, the read ends its frame with one byte, and
that byte's WEL decides what follows. -/
theorem gatingReadsStatusAndTestsWel : Obligations.GatingReadsStatusAndTestsWel := by
  intro s i a n d ov sb hi ha
  refine ⟨fun hp => ?_, fun hp => ?_, fun hp => ?_⟩
  · exact ⟨_, exec_gating_wrenWrite hi ha hp, frameWritten_goesOn _ _ s, writeEnable_chip rfl⟩
  · exact ⟨_, exec_gating_statusCmd hi ha hp, commandHeld_goesOn _ _ s,
      fun hl => commandHeld_chip hl (frameBreaks_rdsr s.cfg _ s.chip) _⟩
  · obtain ⟨c, hc⟩ := List.length_eq_one_iff.1 (delivered_length 1 ov s)
    obtain ⟨hsr, hchip⟩ := gateCheck_afterGate_kept i a d c (statusReturned ov c s)
    refine ⟨_, c, exec_gating_statusRead hi ha hp hc, hsr, fun b ho => ?_, fun hw => ?_, fun hw h0 => ?_,
      fun hw h0 => ?_, fun ho hf => ?_, ?_⟩
    · have hd := delivered_of_length ho rfl s
      simpa [hc] using hd
    · rw [gateCheck_of_clear hw]
      exact ⟨zext24 c, zext24_toNat c, rfl, rfl, by simp [statusReturned]⟩
    · rw [gateCheck_of_set hw, afterGate, if_pos h0]
      exact ⟨rfl, rfl, by simp [statusReturned]⟩
    · rw [gateCheck_of_set hw, afterGate, if_neg h0]
      exact ⟨rfl, by simp [statusReturned], by simp [statusReturned]⟩
    · subst ho
      exact ⟨showsStatus_of_frameOn hf hc, hchip.trans (afterRead_chip_of_frameOn hf 1 none)⟩
    · rw [EndSetsHazard, hchip]
      exact afterRead_setsHazard 1 ov s

/-! A gating that fails -/

/-- R101: the request of a page_program or a sector_erase. -/
theorem requestInstr_of_gated {r : Request} (h : r.op = 5#4 ∨ r.op = 6#4) :
    requestInstr r = .pageProgram r.arg0 r.arg1 r.payload ∨ requestInstr r = .sectorErase r.arg0 r.arg1 := by
  rcases h with h | h <;> simp [requestInstr, h]

/-- R123, R182: the first four steps of a page_program or sector_erase accept its request, select the bound slot, and
send the write enable and the status command; the gating byte is read next. -/
theorem run_to_gating_read {s : State} {r : Request} {rs : List Request} {m : Nat} {o1 o2 o3 : Option (List Byte)}
    {as : List Answer} (hallowed : s.cfg.allowed = true) (hr : s.ready = true) (hb : s.reg.bound = true)
    (hw : s.port.waiting = r :: rs) (hwf : r.wellFormed = true) (hop : r.op = 5#4 ∨ r.op = 6#4)
    (haddr : r.arg0.toNat < 2 ^ 24) (hm : BlockMoves (m + 4) s) (has : Answers (.ok o1 :: .ok o2 :: .ok o3 :: as) s) :
    ∃ t : State, (∀ k, Host.Core.run Sys2Proof.core (k + 4) s = Host.Core.run Sys2Proof.core k t) ∧ Running r m as t ∧
      GoesOn s t [.wc [0x05], .w [0x06], .sel s.reg.handle, .req r.op r.arg0 r.arg1 r.payload] .statusRead := by
  have hd : decodeRequest r = .ok (requestInstr r) := if_pos hwf
  have hi := requestInstr_of_gated hop
  have hlo : 1 ≤ r.op.toNat := by rcases hop with h | h <;> simp [h]
  have hhi : r.op.toNat ≤ 7 := by rcases hop with h | h <;> simp [h]
  obtain ⟨u, hu, runu, ⟨hp, hrespu, htraceu⟩, -⟩ :=
    run_accepts_and_selects hallowed hr hb hw hd hlo hhi (fun _ => haddr) (fun h7 => by simp [h7] at hop) hm has
  have hp : u.reg.phase = .wrenWrite := by rw [hp]; rcases hop with h | h <;> simp [h]
  obtain ⟨v, hv, hpv, hrespv, htracev⟩ : ∃ v, exec (requestInstr r) u.moved = .next v ∧
      GoesOn u.moved v [.w [0x06]] .statusCmd :=
    ⟨_, exec_gating_wrenWrite hi runu.answer hp, frameWritten_goesOn _ _ _⟩
  obtain ⟨hwren, runv⟩ := runu.steps hd (by simp [hp]) hv
  have runv := runv (by simp [hpv])
  obtain ⟨t, ht, hpt, hrespt, htracet⟩ : ∃ t, exec (requestInstr r) v.moved = .next t ∧
      GoesOn v.moved t [.wc [0x05]] .statusRead :=
    ⟨_, exec_gating_statusCmd hi runv.answer hpv, commandHeld_goesOn _ _ _⟩
  obtain ⟨hcommand, runt⟩ := runv.steps hd (by simp [hpv]) ht
  refine ⟨t, fun k => (hu (k + 2)).trans ((run_of_step hwren (k + 1)).trans (run_of_step hcommand k)),
    runt (by simp [hpt]), hpt, hrespt.trans (hrespv.trans hrespu), ?_⟩
  rw [htracet, State.moved_trace, htracev, State.moved_trace, htraceu]
  rfl

/-- Settles O32: the read of the gating byte is the fifth step, and WEL = 0 ends the operation there. -/
theorem gateFailureWholeTrace : Obligations.GateFailureWholeTrace := by
  intro s r b rs hallowed hr hb hw hwf hop haddr hwel hm has
  have hd : decodeRequest r = .ok (requestInstr r) := if_pos hwf
  obtain ⟨u, hu, run, hp, -, htraceu⟩ := run_to_gating_read hallowed hr hb hw hwf hop haddr hm has
  have hc : delivered 1 (some [b]) u.moved = [b] := delivered_some [b] u.moved
  have hexec := exec_gating_statusRead (s := u.moved) (requestInstr_of_gated hop) run.answer hp hc
  rw [gateCheck_of_clear hwel] at hexec
  obtain ⟨hread, -⟩ := run.steps hd (by simp [hp]) hexec
  refine ⟨_, zext24 b, (hu 1).trans (run_of_step hread 0), zext24_toNat b, rfl, rfl, ?_⟩
  simp [statusReturned, htraceu]

end Sys2Proof.Machine
end

section
/-! page_program and sector_erase after their gating (R200, R201, R210): the program's command is held open and its
payload ends the frame; the erase is one frame. What each makes of the modelled chip (R258, R260 to R263, R270). -/
namespace Sys2Proof.Machine
open Sys2Proof.Claims

/-! The parameters -/

theorem pos_of_isPowerOfTwo {n : Nat} (h : isPowerOfTwo n = true) : 0 < n := by
  rw [beq_iff_eq.1 h]
  exact Nat.two_pow_pos _

/-- R10, R11: the bounds of an allowed configuration that programs and erases rest on. -/
theorem bounds_of_allowed {p : Params} (h : p.allowed = true) :
    eraseOpcodeAllowed p.eraseOpcode = true ∧ 0 < p.pageSize ∧ p.flashSize ≤ 2 ^ 24 := by
  simp only [Params.allowed, Bool.and_eq_true, decide_eq_true_eq] at h
  obtain ⟨⟨⟨⟨⟨herase, hpage⟩, -⟩, -⟩, hflash⟩, -⟩ := h
  exact ⟨herase, pos_of_isPowerOfTwo hpage, hflash⟩

/-- R10, R63: an address inside the array is valid. -/
theorem addr_lt_of_inside {p : Params} {a : Nat} (hp : p.allowed = true) (h : a < p.flashSize) : a < 2 ^ 24 := by
  obtain ⟨-, -, hflash⟩ := bounds_of_allowed hp
  omega

/-! The gating byte -/

/-- R182: a gating byte with WEL = 1 ends a page_program without payload, and any other program or erase goes on to its
command. -/
theorem exec_gating_passes {s : State} {i : Instr} {a n : Word} {d : List Byte} {b : Byte}
    (hi : i = .pageProgram a n d ∨ i = .sectorErase a n) (hp : s.reg.phase = .statusRead)
    (ha : s.answer = .ok (some [b])) (hw : b.getLsbD 1 = true) :
    ∃ t, exec i s = .next t ∧ t.reg.sr = b ∧
      (i = .pageProgram a 0#32 d → Responds s t [.rd 1 (some [b])] ⟨.ok, .idle, 0, []⟩) ∧
      (i ≠ .pageProgram a 0#32 d → GoesOn s t [.rd 1 (some [b])] .cmdWrite) := by
  obtain ⟨-, -, hread⟩ := gatingReadsStatusAndTestsWel s i a n d (some [b]) false hi ha
  obtain ⟨t, c, ht, hsr, hc, -, hend, hgo, -⟩ := hread hp
  obtain rfl := hc b rfl
  exact ⟨t, ht, hsr, hend hw, hgo hw⟩

/-! The program's command -/

/-- R258, R261, R262, R270: the rules the opcode and the address of a program can break on a closed line. -/
theorem frameBreaks_pp (p : Params) (c : Chip) (a : Addr) :
    frameBreaks p (.start c.wip (0x02 :: encAddr a)) c =
      (c.busy.isSome || (!c.wel || (decide (p.flashSize ≤ a.toNat) || !withinPage p a.toNat 0))) := by
  cases hb : c.busy <;> simp [frameBreaks, operandsBreak, encAddr, Chip.wip, hb]

/-- R258: with its preconditions met they break none. -/
theorem frameBreaks_pp_of_ready {p : Params} {c : Chip} {a : Addr} (hp : p.allowed = true) (hb : c.busy = none)
    (hw : c.wel = true) (ha : a.toNat < p.flashSize) : frameBreaks p (.start c.wip (0x02 :: encAddr a)) c = false := by
  obtain ⟨-, hpos, -⟩ := bounds_of_allowed hp
  have hpage : withinPage p a.toNat 0 = true := decide_eq_true (Nat.mod_lt a.toNat hpos).le
  rw [frameBreaks_pp]
  simp [hb, hw, hpage, ha]

/-- On a closed line a command that breaks a rule however its frame ends sets `hazard`. -/
theorem commandHeld_hazard {s : State} {bs : List Byte} (hl : ClosedLine s)
    (hq : frameBreaks s.cfg (.start s.chip.wip bs) s.chip = true) (q : Phase) :
    (commandHeld bs q s).chip.hazard = true := by
  obtain ⟨ht, hf⟩ := hl
  exact commandSeen_breaks (shiftOut_frame_none (s := s.answered) hf bs) (by simpa using ht) hq

theorem exec_pageProgram_cmdWrite {s : State} {ov : Option (List Byte)} (hp : s.reg.phase = .cmdWrite)
    (ha : s.answer = .ok ov) (a n : Word) (d : List Byte) :
    exec (.pageProgram a n d) s = .next (commandHeld (0x02 :: encAddr (wireAddr a)) .dataWrite s) := by
  rw [exec, execPageProgram, hp]
  exact congrArg _ (try_command_ok ha _ _)

/-! The program's payload -/

theorem exec_pageProgram_dataWrite {s : State} {ov : Option (List Byte)} (hp : s.reg.phase = .dataWrite)
    (ha : s.answer = .ok ov) (a n : Word) (d : List Byte) :
    exec (.pageProgram a n d) s = .next (respond .ok .idle 0 [] (frameWritten d s)) := by
  rw [exec, execPageProgram, hp]
  exact congrArg _ (try_write_ok ha _)

theorem frameWritten_responds (bs : List Byte) (s : State) :
    Responds s (respond .ok .idle 0 [] (frameWritten bs s)) [.w bs] ⟨.ok, .idle, 0, []⟩ :=
  ⟨rfl, rfl, by simp [frameWritten]⟩

/-- R121, R251: the bytes end the open frame as the chip's whole frame. -/
theorem frameWritten_chip_of_frameOn {sb : Bool} {bs : List Byte} {s : State} (h : FrameOn sb bs s) (d : List Byte) :
    (frameWritten d s).chip = (chipFrame s.cfg ⟨bs ++ d, 0⟩ sb s.chip s.answered.env).chip := by
  obtain ⟨ht, hf⟩ := h
  rw [frameWritten_chip ht, writtenInto_of_open hf, chipEnds_whole rfl (OpenFrame.push_mixed rfl d)]
  rfl

/-- R258, R260: an idle chip with its latch set starts a program inside the array. -/
theorem chipFrame_pp {p : Params} {c : Chip} {a : Addr} {d : List Byte} (hb : c.busy = none) (hw : c.wel = true)
    (ha : a.toNat < p.flashSize) (hd : d ≠ []) (e : Env) :
    (chipFrame p ⟨0x02 :: (encAddr a ++ d), 0⟩ false c e).chip =
      { c with busy := some (.prog a.toNat d), hazard := c.hazard || !withinPage p a.toNat d.length } := by
  rw [chipFrame, decodeFrame_pp _ _ hd]
  simp [chipPp, hb, hw, ha]

/-- Settles O25: the gating byte decides between the two ends; the command is held open, the payload ends its frame, and
the chip is judged with each. -/
theorem pageProgramSendsAddressThenPayload : Obligations.PageProgramSendsAddressThenPayload := by
  intro s a n d ov b sb
  refine ⟨fun hp ha hw hn => ?_, fun hp ha hw hn => ?_, fun hp ha => ?_, fun hp ha => ?_⟩
  · obtain ⟨t, ht, -, hend, -⟩ := exec_gating_passes (.inl rfl) hp ha hw
    exact ⟨t, ht, hend (by rw [hn])⟩
  · obtain ⟨t, ht, hsr, -, hgo⟩ := exec_gating_passes (.inl rfl) hp ha hw
    exact ⟨t, ht, hgo (by simp [hn]), hsr⟩
  · exact ⟨_, exec_pageProgram_cmdWrite hp ha a n d, commandHeld_goesOn _ _ s,
      fun hok hl hb hw hsize => commandHeld_chip hl (frameBreaks_pp_of_ready hok hb hw hsize) _,
      fun hl hbreak => commandHeld_hazard hl (by rw [frameBreaks_pp]; rcases hbreak with h | h <;> simp [h]) _,
      fun ht hb => commandHeld_hazard_of_busy (by decide) ht hb _ _⟩
  · refine ⟨_, exec_pageProgram_dataWrite hp ha a n d, frameWritten_responds d s, fun hf hd hsb hb hw hsize => ?_,
      frameWritten_setsHazard d s⟩
    subst hsb
    have hchip := (frameWritten_chip_of_frameOn hf d).trans (chipFrame_pp hb hw hsize hd _)
    rw [respond_chip, hchip]
    exact ⟨rfl, hw, rfl⟩

/-! The erase -/

theorem exec_sectorErase_cmdWrite {s : State} {ov : Option (List Byte)} (hp : s.reg.phase = .cmdWrite)
    (ha : s.answer = .ok ov) (a g : Word) :
    exec (.sectorErase a g) s =
      .next (respond .ok .idle 0 [] (frameWritten (s.cfg.eraseOpcode :: encAddr (wireAddr a)) s)) := by
  rw [exec, execSectorErase, hp]
  exact congrArg _ (try_write_ok ha _)

/-- R263: an idle chip with its latch set starts the erase of the aligned sector. -/
theorem chipFrame_se {p : Params} {c : Chip} {a : Addr} (hp : p.allowed = true) (hb : c.busy = none) (hw : c.wel = true)
    (ha : a.toNat < p.flashSize) (e : Env) :
    (chipFrame p ⟨p.eraseOpcode :: encAddr a, 0⟩ false c e).chip =
      { c with busy := some (.erase (sectorBase p a.toNat)) } := by
  rw [chipFrame, decodeFrame_se (bounds_of_allowed hp).1]
  simp [chipSe, hb, hw, ha]

/-- R261, R270: with its latch clear, or outside the array, it sets `hazard`. -/
theorem chipFrame_se_hazard {p : Params} {c : Chip} {a : Addr} (hp : p.allowed = true)
    (h : c.wel = false ∨ p.flashSize ≤ a.toNat) (sb : Bool) (e : Env) :
    (chipFrame p ⟨p.eraseOpcode :: encAddr a, 0⟩ sb c e).chip.hazard = true :=
  chipFrame_hazard e (.inr (.inr (.inr ⟨a, decodeFrame_se (bounds_of_allowed hp).1 a, h⟩)))

/-- On the closed line of an idle chip the erase is the chip's whole frame. -/
theorem frameWritten_se_chip {s : State} {a : Addr} (hp : s.cfg.allowed = true) (hl : ClosedLine s)
    (hb : s.chip.busy = none) (hw : s.chip.wel = true) (ha : a.toNat < s.cfg.flashSize) :
    (frameWritten (s.cfg.eraseOpcode :: encAddr a) s).chip =
      { s.chip with busy := some (.erase (sectorBase s.cfg a.toNat)) } := by
  rw [frameWritten_chip_of_closedLine hl, Chip.wip, hb]
  exact chipFrame_se hp hb hw ha _

/-- Settles O26: opcode and address are one frame, which ends with its bytes. -/
theorem sectorEraseSendsTheAddressUnmasked : Obligations.SectorEraseSendsTheAddressUnmasked := by
  intro s a g ov b
  refine ⟨fun hp ha hw => ?_, fun hp ha => ?_⟩
  · obtain ⟨t, ht, hsr, -, hgo⟩ := exec_gating_passes (d := []) (.inr rfl) hp ha hw
    exact ⟨t, ht, hgo nofun, hsr⟩
  · refine ⟨_, exec_sectorErase_cmdWrite hp ha a g, frameWritten_responds _ s,
      fun hok hl hb hw hsize => frameWritten_se_chip hok hl hb hw hsize, fun hok hl hbreak => ?_,
      fun ht hb => frameWritten_hazard_of_busy (by simp) ht hb, frameWritten_setsHazard _ s⟩
    rw [respond_chip, frameWritten_chip_of_closedLine hl]
    exact chipFrame_se_hazard hok hbreak _ _

end Sys2Proof.Machine
end

section
/-! A page_program as a whole (R200): its trace, step by step. -/
namespace Sys2Proof.Machine
open Sys2Proof.Claims

/-- R100: a page_program whose payload has `arg1` bytes decodes. -/
theorem decodeRequest_pageProgram {n : Word} {d : List Byte} (h : d.length = n.toNat) (a : Word) :
    decodeRequest ⟨5, a, n, d⟩ = .ok (.pageProgram a n d) :=
  decodeRequest_of_encode (e := 0) (by simp [Instr.wellFormed, h]) rfl

/-- Settles O31: the first four steps are those of any gating; then the gating byte, the command and the payload are one
step each. -/
theorem pageProgramWholeTrace : Obligations.PageProgramWholeTrace := by
  intro s a n d b rs hallowed hr hb hw hlen hn haddr hwel hm has
  have hd := decodeRequest_pageProgram hlen a
  obtain ⟨hwf, -⟩ := encode_of_decodeRequest hd 0
  obtain ⟨u, hu, runu, hpu, -, htraceu⟩ := run_to_gating_read hallowed hr hb hw hwf (.inl rfl) haddr hm has
  obtain ⟨-, hgate, -⟩ := pageProgramSendsAddressThenPayload u.moved a n d none b false
  obtain ⟨v, hv, ⟨hpv, -, htracev⟩, -⟩ := hgate hpu runu.answer hwel hn
  obtain ⟨hread, runv⟩ := runu.steps hd (by simp [hpu]) hv
  have runv := runv (by simp [hpv])
  obtain ⟨-, -, hsend, -⟩ := pageProgramSendsAddressThenPayload v.moved a n d none b false
  obtain ⟨x, hx, ⟨hpx, -, htracex⟩, -⟩ := hsend hpv runv.answer
  obtain ⟨hcommand, runx⟩ := runv.steps hd (by simp [hpv]) hx
  have runx := runx (by simp [hpx])
  obtain ⟨-, -, -, hwrite⟩ := pageProgramSendsAddressThenPayload x.moved a n d none b false
  obtain ⟨t, ht, ⟨hpt, hresp, htracet⟩, -⟩ := hwrite hpx runx.answer
  obtain ⟨hpayload, -⟩ := runx.steps hd (by simp [hpx]) ht
  refine ⟨t, (hu 3).trans ((run_of_step hread 2).trans ((run_of_step hcommand 1).trans (run_of_step hpayload 0))),
    hpt, hresp, ?_⟩
  simp [htracet, htracex, htracev, htraceu]

end Sys2Proof.Machine
end

section
/-! Operations one after another on the modelled chip, whose line is closed between them (R9, R34, R123, R206, R213; log
entries 7, 14). What is left of the schedule, the answers and the requests is carried along, with the chip as it is
after each call. -/
namespace Sys2Proof.Machine
open Sys2Proof.Claims

/-- `k` steps of the machine lead from `s` to `t`. -/
def Reaches (k : Nat) (s t : State) : Prop :=
  ∀ m, Host.Core.run Sys2Proof.core (m + k) s = Host.Core.run Sys2Proof.core m t

theorem Reaches.of_step {s t : State} (h : step s = .next t) : Reaches 1 s t := fun m => run_of_step h m

theorem Reaches.trans {j k : Nat} {s t u : State} (h : Reaches j s t) (h' : Reaches k t u) : Reaches (j + k) s u :=
  fun m => by rw [← h', ← h, Nat.add_assoc, Nat.add_comm k]

theorem Reaches.run {k : Nat} {s t : State} (h : Reaches k s t) : Host.Core.run Sys2Proof.core k s = .next t := by
  simpa [Host.Core.run] using h 0

/-- FLASHCMD is bound to the slot of the modelled chip, which is `c`; the next moves are `evs`, the transport's next
answers `as`, and the requests `rs` wait. -/
structure Session (p : Params) (evs : List Event) (as : List Answer) (rs : List Request) (c : Chip) (s : State) :
    Prop where
  cfg     : s.cfg = p
  allowed : p.allowed = true
  bound   : s.reg.bound = true
  slot    : s.reg.handle.toNat = p.chipSlot
  moves   : Moves evs s
  answers : Answers as s
  waiting : s.port.waiting = rs
  chip    : s.chip = c

/-- Between two operations: no frame is open on the chip's line, and `resp` is the response that is pending, if one
is. -/
structure Rests (resp : Option Response) (p : Params) (evs : List Event) (as : List Answer) (rs : List Request)
    (c : Chip) (s : State) : Prop extends Session p evs as rs c s where
  phase : s.reg.phase = .idle
  resp  : s.reg.resp = resp
  line  : s.bus.line p.chipSlot = none

/-- After the first call of an operation: the latches hold `r`, its next call is the one of phase `q`, and `f` is the
frame open on the chip's line, if one is. -/
structure Operates (r : Request) (q : Phase) (f : Option OpenFrame) (p : Params) (evs : List Event) (as : List Answer)
    (rs : List Request) (c : Chip) (s : State) : Prop extends Session p evs as rs c s where
  latched : latchedRequest s = r
  phase   : s.reg.phase = q
  target  : s.bus.target = s.reg.handle
  frame   : s.bus.frame = f

section
variable {p : Params} {evs : List Event} {as : List Answer} {rs : List Request} {c : Chip} {s : State}

theorem Rests.ready (h : Rests none p evs as rs c s) : s.ready = true := s.ready_iff.2 ⟨h.phase, h.resp⟩

/-- FLASHCMD ready and bound to the modelled chip's slot, with its line closed. -/
theorem Rests.of_ready (ha : s.cfg.allowed = true) (hr : s.ready = true) (hb : s.reg.bound = true)
    (hslot : s.reg.handle.toNat = s.cfg.chipSlot) (hl : s.bus.line s.cfg.chipSlot = none) (hm : Moves evs s)
    (has : Answers as s) (hw : s.port.waiting = rs) : Rests none s.cfg evs as rs s.chip s := by
  obtain ⟨hp, hn⟩ := s.ready_iff.1 hr
  exact ⟨⟨rfl, ha, hb, hslot, hm, has, hw, rfl⟩, hp, hn, hl⟩

/-! The moves of the outside -/

/-- R103: the host takes the response. -/
theorem Rests.takes {x : Option Response} (h : Rests x p (.take :: evs) as rs c s) :
    ∃ t, Reaches 1 s t ∧ Rests none p evs as rs c t := by
  obtain ⟨⟨rfl, hp, hb, hslot, hm, has, hw, hc⟩, hphase, -, hline⟩ := h
  have hstep : step s = .next (takeResponse s.moved) := by
    rw [step_eq_stepEvent hp, event_of_moves hm]
    rfl
  exact ⟨_, .of_step hstep, ⟨rfl, hp, hb, hslot, moves_moved hm, has, hw, hc⟩, hphase, rfl, hline⟩

/-- R265: the chip completes what it is doing. -/
theorem Rests.completes {x : Option Response} (h : Rests x p (.complete :: evs) as rs c s) :
    ∃ e t, Reaches 1 s t ∧ Rests x p evs as rs (chipComplete p c e).1 t := by
  obtain ⟨⟨rfl, hp, hb, hslot, hm, has, hw, rfl⟩, hphase, hx, hline⟩ := h
  have hstep : step s = .next (completeStep s.moved) := by
    rw [step_eq_stepEvent hp, event_of_moves hm]
    rfl
  have hkeeps := chipComplete_keeps s.cfg s.chip s.moved.env
  refine ⟨s.moved.env, _, .of_step hstep, ⟨rfl, hp, hb, hslot, ?_, ?_, hw, rfl⟩, hphase, hx, hline⟩
  · rw [Moves, completeStep_env]
    exact hkeeps.sched ▸ moves_moved hm
  · rw [Answers, completeStep_env]
    exact hkeeps.answers ▸ has

/-! FLASHCMD's moves -/

/-- The machine after `spi_select(HANDLE)` has returned `ok`. -/
def slotSelected (s : State) : State :=
  ({ s.answered with bus := { s.bus with target := s.reg.handle } } : State).log (.sel s.reg.handle)

@[simp] theorem slotSelected_cfg (s : State) : (slotSelected s).cfg = s.cfg := rfl
@[simp] theorem slotSelected_reg (s : State) : (slotSelected s).reg = s.reg := rfl
@[simp] theorem slotSelected_port (s : State) : (slotSelected s).port = s.port := rfl
@[simp] theorem slotSelected_bus (s : State) : (slotSelected s).bus = { s.bus with target := s.reg.handle } := rfl
@[simp] theorem slotSelected_chip (s : State) : (slotSelected s).chip = s.chip := rfl
@[simp] theorem slotSelected_env (s : State) : (slotSelected s).env = s.answered.env := rfl

/-- R110, R123: `spi_select(HANDLE)` leads an operation to the phase of its next call. -/
theorem exec_select {i : Instr} {r : Request} {ov : Option (List Byte)} {q : Phase} (hr : IsRequest i r)
    (hlo : 1 ≤ r.op.toNat) (hhi : r.op.toNat ≤ 7) (hp : s.reg.phase = .select) (ha : s.answer = .ok ov)
    (hq : (if r.op = 1#4 ∨ r.op = 4#4 then .cmdWrite else if r.op = 2#4 ∨ r.op = 7#4 then .statusCmd
      else .wrenWrite) = q) : exec i s = .next (goto q (slotSelected s)) := by
  subst hq
  obtain ⟨k, hk, hexec⟩ := exec_attempt hr (hp ▸ traffic_starts_in_select r.op hlo hhi)
  rw [hp] at hk hexec
  obtain rfl := callOf_select hk
  exact hexec.trans (congrArg _ (try_select_ok ha s.reg.handle))

/-- R100, R123, R308: the first request that waits is accepted, and the bound slot selected. -/
theorem Rests.begins {r : Request} {ov : Option (List Byte)} {q : Phase}
    (h : Rests none p (.block :: .block :: evs) (.ok ov :: as) (r :: rs) c s) (hwf : r.wellFormed = true)
    (hlo : 1 ≤ r.op.toNat) (hhi : r.op.toNat ≤ 7)
    (haddr : r.op = 4#4 ∨ r.op = 5#4 ∨ r.op = 6#4 → r.arg0.toNat < 2 ^ 24) (hn : r.op = 7#4 → r.arg1 ≠ 0#32)
    (hq : (if r.op = 1#4 ∨ r.op = 4#4 then .cmdWrite else if r.op = 2#4 ∨ r.op = 7#4 then .statusCmd
      else .wrenWrite) = q) :
    ∃ t, Reaches 2 s t ∧ t.env.draws = s.env.draws ∧ Operates r q none p evs as rs c t := by
  have hready := h.ready
  obtain ⟨⟨rfl, hp, hb, hslot, ⟨rest, hm⟩, has, hw, rfl⟩, -, -, hline⟩ := h
  have hd : decodeRequest r = .ok (requestInstr r) := if_pos hwf
  obtain ⟨-, he⟩ := encode_of_decodeRequest hd 0
  obtain ⟨u, hu, run, ⟨hphase, -⟩, ⟨hbus, hchip, henv, hcfg, hport⟩, hbound, hhandle, -⟩ :=
    step_accepts (m := 1) hp hready hb hw hd hlo hhi haddr hn ⟨evs ++ rest, hm⟩ has
  have hexec := exec_select (s := u.moved) ⟨0, he⟩ hlo hhi hphase run.answer hq
  obtain ⟨hselect, runt⟩ := run.steps hd (by simp [hphase]) hexec
  have runt := runt (by rw [goto_phase, ← hq]; split_ifs <;> decide)
  refine ⟨_, (Reaches.of_step hu).trans (.of_step hselect), by simp [henv], ?_⟩
  refine ⟨⟨hcfg, hp, hbound, by simp [hhandle, hslot], ⟨rest, by simp [henv, hm]⟩, runt.answers, by simp [hport, hw],
    hchip⟩, runt.latched, rfl, rfl, ?_⟩
  simpa [Bus.frame, Bus.line, hbus, hhandle, hslot] using hline

/-- R120: once the bound slot is the target, it stays so. -/
theorem perform_target_of_selected (h : s.bus.target = s.reg.handle) (k : Call) :
    (perform k s).2.bus.target = s.reg.handle := by
  by_cases hk : k = .select
  · rcases perform_cases k s with ⟨-, hc⟩ | ⟨-, ev, hc⟩ | ⟨ov, -, hc⟩
    · simp [hc, h]
    · simp [hc, h]
    · subst hk
      simp [hc]
  · rw [perform_target hk, h]

/-- R9, R34: FLASHCMD's move runs the latched operation, with one move and one answer less. -/
theorem Operates.steps {r : Request} {q : Phase} {f : Option OpenFrame} {a : Answer}
    (h : Operates r q f p (.block :: evs) (a :: as) rs c s) {i : Instr} (hd : decodeRequest r = .ok i)
    (hq : q ≠ .idle) {t : State} (ht : exec i s.moved = .next t) :
    Reaches 1 s t ∧ Session p evs as rs t.chip t ∧ (t.reg.phase ≠ .idle → latchedRequest t = r) ∧
      t.bus.target = t.reg.handle := by
  obtain ⟨⟨rfl, hp, hb, hslot, hm, has, hw, rfl⟩, rfl, rfl, htarget, -⟩ := h
  obtain ⟨-, he⟩ := encode_of_decodeRequest hd 0
  have hstep := (stepRunsTheDecodedInstruction.2.1 s i hp (event_of_moves hm) hq hd).trans ht
  have hcfg := exec_cfg ht
  obtain ⟨hbound, hhandle⟩ := exec_binding (s := s.moved) hb ht
  obtain ⟨-, k, -, rfl⟩ := exec_call_inv ⟨0, he⟩ (s := s.moved) hq ht
  have hkept := attempt_kept (perform k s.moved) (latchedRequest s) (p := s.moved.reg.phase) hq
  refine ⟨.of_step hstep, ⟨hcfg, hp, hbound, hhandle ▸ hslot, ?_, ?_, ?_, rfl⟩, fun hi => ?_, ?_⟩
  · rw [Moves, hkept.env, perform_sched]
    exact moves_moved hm
  · refine answers_of_tail has ?_
    rw [hkept.env, perform_answers]
    rfl
  · rw [hkept.waiting, perform_port]
    exact hw
  · rw [latchedRequest_kept hkept hi, perform_latchedRequest]
    rfl
  · rw [hkept.bus, hkept.handle, perform_reg]
    exact perform_target_of_selected (s := s.moved) htarget k

section
variable {r : Request} {q q' : Phase} {f f' : Option OpenFrame} {a : Answer} {i : Instr} {t : State} {c' : Chip}
  (h : Operates r q f p (.block :: evs) (a :: as) rs c s) (hd : decodeRequest r = .ok i) (hq : q ≠ .idle)
  (ht : exec i s.moved = .next t) (hchip : t.chip = c')
include h hd hq ht hchip

/-- The operation goes on in another phase. -/
theorem Operates.goesOn (hphase : t.reg.phase = q') (hq' : q' ≠ .idle) (hframe : t.bus.frame = f') :
    ∃ t, Reaches 1 s t ∧ Operates r q' f' p evs as rs c' t := by
  obtain ⟨hstep, hs, hlatched, htarget⟩ := h.steps hd hq ht
  exact ⟨t, hstep, hchip ▸ hs, hlatched (hphase ▸ hq'), hphase, htarget, hframe⟩

/-- The operation ends with a response, and the frame on the chip's line with it. -/
theorem Operates.ends {x : Option Response} (hphase : t.reg.phase = .idle) (hresp : t.reg.resp = x)
    (hframe : t.bus.frame = none) : ∃ t, Reaches 1 s t ∧ Rests x p evs as rs c' t := by
  obtain ⟨hstep, hs, -, htarget⟩ := h.steps hd hq ht
  refine ⟨t, hstep, hchip ▸ hs, hphase, hresp, ?_⟩
  rwa [Bus.frame, htarget, hs.slot] at hframe

end

/-! The line as the calls of an operation find it -/

section
variable {r : Request} {q : Phase}

theorem Operates.answer {f : Option OpenFrame} {a : Answer}
    (h : Operates r q f p evs (a :: as) rs c s) : s.moved.answer = a := answer_of_answers (s := s.moved) h.answers

theorem Operates.closedLine (h : Operates r q none p evs as rs c s) : ClosedLine s.moved :=
  ⟨by simp [h.target, h.slot, h.cfg], h.frame⟩

theorem Operates.frameOn {sb : Bool} {bs : List Byte}
    (h : Operates r q (some (.start sb bs)) p evs as rs c s) : FrameOn sb bs s.moved :=
  ⟨by simp [h.target, h.slot, h.cfg], h.frame⟩

/-- R121, R122: a command that breaks no rule is held open on an idle chip, and leaves it. -/
theorem Operates.holds {ov : Option (List Byte)} {q' : Phase} {bs : List Byte} {i : Instr}
    (h : Operates r q none p (.block :: evs) (.ok ov :: as) rs c s) (hd : decodeRequest r = .ok i) (hq : q ≠ .idle)
    (hq' : q' ≠ .idle) (ht : exec i s.moved = .next (commandHeld bs q' s.moved))
    (hb : c.busy = none) (hquiet : frameBreaks p (.start c.wip bs) c = false) :
    ∃ t, Reaches 1 s t ∧ Operates r q' (some (.start false bs)) p evs as rs c t := by
  obtain ⟨hphase, -, -⟩ := commandHeld_goesOn bs q' s.moved
  obtain ⟨-, hframe⟩ := commandHeld_frameOn h.closedLine bs q'
  rw [← h.cfg, ← h.chip] at hquiet
  have hchip := commandHeld_chip (s := s.moved) h.closedLine hquiet q'
  rw [State.moved_chip, h.chip] at hframe hchip
  rw [Chip.wip, hb] at hframe
  exact h.goesOn hd hq ht hchip hphase hq' hframe

end

end

end Sys2Proof.Machine
end

section
/-! The operations of a session on an idle chip, each as a whole: page_program and sector_erase up to their program and
erase frame, which starts the chip; wait_ready; read_data. -/
namespace Sys2Proof.Machine
open Sys2Proof.Claims

/-! The chip in the calls -/

/-- R253: a latch that is set, or that the drawn bit sets, is set afterwards. -/
theorem chip_of_takesOrIgnores {bit : Bool} {c d : Chip} (h : TakesOrIgnoresWriteEnable bit c d)
    (hw : c.wel = true ∨ bit = true) : d = { c with wel := true } := by
  obtain ⟨htakes, hignores, hrest⟩ := h
  have hwel : d.wel = true := by
    cases bit with
    | true => exact htakes rfl
    | false => exact (hignores rfl).trans (by simpa using hw)
  rw [← hrest, ← hwel]

/-- R5: an odd drawn value is a set bit. -/
theorem bit_of_writeEnableTakes {s t : State} (h : WriteEnableTakes s) (hd : t.env.draws = s.env.draws) :
    t.env.bit = true := by
  obtain ⟨k, ks, hk, hodd⟩ := h
  simp [Env.bit, Env.value, hd, hk, hodd]

@[simp] theorem frameWritten_frame (bs : List Byte) (s : State) : (frameWritten bs s).bus.frame = none := by
  simp [frameWritten]

/-- R252: the read that ends a read status frame delivers the chip's status, and the chip stays. -/
theorem read_status_of_frameOn {sb : Bool} {s : State} (hf : FrameOn sb [0x05] s) :
    ∃ b, delivered 1 none s = [b] ∧ ShowsStatus s b ∧ (afterRead 1 none s).chip = s.chip := by
  obtain ⟨b, hb⟩ := List.length_eq_one_iff.1 (delivered_length 1 none s)
  exact ⟨b, hb, showsStatus_of_frameOn hf hb, afterRead_chip_of_frameOn hf 1 none⟩

/-! wait_ready, call by call -/

theorem exec_waitReady_statusCmd {s : State} {ov : Option (List Byte)} (hp : s.reg.phase = .statusCmd)
    (ha : s.answer = .ok ov) (g b : Word) :
    exec (.waitReady g b) s = .next (commandHeld [0x05] .statusRead s) := by
  rw [exec, execWaitReady, hp]
  exact congrArg _ (try_command_ok ha _ _)

theorem exec_waitReady_statusRead {s : State} {ov : Option (List Byte)} {c : Byte} (hp : s.reg.phase = .statusRead)
    (ha : s.answer = .ok ov) (hc : delivered 1 ov s = [c]) (g b : Word) :
    exec (.waitReady g b) s = .next (afterPoll b c (statusReturned ov c s)) := by
  rw [exec, execWaitReady, hp]
  exact congrArg _ (callStatusRead_ok ha hc _)

/-- R231: a byte with WIP = 0 ends the polling. -/
theorem afterPoll_of_ready {c : Byte} (h : c.getLsbD 0 = false) (b : Word) (u : State) :
    afterPoll b c u = respond .ok .idle (zext24 c) [] (setPolls (u.reg.polls + 1#32) u) := by
  have hclear : statusWip c = false := h
  simp [afterPoll, hclear]

section
variable {p : Params} {evs : List Event} {as : List Answer} {rs : List Request} {c : Chip} {s : State}

/-! The whole operations -/

/-- R182, R253: on an idle chip that takes the write enable, the gating of a page_program with payload or of a
sector_erase passes. -/
theorem Rests.passesGating {r : Request}
    (h : Rests none p (List.replicate 5 .block ++ evs) (List.replicate 4 (.ok none) ++ as) (r :: rs) c s)
    (hwf : r.wellFormed = true) (hop : r.op = 5#4 ∨ r.op = 6#4)
    (hpayload : requestInstr r ≠ .pageProgram r.arg0 0#32 r.payload) (haddr : r.arg0.toNat < 2 ^ 24)
    (hb : c.busy = none) (hw : c.wel = true ∨ WriteEnableTakes s) :
    ∃ t, Reaches 5 s t ∧ Operates r .cmdWrite none p evs as rs { c with wel := true } t := by
  have hd : decodeRequest r = .ok (requestInstr r) := if_pos hwf
  have hi := requestInstr_of_gated hop
  have hlo : 1 ≤ r.op.toNat := by rcases hop with h | h <;> simp [h]
  have hhi : r.op.toNat ≤ 7 := by rcases hop with h | h <;> simp [h]
  obtain ⟨u, hu, hdraws, hou⟩ := h.begins (q := .wrenWrite) hwf hlo hhi (fun _ => haddr)
    (fun h7 => by simp [h7] at hop) (by rcases hop with h | h <;> simp [h])
  have hwren := exec_gating_wrenWrite (s := u.moved) hi hou.answer hou.phase
  have htakes := writeEnable_takes_or_ignores hou.closedLine (by simpa [hou.chip] using hb)
  rw [State.moved_chip, hou.chip] at htakes
  have hset := chip_of_takesOrIgnores htakes (hw.imp_right fun ht => bit_of_writeEnableTakes ht hdraws)
  obtain ⟨v, hv, hov⟩ := hou.goesOn (q' := .statusCmd) hd (by decide) hwren hset rfl (by decide)
    (frameWritten_frame _ _)
  have hcommand := exec_gating_statusCmd (s := v.moved) hi hov.answer hov.phase
  obtain ⟨x, hx, hox⟩ := hov.holds hd (by decide) (by decide) hcommand hb (frameBreaks_rdsr _ _ _)
  obtain ⟨b, hdel, ⟨-, hwel, -⟩, hchip⟩ := read_status_of_frameOn hox.frameOn
  replace hwel : b.getLsbD 1 = true := by simpa [hox.chip, hb] using hwel
  have hread := exec_gating_statusRead (s := x.moved) hi hox.answer hox.phase hdel
  rw [gateCheck_of_set hwel, afterGate, if_neg hpayload] at hread
  obtain ⟨t, ht, ho⟩ := hox.goesOn (q' := .cmdWrite) hd (by decide) hread (hchip.trans hox.chip) rfl (by decide)
    (afterRead_frame _ none _)
  exact ⟨t, ((hu.trans hv).trans hx).trans ht, ho⟩

/-- R200, R258: a page_program within its page and the array starts the chip's program, and responds `OK`. -/
theorem Rests.programs {a n : Word} {d : List Byte}
    (h : Rests none p (List.replicate 7 .block ++ evs) (List.replicate 6 (.ok none) ++ as) (⟨5, a, n, d⟩ :: rs) c s)
    (hlen : d.length = n.toNat) (hn : n ≠ 0#32) (hpage : a.toNat % p.pageSize + n.toNat ≤ p.pageSize)
    (hsize : a.toNat < p.flashSize) (hb : c.busy = none) (hw : c.wel = true ∨ WriteEnableTakes s) :
    ∃ t, Reaches 7 s t ∧
      Rests (some ⟨.ok, .idle, 0, []⟩) p evs as rs { c with wel := true, busy := some (.prog a.toNat d) } t := by
  have hd := decodeRequest_pageProgram hlen a
  obtain ⟨hwf, -⟩ := encode_of_decodeRequest hd 0
  have haddr : a.toNat < 2 ^ 24 := addr_lt_of_inside h.allowed hsize
  have hwire := wireAddr_toNat haddr
  have hne : d ≠ [] := by
    rintro rfl
    exact hn (BitVec.eq_of_toNat_eq hlen.symm)
  obtain ⟨u, hu, hou⟩ := h.passesGating (evs := .block :: .block :: evs) (as := .ok none :: .ok none :: as) hwf
    (.inl rfl) (by simpa [requestInstr] using hn) haddr hb hw
  have hcommand := exec_pageProgram_cmdWrite (s := u.moved) hou.phase hou.answer a n d
  obtain ⟨v, hv, hov⟩ := hou.holds hd (by decide) (by decide) hcommand hb
    (frameBreaks_pp_of_ready h.allowed hb rfl (hwire ▸ hsize))
  have hpayload := exec_pageProgram_dataWrite (s := v.moved) hov.phase hov.answer a n d
  have hchip := (frameWritten_chip_of_frameOn hov.frameOn d).trans
    (chipFrame_pp (by simpa [hov.chip] using hb) (by simp [hov.chip]) (by simpa [hov.cfg, hwire] using hsize) hne _)
  have hpage : withinPage p a.toNat d.length = true := decide_eq_true (hlen ▸ hpage)
  simp only [State.moved_cfg, State.moved_chip, hov.chip, hov.cfg, hwire, hpage, Bool.not_true, Bool.or_false] at hchip
  obtain ⟨t, ht, ho⟩ := hov.ends hd (by decide) hpayload hchip rfl rfl (frameWritten_frame _ _)
  exact ⟨t, (hu.trans hv).trans ht, ho⟩

/-- R210, R263: a sector_erase inside the array starts the chip's erase of the aligned sector, and responds `OK`. -/
theorem Rests.erases {a g : Word}
    (h : Rests none p (List.replicate 6 .block ++ evs) (List.replicate 5 (.ok none) ++ as) (⟨6, a, g, []⟩ :: rs) c s)
    (hsize : a.toNat < p.flashSize) (hb : c.busy = none) (hw : c.wel = true ∨ WriteEnableTakes s) :
    ∃ t, Reaches 6 s t ∧ Rests (some ⟨.ok, .idle, 0, []⟩) p evs as rs
      { c with wel := true, busy := some (.erase (sectorBase p a.toNat)) } t := by
  have haddr : a.toNat < 2 ^ 24 := addr_lt_of_inside h.allowed hsize
  have hwire := wireAddr_toNat haddr
  obtain ⟨u, hu, hou⟩ := h.passesGating (evs := .block :: evs) (as := .ok none :: as) rfl (.inr rfl) nofun haddr hb hw
  have hframe := exec_sectorErase_cmdWrite (s := u.moved) hou.phase hou.answer a g
  have hchip := frameWritten_se_chip (s := u.moved) (a := wireAddr a) (by simpa [hou.cfg] using hou.allowed)
    hou.closedLine (by simpa [hou.chip] using hb) (by simp [hou.chip]) (by simpa [hou.cfg, hwire] using hsize)
  simp only [State.moved_cfg, State.moved_chip, hou.chip, hou.cfg, hwire] at hchip hframe
  obtain ⟨t, ht, ho⟩ := hou.ends rfl (by decide) hframe hchip rfl rfl (frameWritten_frame _ _)
  exact ⟨t, hu.trans ht, ho⟩

/-- R231, R252: on an idle chip the first poll of a wait_ready ends it, and the chip stays. -/
theorem Rests.waits {g b : Word}
    (h : Rests none p (List.replicate 4 .block ++ evs) (List.replicate 3 (.ok none) ++ as) (⟨7, g, b, []⟩ :: rs) c s)
    (hb : c.busy = none) (hn : b ≠ 0#32) :
    ∃ x t, Reaches 4 s t ∧ Rests (some x) p evs as rs c t := by
  obtain ⟨u, hu, -, hou⟩ := h.begins (q := .statusCmd) rfl (by simp) (by simp) (by simp) (fun _ => hn) rfl
  have hcommand := exec_waitReady_statusCmd (s := u.moved) hou.phase hou.answer g b
  obtain ⟨v, hv, hov⟩ := hou.holds rfl (by decide) (by decide) hcommand hb (frameBreaks_rdsr _ _ _)
  obtain ⟨y, hdel, ⟨hwip, -⟩, hchip⟩ := read_status_of_frameOn hov.frameOn
  have hread := exec_waitReady_statusRead (s := v.moved) hov.phase hov.answer hdel g b
  rw [afterPoll_of_ready (by simpa [hov.chip, hb] using hwip)] at hread
  obtain ⟨t, ht, ho⟩ := hov.ends rfl (by decide) hread (hchip.trans hov.chip) rfl rfl (afterRead_frame _ none _)
  exact ⟨_, t, (hu.trans hv).trans ht, ho⟩

/-- R155, R256: on an idle chip without a wrap table a read_data inside the array returns its bytes, and the chip
stays. -/
theorem Rests.reads {a n : Word}
    (h : Rests none p (List.replicate 4 .block ++ evs) (List.replicate 3 (.ok none) ++ as) (⟨4, a, n, []⟩ :: rs) c s)
    (hb : c.busy = none) (hwrap : p.readWrap = none) (haddr : a.toNat < 2 ^ 24)
    (hsize : a.toNat + n.toNat ≤ p.flashSize) :
    ∃ t, Reaches 4 s t ∧
      Rests (some ⟨.ok, .idle, 0, (List.range' a.toNat n.toNat).map c.mem.read⟩) p evs as rs c t := by
  have hwire := wireAddr_toNat haddr
  obtain ⟨u, hu, -, hou⟩ := h.begins (q := .cmdWrite) rfl (by simp) (by simp) (fun _ => haddr) (by simp) rfl
  have hcommand := exec_readData_cmdWrite (s := u.moved) hou.phase hou.answer a n
  obtain ⟨v, hv, hov⟩ := hou.holds rfl (by decide) (by decide) hcommand hb (frameBreaks_read hb p _)
  have hidle : v.moved.chip.busy = none := by simpa [hov.chip] using hb
  have hread := exec_readData_dataRead (s := v.moved) hov.phase hov.answer a n
  have hchip := afterRead_chip_of_frameOn hov.frameOn n.toNat none
  have hdel := delivered_of_frameOn hov.frameOn n.toNat
  rw [chipFrame_read hidle] at hchip hdel
  simp only [State.moved_cfg, State.moved_chip, hov.cfg, hov.chip] at hchip hdel
  rw [hwire, readBytes_inside hwrap _ _ _ _ _ (by simpa using hsize)] at hdel
  rw [hdel] at hread
  obtain ⟨t, ht, ho⟩ := hov.ends rfl (by decide) hread hchip rfl rfl (afterRead_frame _ none _)
  exact ⟨t, (hu.trans hv).trans ht, ho⟩

end

end Sys2Proof.Machine
end

section
/-! The round trips (R206, R213): a program or an erase, its completion, a wait_ready and a read_data. -/
namespace Sys2Proof.Machine
open Sys2Proof.Claims

/-! The bytes that are read -/

/-- R206, R259: bytes programmed within their page and the array into erased ones are read back. -/
theorem map_read_completedProgram {p : Params} {a : Nat} {d : List Byte} {m : Memory}
    (hpage : a % p.pageSize + d.length ≤ p.pageSize) (hsize : a + d.length ≤ p.flashSize)
    (herased : ∀ i < d.length, m.read (a + i) = 0xFF#8) (e : Env) :
    (List.range' a d.length).map (completedMemory p m e (.prog a d)).1.read = d := by
  have hwithin : withinPage p a d.length = true := decide_eq_true hpage
  rw [completedMemory, if_pos hwithin]
  refine List.ext_getElem (by simp) fun i _ hi => ?_
  simpa using programBytes_erased p.flashSize d a m e i hi (by omega) (herased i hi)

/-- R213, R264: the bytes of an erased sector inside the array are all ones. -/
theorem map_read_completedErase {p : Params} {a c n : Nat} (hlo : sectorBase p a ≤ c)
    (hhi : c + n ≤ sectorBase p a + p.sectorSize) (hsize : c + n ≤ p.flashSize) (m : Memory) (e : Env) :
    (List.range' c n).map (completedMemory p m e (.erase (sectorBase p a))).1.read = List.replicate n 0xFF#8 := by
  refine List.eq_replicate_iff.2 ⟨by simp, fun x hx => ?_⟩
  obtain ⟨t, ht, rfl⟩ := List.mem_map.1 hx
  obtain ⟨hct, htn⟩ := List.mem_range'_1.1 ht
  exact Memory.read_fill_inside (sectorBase p a) 0xFF#8 _ m (by omega) (by omega)

/-! The second half of a round trip -/

/-- R265: a chip that is busy completes, is ready and has its latch clear, and `hazard` stays. -/
theorem chipComplete_of_busy {c : Chip} {k : Pending} (hk : c.busy = some k) (p : Params) (e : Env) :
    (chipComplete p c e).1 = { c with mem := (completedMemory p c.mem e k).1, busy := none, wel := false } := by
  simp [chipComplete, hk]

/-- The moves after the response of a program or an erase: the host takes it, the chip completes, a wait_ready polls
once, its response is taken, and a read_data runs. -/
def completionAndReadBack : List Event :=
  .take :: .complete :: (List.replicate 4 .block ++ .take :: List.replicate 4 .block)

/-- R206, R213: the response of a program or an erase is taken, the chip completes, a wait_ready finds it ready, and a
read_data returns the bytes of the array as the completion has left it. -/
theorem Rests.reads_after_completion {p : Params} {x : Option Response} {g b a n : Word} {rs : List Request} {c : Chip}
    {k : Pending} {s : State}
    (h : Rests x p completionAndReadBack (List.replicate 6 (.ok none)) (⟨7, g, b, []⟩ :: ⟨4, a, n, []⟩ :: rs) c s)
    (hk : c.busy = some k) (hbound : b ≠ 0#32) (hwrap : p.readWrap = none) (haddr : a.toNat < 2 ^ 24)
    (hsize : a.toNat + n.toNat ≤ p.flashSize) :
    ∃ e t, Reaches 11 s t ∧
      t.reg.resp =
        some ⟨.ok, .idle, 0, (List.range' a.toNat n.toNat).map (completedMemory p c.mem e k).1.read⟩ ∧
      t.chip.busy = none ∧ t.chip.wel = false ∧ t.chip.hazard = c.hazard := by
  obtain ⟨s1, h1, ho1⟩ := h.takes
  obtain ⟨e, s2, h2, ho2⟩ := ho1.completes
  rw [chipComplete_of_busy hk] at ho2
  obtain ⟨y, s3, h3, ho3⟩ :=
    ho2.waits (evs := .take :: List.replicate 4 .block) (as := List.replicate 3 (.ok none)) rfl hbound
  obtain ⟨s4, h4, ho4⟩ := ho3.takes
  obtain ⟨t, h5, ho⟩ := ho4.reads (evs := []) (as := []) rfl hwrap haddr hsize
  refine ⟨e, t, (((h1.trans h2).trans h3).trans h4).trans h5, ho.resp, ?_⟩
  rw [ho.chip]
  exact ⟨rfl, rfl, rfl⟩

/-! The round trips -/

/-- Settles O34: the program starts within its page and the array, its completion stores the bytes, and they are read
back. -/
theorem pageProgramThenReadDataReturnsTheData : Obligations.PageProgramThenReadDataReturnsTheData := by
  intro s a n g b d rs hallowed hr hbound hslot hline hb hw hwrap hlen hn hpage hsize herased hb0 hwait hm has
  have hpos : 0 < n.toNat := Nat.pos_of_ne_zero fun h0 => hn (BitVec.eq_of_toNat_eq h0)
  have hinside : a.toNat < s.cfg.flashSize := by omega
  obtain ⟨u, hu, hou⟩ := (Rests.of_ready hallowed hr hbound hslot hline hm has hwait).programs
    (evs := completionAndReadBack) (as := List.replicate 6 (.ok none)) hlen hn hpage hinside hb hw
  obtain ⟨e, t, ht, hread, hchip⟩ :=
    hou.reads_after_completion rfl hb0 hwrap (addr_lt_of_inside hallowed hinside) hsize
  rw [← hlen] at hpage hsize herased hread
  rw [map_read_completedProgram hpage hsize herased] at hread
  exact ⟨t, (hu.trans ht).run, hread, hchip⟩

/-- Settles O35: the erase starts inside the array, its completion fills the aligned sector, and the range that is read
lies inside it. -/
theorem sectorEraseThenReadDataReturnsOnes : Obligations.SectorEraseThenReadDataReturnsOnes := by
  intro s a c n g h b rs hallowed hr hbound hslot hline hb hw hwrap hinside hlo hhi hc hsize hb0 hwait hm has
  obtain ⟨u, hu, hou⟩ := (Rests.of_ready hallowed hr hbound hslot hline hm has hwait).erases
    (evs := completionAndReadBack) (as := List.replicate 6 (.ok none)) hinside hb hw
  obtain ⟨e, t, ht, hread, hchip⟩ :=
    hou.reads_after_completion rfl hb0 hwrap (addr_lt_of_inside hallowed hc) hsize
  rw [map_read_completedErase hlo hhi hsize] at hread
  exact ⟨t, (hu.trans ht).run, hread, hchip⟩

end Sys2Proof.Machine
end

section
/-! wait_ready call by call (R230 to R232): its start with bound 0, the selection of the slot, and one poll. -/
namespace Sys2Proof.Machine
open Sys2Proof.Claims

/-! The start -/

/-- R232: bound 0 ends a wait_ready as it is accepted. -/
theorem exec_waitReady_zero {s : State} (hr : s.ready = true) (hb : s.reg.bound = true) (g : Word) :
    exec (.waitReady g 0) s = .next (respond .timeout .idle 0 [] (setPolls 0 (latch 7 g 0 [] s))) := by
  obtain ⟨hp, -⟩ := s.ready_iff.1 hr
  rw [exec_idle (e := 0) rfl hp, accept, if_pos hr, start_of_waitReady rfl]
  simp [requireBound, startPolling, hb]

/-- Settles O17: the `Timeout` is written over the latched request, and no call is made. -/
theorem waitReadyOfZeroTimesOut : Obligations.WaitReadyOfZeroTimesOut := by
  intro s g hr hb
  exact ⟨_, exec_waitReady_zero hr hb g, ⟨rfl, rfl, rfl, rfl, rfl⟩, rfl, rfl, rfl, rfl⟩

/-- R123: the first call selects the bound slot, and the polls begin. -/
theorem exec_waitReady_select {s : State} {ov : Option (List Byte)} (hp : s.reg.phase = .select)
    (ha : s.answer = .ok ov) (g b : Word) :
    exec (.waitReady g b) s = .next (goto .statusCmd (slotSelected s)) :=
  exec_select (r := ⟨7, g, b, []⟩) ⟨0, rfl⟩ (by simp) (by simp) hp ha rfl

/-! One poll -/

/-- R231: the poll that reaches the bound with WIP = 1 is the last. -/
theorem afterPoll_of_bound {c : Byte} {b : Word} {u : State} (h : c.getLsbD 0 = true) (hb : u.reg.polls + 1#32 = b) :
    afterPoll b c u = respond .timeout .idle (zext24 c) [] (setPolls b u) := by
  have hset : statusWip c = true := h
  simp [afterPoll, hset, hb]

/-- R230: below the bound WIP = 1 leads to the next poll. -/
theorem afterPoll_of_busy {c : Byte} {b : Word} {u : State} (h : c.getLsbD 0 = true) (hb : u.reg.polls + 1#32 ≠ b) :
    afterPoll b c u = goto .statusCmd (setPolls (u.reg.polls + 1#32) u) := by
  have hset : statusWip c = true := h
  simp [afterPoll, hset, hb]

/-- R230, R37: whatever follows a poll, it is counted, and `SR` and the chip stay. -/
theorem afterPoll_kept (b : Word) (c : Byte) (u : State) :
    (afterPoll b c u).reg.polls = u.reg.polls + 1#32 ∧ (afterPoll b c u).reg.sr = u.reg.sr ∧
      (afterPoll b c u).chip = u.chip := by
  unfold afterPoll
  split_ifs <;> exact ⟨rfl, rfl, rfl⟩

/-- What follows a poll ends the operation, or WIP = 1 below the bound leads to the next poll. -/
theorem afterPoll_ends_or_goesOn (b : Word) (c : Byte) (u : State) :
    ((afterPoll b c u).reg.phase = .idle ∧ (afterPoll b c u).reg.resp.isSome = true) ∨
      (u.reg.polls + 1#32 ≠ b ∧ (afterPoll b c u).reg.phase = .statusCmd) := by
  unfold afterPoll
  split_ifs with _ hb
  · exact .inl ⟨rfl, rfl⟩
  · exact .inr ⟨hb, rfl⟩
  · exact .inl ⟨rfl, rfl⟩

@[simp] theorem statusReturned_reg (ov : Option (List Byte)) (c : Byte) (s : State) :
    (statusReturned ov c s).reg = { s.reg with sr := c } := by
  simp [statusReturned, setSr]

@[simp] theorem statusReturned_trace (ov : Option (List Byte)) (c : Byte) (s : State) :
    (statusReturned ov c s).trace = .rd 1 (some [c]) :: s.trace := by
  simp [statusReturned]

/-- Settles O27: 0x05 is held open, the read ends its frame with one byte, and that byte's WIP and the bound decide what
follows. -/
theorem waitReadyPollsUntilReadyOrBound : Obligations.WaitReadyPollsUntilReadyOrBound := by
  intro s g bound ov sb ha
  refine ⟨fun hp => ?_, fun hp => ?_⟩
  · exact ⟨_, exec_waitReady_statusCmd hp ha g bound, commandHeld_goesOn _ _ s,
      fun hl => commandHeld_chip hl (frameBreaks_rdsr s.cfg _ s.chip) _⟩
  · obtain ⟨c, hc⟩ := List.length_eq_one_iff.1 (delivered_length 1 ov s)
    obtain ⟨hpolls, hsr, hchip⟩ := afterPoll_kept bound c (statusReturned ov c s)
    refine ⟨_, zext24 c, c, exec_waitReady_statusRead hp ha hc g bound, zext24_toNat c, by simp [hsr],
      by simp [hpolls], fun b ho => ?_, fun hw => ?_, fun hw hb => ?_, fun hw hb => ?_, fun ho hf => ?_, ?_⟩
    · have hd := delivered_of_length ho rfl s
      simpa [hc] using hd
    · rw [afterPoll_of_ready hw]
      exact ⟨rfl, rfl, by simp⟩
    · rw [afterPoll_of_bound hw (by simpa using hb)]
      exact ⟨rfl, rfl, by simp⟩
    · rw [afterPoll_of_busy hw (by simpa using hb)]
      exact ⟨rfl, by simp, by simp⟩
    · subst ho
      exact ⟨showsStatus_of_frameOn hf hc, hchip.trans (afterRead_chip_of_frameOn hf 1 none)⟩
    · rw [EndSetsHazard, hchip]
      exact afterRead_setsHazard 1 ov s

end Sys2Proof.Machine
end

section
/-! The runs of a wait_ready (R230, R233). Polls that are all busy end at the bound; with any answers each call leaves one
call less to make, or ends the operation. -/
namespace Sys2Proof.Machine
open Sys2Proof.Claims

/-- R37: below a bound `POLLS` counts without wrapping. -/
theorem polls_succ_toNat {polls bound : Word} (h : polls.toNat < bound.toNat) :
    (polls + 1#32).toNat = polls.toNat + 1 := by
  bv_omega

/-! Polls that are all busy -/

/-- The events of polls that returned the bytes `bs`, newest first (R230). -/
def pollEvents (bs : List Byte) : List TraceEvent := bs.reverse.flatMap fun x => [.rd 1 (some [x]), .wc [0x05]]

@[simp] theorem pollEvents_nil : pollEvents [] = [] := rfl

theorem pollEvents_cons (x : Byte) (bs : List Byte) :
    pollEvents (x :: bs) = pollEvents bs ++ [.rd 1 (some [x]), .wc [0x05]] := by
  simp [pollEvents]

section
variable {g bound : Word} {as : List Answer} {s : State}

/-- R230: the two calls of a poll bring a byte, and what follows it is decided. -/
theorem Running.polls {m : Nat} {ov : Option (List Byte)} {x : Byte}
    (run : Running ⟨7, g, bound, []⟩ (m + 2) (.ok ov :: .ok (some [x]) :: as) s) (hp : s.reg.phase = .statusCmd) :
    ∃ u, Reaches 2 s (afterPoll bound x u) ∧
      ((afterPoll bound x u).reg.phase ≠ .idle → Running ⟨7, g, bound, []⟩ m as (afterPoll bound x u)) ∧
      u.reg.polls = s.reg.polls ∧ u.trace = pollEvents [x] ++ s.trace := by
  have hd : decodeRequest ⟨7, g, bound, []⟩ = .ok (.waitReady g bound) := rfl
  obtain ⟨v, hv, ⟨hpv, -, htracev⟩, hpollsv⟩ : ∃ v, exec (.waitReady g bound) s.moved = .next v ∧
      GoesOn s.moved v [.wc [0x05]] .statusRead ∧ v.reg.polls = s.reg.polls :=
    ⟨_, exec_waitReady_statusCmd (s := s.moved) hp run.answer g bound, commandHeld_goesOn _ _ _, by simp [commandHeld]⟩
  obtain ⟨hcommand, runv⟩ := run.steps hd (by simp [hp]) hv
  replace runv := runv (by simp [hpv])
  have ht := exec_waitReady_statusRead (s := v.moved) hpv runv.answer (delivered_some [x] _) g bound
  obtain ⟨hread, runt⟩ := runv.steps hd (by simp [hpv]) ht
  exact ⟨_, (Reaches.of_step hcommand).trans (.of_step hread), runt, by simp [hpollsv], by simp [htracev, pollEvents]⟩

/-- R230, R231: polls that are all busy and reach the bound with the last byte end in `Timeout`. -/
theorem Running.polls_until_bound (b : Byte) (bs : List Byte) :
    ∀ {s : State}, Running ⟨7, g, bound, []⟩ (2 * (bs.length + 1))
        ((bs ++ [b]).flatMap fun x => [.ok none, .ok (some [x])]) s → s.reg.phase = .statusCmd →
      s.reg.polls.toNat + (bs.length + 1) = bound.toNat → (∀ x ∈ bs ++ [b], x.getLsbD 0 = true) →
      ∃ t, Reaches (2 * (bs.length + 1)) s t ∧ t.reg.polls = bound ∧
        Responds s t (pollEvents (bs ++ [b])) ⟨.timeout, .idle, zext24 b, []⟩ := by
  induction bs with
  | nil =>
    intro s run hp hcount hbusy
    obtain ⟨u, hu, -, hpolls, htrace⟩ := run.polls (m := 0) hp
    have hlast : u.reg.polls + 1#32 = bound := by
      rw [hpolls]
      exact BitVec.eq_of_toNat_eq ((polls_succ_toNat (Nat.lt_of_succ_le hcount.le)).trans hcount)
    rw [afterPoll_of_bound (hbusy b (by simp)) hlast] at hu
    exact ⟨_, hu, rfl, rfl, rfl, by simp [htrace]⟩
  | cons x bs ih =>
    intro s run hp hcount hbusy
    rw [List.length_cons] at hcount
    obtain ⟨u, hu, runu, hpolls, htrace⟩ := run.polls (m := 2 * (bs.length + 1)) hp
    have hnat := polls_succ_toNat (polls := s.reg.polls) (bound := bound) (by omega)
    have hmore : u.reg.polls + 1#32 ≠ bound := by
      rw [hpolls]
      rintro rfl
      omega
    rw [afterPoll_of_busy (hbusy x (by simp)) hmore] at hu runu
    obtain ⟨t, ht, hend, hpt, hresp, htracet⟩ :=
      ih (runu (by simp)) rfl (by simp [hpolls]; omega) fun y hy => hbusy y (by simp [hy])
    refine ⟨t, ?_, hend, hpt, hresp, ?_⟩
    · have hrun := hu.trans ht
      rwa [Nat.add_comm] at hrun
    · simp [htracet, htrace, pollEvents_cons]

end

/-- Settles O37: acceptance and the selection of the slot, then the polls. -/
theorem waitReadyTimesOutAfterExactlyBound : Obligations.WaitReadyTimesOutAfterExactlyBound := by
  intro s g bound bs b rs hallowed hr hb hw hlen hbusy hm has
  have hd : decodeRequest ⟨7, g, bound, []⟩ = .ok (.waitReady g bound) := rfl
  have hpos : bound ≠ 0#32 := by
    rintro rfl
    simp at hlen
  rw [← hlen] at hm ⊢
  obtain ⟨u, hu, runu, ⟨hpu, -, htraceu⟩, -, -, hhandle, hpolls⟩ :=
    step_accepts hallowed hr hb hw hd (by simp) (by simp) (by simp) (fun _ => hpos) hm has
  have hselect := exec_waitReady_select (s := u.moved) hpu runu.answer g bound
  obtain ⟨hstep, runv⟩ := runu.steps hd (by simp [hpu]) hselect
  have hcount : u.reg.polls.toNat + (bs.length + 1) = bound.toNat := by simp [hpolls rfl, hlen]
  obtain ⟨t, ht, hend, hpt, hresp, htrace⟩ := (runv (by simp)).polls_until_bound b bs rfl hcount hbusy
  have hrun := ((Reaches.of_step hu).trans (.of_step hstep)).trans ht
  rw [Nat.add_comm] at hrun
  refine ⟨t, zext24 b, hrun.run, zext24_toNat b, hend, hpt, hresp, ?_⟩
  simp [htrace, slotSelected, htraceu, hhandle, pollEvents]

/-! Any answers -/

/-- The most calls a wait_ready can still make in a phase (R230): before the first poll the selection of the slot; two for
each poll that is left; one less once 0x05 is sent. -/
def callsLeft (bound polls : Nat) : Phase → Nat
  | .select => 2 * (bound - polls) + 1
  | .statusCmd => 2 * (bound - polls)
  | .statusRead => 2 * (bound - polls) - 1
  | _ => 0

/-- A wait_ready in progress below its bound, with an answer to come for each call that is left. -/
structure Polling (g bound : Word) (as : List Answer) (s : State) : Prop
    extends Running ⟨7, g, bound, []⟩ as.length as s where
  answering : .silent ∉ as
  phase     : s.reg.phase = .select ∨ s.reg.phase = .statusCmd ∨ s.reg.phase = .statusRead
  below     : s.reg.polls.toNat < bound.toNat
  left      : callsLeft bound.toNat s.reg.polls.toNat s.reg.phase = as.length

/-- A wait_ready has responded within its bound. -/
def EndedWithin (bound : Word) (t : State) : Prop :=
  t.reg.phase = .idle ∧ t.reg.resp.isSome = true ∧ t.reg.polls.toNat ≤ bound.toNat

section
variable {g bound : Word} {a : Answer} {as : List Answer} {s t : State}

theorem Polling.ne_idle (h : Polling g bound as s) : s.reg.phase ≠ .idle := by
  rcases h.phase with hp | hp | hp <;> simp [hp]

/-- R230: below the bound a call is left to make. -/
theorem Polling.answers_ne_nil (h : Polling g bound as s) : as ≠ [] := by
  rintro rfl
  have hbelow := h.below
  have hleft := h.left
  rcases h.phase with hp | hp | hp <;> simp [hp, callsLeft] at hleft <;> omega

/-- A call that leads to one of the phases, with one call less to make, leaves the wait_ready in progress. -/
theorem Polling.goesOn (h : Polling g bound (a :: as) s) (ht : exec (.waitReady g bound) s.moved = .next t)
    (hphase : t.reg.phase = .select ∨ t.reg.phase = .statusCmd ∨ t.reg.phase = .statusRead)
    (hbelow : t.reg.polls.toNat < bound.toNat)
    (hleft : callsLeft bound.toNat t.reg.polls.toNat t.reg.phase + 1 =
      callsLeft bound.toNat s.reg.polls.toNat s.reg.phase) : Polling g bound as t := by
  obtain ⟨-, run⟩ := h.steps rfl h.ne_idle ht
  refine ⟨run ?_, fun hs => h.answering (.tail _ hs), hphase, hbelow, Nat.succ.inj (hleft.trans h.left)⟩
  rcases hphase with hp | hp | hp <;> simp [hp]

/-- R125, R301: a call that fails ends the wait_ready, with its polls as they were. -/
theorem Polling.fails (h : Polling g bound (.err :: as) s) :
    ∃ t, exec (.waitReady g bound) s.moved = .next t ∧ EndedWithin bound t := by
  have hp : s.moved.reg.phase ∈ callPhases 7#4 := by
    rcases h.phase with hp | hp | hp <;> simp [hp, callPhases]
  refine ⟨_, exec_err (e := 0) (r := ⟨7, g, bound, []⟩) rfl hp h.answer, rfl, rfl, ?_⟩
  simpa [transportError] using h.below.le

/-- R230, R231: a call that returns leaves one call less to make, or is the read that ends the wait_ready. -/
theorem Polling.returns {ov : Option (List Byte)} (h : Polling g bound (.ok ov :: as) s) :
    ∃ t, exec (.waitReady g bound) s.moved = .next t ∧ (EndedWithin bound t ∨ Polling g bound as t) := by
  have hbelow := h.below
  rcases h.phase with hp | hp | hp
  · have ht := exec_waitReady_select (s := s.moved) hp h.answer g bound
    exact ⟨_, ht, .inr (h.goesOn ht (by simp) (by simpa using hbelow) (by simp [hp, callsLeft]))⟩
  · have ht := exec_waitReady_statusCmd (s := s.moved) hp h.answer g bound
    exact ⟨_, ht, .inr (h.goesOn ht (by simp [commandHeld]) (by simpa [commandHeld] using hbelow)
      (by simp [commandHeld, hp, callsLeft]; omega))⟩
  · obtain ⟨c, hc⟩ := List.length_eq_one_iff.1 (delivered_length 1 ov s.moved)
    have ht := exec_waitReady_statusRead (s := s.moved) hp h.answer hc g bound
    obtain ⟨hpolls, -, -⟩ := afterPoll_kept bound c (statusReturned ov c s.moved)
    replace hpolls : (afterPoll bound c (statusReturned ov c s.moved)).reg.polls.toNat = s.reg.polls.toNat + 1 := by
      simpa [hpolls] using polls_succ_toNat hbelow
    refine ⟨_, ht, ?_⟩
    rcases afterPoll_ends_or_goesOn bound c (statusReturned ov c s.moved) with ⟨hidle, hresp⟩ | ⟨hne, hphase⟩
    · exact .inl ⟨hidle, hresp, by omega⟩
    · have hmore : s.reg.polls.toNat + 1 ≠ bound.toNat := fun heq =>
        hne (BitVec.eq_of_toNat_eq (by simpa using (polls_succ_toNat hbelow).trans heq))
      exact .inr (h.goesOn ht (.inr (.inl hphase)) (by omega) (by simp [hpolls, hphase, hp, callsLeft]; omega))

/-- R233: from any of its calls a wait_ready responds after at most as many steps as there are calls left. -/
theorem Polling.terminates : ∀ {as : List Answer} {s : State}, Polling g bound as s →
    ∃ k t, k ≤ as.length ∧ Reaches k s t ∧ EndedWithin bound t
  | [], _, h => absurd rfl h.answers_ne_nil
  | a :: as, s, h => by
    obtain ⟨u, hu, hnext⟩ : ∃ u, exec (.waitReady g bound) s.moved = .next u ∧
        (EndedWithin bound u ∨ Polling g bound as u) := by
      cases a with
      | silent => exact absurd (List.mem_cons_self ..) h.answering
      | err => exact h.fails.imp fun _ => .imp_right .inl
      | ok ov => exact h.returns
    obtain ⟨hstep, -⟩ := h.steps rfl h.ne_idle hu
    rcases hnext with hend | hgo
    · exact ⟨1, u, by simp, .of_step hstep, hend⟩
    · obtain ⟨k, t, hk, ht, hend⟩ := hgo.terminates
      exact ⟨1 + k, t, by simp; omega, (Reaches.of_step hstep).trans ht, hend⟩

end

/-- Settles O36: acceptance sets `POLLS` to 0, and `2 B + 1` calls are left. -/
theorem waitReadyAlwaysTerminates : Obligations.WaitReadyAlwaysTerminates := by
  intro s g bound as rs hallowed hr hb hw hpos hm hlen hsilent has
  have hd : decodeRequest ⟨7, g, bound, []⟩ = .ok (.waitReady g bound) := rfl
  have hbound : 0 < bound.toNat := Nat.pos_of_ne_zero fun h0 => hpos (BitVec.eq_of_toNat_eq h0)
  obtain ⟨u, hu, run, ⟨hp, -, -⟩, -, -, -, hpolls⟩ :=
    step_accepts hallowed hr hb hw hd (by simp) (by simp) (by simp) (fun _ => hpos) hm has
  rw [← hlen] at run
  have hpoll : Polling g bound as u :=
    ⟨run, hsilent, .inl hp, by simpa [hpolls rfl] using hbound, by simp [hp, hpolls rfl, callsLeft, hlen]⟩
  obtain ⟨k, t, hk, ht, hend⟩ := hpoll.terminates
  exact ⟨1 + k, t, by omega, ((Reaches.of_step hu).trans ht).run, hend⟩

end Sys2Proof.Machine
end

section
/-! R250, R273: `hazard`. Every part of every step keeps it set. -/
namespace Sys2Proof.Machine
open Sys2Proof.Claims

/-- R261, R262, R268, R269: no call clears `hazard`, one that fails neither. -/
theorem perform_hazard {s : State} (hz : s.chip.hazard = true) (c : Call) : (perform c s).2.chip.hazard = true := by
  rcases perform_cases c s with ⟨-, h⟩ | ⟨-, ev, h⟩ | ⟨ov, -, h⟩
  · rwa [h]
  · simpa [h] using hz
  · rcases c with _ | bs | bs | n <;> rw [h]
    · exact hz
    · exact (endFrame_legal 0 (shiftOut bs s.answered)).hazard hz
    · exact commandSeen_hazard (s := shiftOut bs s.answered) hz
    · exact (endFrame_legal n s.answered).hazard hz

/-- No instruction clears it. -/
theorem exec_hazard {i : Instr} {s t : State} (h : exec i s = .next t) (hz : s.chip.hazard = true) :
    t.chip.hazard = true := by
  rcases isFrame_or_isRequest i with hf | ⟨r, hr⟩
  · obtain ⟨f, hexec, hlegal⟩ := exec_frame hf
    rw [hexec] at h
    cases h
    exact (hlegal s.cfg s.chip s.env).hazard hz
  · by_cases hp : s.reg.phase = .idle
    · rwa [(exec_idle_chip hr hp h).1]
    · obtain ⟨-, c, -, rfl⟩ := exec_call_inv hr hp h
      rw [attempt_chip _ r hp]
      exact perform_hazard hz c

/-- R330, R331: a reset leaves it, even one that draws the chip. -/
@[simp] theorem resetBlock_hazard (s : State) : (resetBlock s).chip.hazard = s.chip.hazard := by
  by_cases hp : s.reg.phase = .idle <;> simp [resetBlock, hp]

/-- R265: a completion leaves it. -/
@[simp] theorem chipComplete_hazard (p : Params) (c : Chip) (e : Env) : (chipComplete p c e).1.hazard = c.hazard := by
  cases hb : c.busy with
  | none => simp [chipComplete, hb]
  | some k => rw [chipComplete_of_busy hb]

/-- Settles O41: no instruction clears `hazard`, and no other move does. -/
theorem hazardIsNeverCleared : Obligations.HazardIsNeverCleared := by
  intro s t h hz
  cases step_did h with
  | waits _ _ ht | puts _ _ _ ht | takes _ ht => exact ht ▸ hz
  | accepts _ _ _ _ _ _ _ ht | calls _ _ _ _ ht | frameRuns _ _ _ _ _ _ ht => exact exec_hazard ht hz
  | completes _ ht | resets _ ht => simpa [ht] using hz
  | frameOpen o f _ _ _ ht =>
    subst ht
    exact (chipEnds_legal (o.push f.sent) f.nIn s.cfg s.chip s.moved.env).hazard hz
  | frameStray _ _ _ _ ht => subst ht; rfl

end Sys2Proof.Machine
end

section
/-! A completion (R259, R260, R264, R265): the bytes of the array it writes, and those it leaves. -/
namespace Sys2Proof.Machine
open Sys2Proof.Claims

/-! The array, by what completes -/

/-- R259: a program within its page puts its bytes at consecutive addresses. -/
theorem completedMemory_of_within {p : Params} {a : Nat} {d : List Byte} (h : a % p.pageSize + d.length ≤ p.pageSize)
    (m : Memory) (e : Env) : completedMemory p m e (.prog a d) = programBytes p.flashSize d a m e :=
  if_pos (decide_eq_true h)

/-- R260: a program that crosses its page draws the page. -/
theorem completedMemory_of_crossing {p : Params} {a : Nat} {d : List Byte} (h : p.pageSize < a % p.pageSize + d.length)
    (m : Memory) (e : Env) :
    completedMemory p m e (.prog a d) = drawRange p.flashSize p.pageSize (pageBase p a) m e :=
  if_neg (by simpa [withinPage] using h)

/-- R264: an erase puts 0xFF in its sector, inside the array. -/
theorem completedMemory_erase_inside {p : Params} {base x : Nat} (hlo : base ≤ x) (hhi : x < base + p.sectorSize)
    (hsize : x < p.flashSize) (m : Memory) (e : Env) : (completedMemory p m e (.erase base)).1.read x = 0xFF#8 :=
  Memory.read_fill_inside base _ _ m hlo (by omega)

/-- R264: it leaves every byte outside its sector. -/
theorem completedMemory_erase_outside {p : Params} {base x : Nat} (h : x < base ∨ base + p.sectorSize ≤ x)
    (m : Memory) (e : Env) : (completedMemory p m e (.erase base)).1.read x = m.read x :=
  Memory.read_fill_outside base _ _ m (by omega)

/-! The step -/

/-- R265: the chip's move is its completion. -/
theorem step_of_completion {s : State} (ha : s.cfg.allowed = true) (he : s.event = .complete) :
    step s = .next (completeStep s.moved) := by
  rw [step_eq_stepEvent ha, he, stepEvent]

/-- Settles O47: the bytes by the kind of what completes, a program's by whether it crosses its page. -/
theorem completionEndsAndWritesOnlyItsBytes : Obligations.CompletionEndsAndWritesOnlyItsBytes := by
  intro s b ha he hb
  have hchip : (completeStep s.moved).chip =
      { s.chip with mem := (completedMemory s.cfg s.chip.mem s.moved.env b).1, busy := none, wel := false } :=
    chipComplete_of_busy hb s.cfg s.moved.env
  refine ⟨_, step_of_completion ha he, ?_⟩
  rw [hchip]
  refine ⟨rfl, rfl, rfl, rfl, rfl, rfl, rfl, ?_, ?_, ?_, ?_, ?_⟩
  · rintro a d rfl hpage i v hv hsize herased
    obtain ⟨hi, rfl⟩ := List.getElem?_eq_some_iff.1 hv
    rw [completedMemory_of_within hpage]
    exact programBytes_erased s.cfg.flashSize d a s.chip.mem _ i hi hsize herased
  · rintro base rfl x hlo hhi hsize
    exact completedMemory_erase_inside hlo hhi hsize s.chip.mem s.moved.env
  · rintro a d rfl hpage x hx
    rw [completedMemory_of_within hpage]
    exact programBytes_outside s.cfg.flashSize d a s.chip.mem _ hx
  · rintro a d rfl hpage x hx
    rw [completedMemory_of_crossing hpage]
    exact drawRange_outside s.cfg.flashSize s.cfg.pageSize _ s.chip.mem _ hx
  · rintro base rfl x hx
    exact completedMemory_erase_outside hx s.chip.mem s.moved.env

end Sys2Proof.Machine
end

section
/-! The chip's six commands as instructions (R252 to R263), and a frame that is none of them (R268): what each answers and
does on an idle chip, and what it sets where it breaks a rule. -/
namespace Sys2Proof.Machine
open Sys2Proof.Claims

/-! A command whose preconditions hold -/

section
variable {p : Params} {c : Chip}

/-- R253: the latch is set where the drawn bit is, else left. -/
theorem chipWren_of_idle (hb : c.busy = none) (e : Env) :
    chipWren c e = ⟨[], { c with wel := c.wel || e.bit }, e.next⟩ := by
  rw [chipWren, hb]

/-- R255: the bytes of the read address sequence. -/
theorem chipRead_of_idle (hb : c.busy = none) (a : Addr) (n : Nat) (e : Env) :
    chipRead p a n c e = ⟨(readBytes p c.mem a.toNat n 0 e).1, c, (readBytes p c.mem a.toNat n 0 e).2⟩ := by
  rw [chipRead, hb]

/-- R257: the fixed three bytes. -/
theorem chipRdid_of_idle (hb : c.busy = none) (e : Env) : chipRdid p c e = ⟨identityBytes p.idValue, c, e⟩ := by
  rw [chipRdid, hb]

/-- R258, R260: the program starts, and sets `hazard` where it crosses its page. -/
theorem chipPp_of_ready {a : Addr} (hb : c.busy = none) (hw : c.wel = true) (ha : a.toNat < p.flashSize) (d : List Byte)
    (e : Env) :
    chipPp p a d c e =
      ⟨[], { c with busy := some (.prog a.toNat d), hazard := c.hazard || !withinPage p a.toNat d.length }, e⟩ := by
  simp [chipPp, hb, hw, ha]

/-- R263: the erase of the aligned sector starts. -/
theorem chipSe_of_ready {a : Addr} (hb : c.busy = none) (hw : c.wel = true) (ha : a.toNat < p.flashSize) (e : Env) :
    chipSe p a c e = ⟨[], { c with busy := some (.erase (sectorBase p a.toNat)) }, e⟩ := by
  simp [chipSe, hb, hw, ha]

/-! A command that breaks one (R261, R262, R270) -/

theorem chipWren_of_busy {k : Pending} (hb : c.busy = some k) (e : Env) : chipWren c e = hazardOut 0 c e := by
  rw [chipWren, hb]

theorem chipRead_of_busy {k : Pending} (hb : c.busy = some k) (a : Addr) (n : Nat) (e : Env) :
    chipRead p a n c e = hazardOut n c e := by
  rw [chipRead, hb]

theorem chipRdid_of_busy {k : Pending} (hb : c.busy = some k) (e : Env) : chipRdid p c e = hazardOut 3 c e := by
  rw [chipRdid, hb]

/-- What a program or an erase at `a` must not meet: a busy chip, a clear latch, an address from `FLASH_SIZE` up. -/
def WriteIsBroken (p : Params) (a : Addr) (c : Chip) : Prop :=
  c.busy ≠ none ∨ c.wel = false ∨ p.flashSize ≤ a.toNat

theorem WriteIsBroken.not_ready {a : Addr} (h : WriteIsBroken p a c) (hb : c.busy = none) :
    ¬(c.wel = true ∧ a.toNat < p.flashSize) := by
  rintro ⟨hw, ha⟩
  rcases h with h | h | h
  · exact h hb
  · simp [hw] at h
  · omega

theorem chipPp_of_broken {a : Addr} (h : WriteIsBroken p a c) (d : List Byte) (e : Env) :
    chipPp p a d c e = hazardOut 0 c e := by
  cases hb : c.busy with
  | none => rw [chipPp, hb]; exact if_neg (h.not_ready hb)
  | some k => rw [chipPp, hb]

theorem chipSe_of_broken {a : Addr} (h : WriteIsBroken p a c) (e : Env) : chipSe p a c e = hazardOut 0 c e := by
  cases hb : c.busy with
  | none => rw [chipSe, hb]; exact if_neg (h.not_ready hb)
  | some k => rw [chipSe, hb]

end

/-- R261, R262, R268, R270: a command that comes to `hazardOut` sets `hazard` and still answers its bytes. -/
theorem onChip_of_hazardOut {s : State} {f : Params → Chip → Env → ChipOut} {n : Nat}
    (h : f s.cfg s.chip s.env = hazardOut n s.chip s.env) :
    (s.onChip f).chip.hazard = true ∧ (s.onChip f).bus.rx.length = n := by
  simp [h]

/-- Settles O46: a chip command is one legal chip operation, which keeps the array or sets `hazard`. -/
theorem chipCommandFrame : Obligations.ChipCommandFrame := by
  intro s t i hi ht
  obtain ⟨f, hexec, hlegal⟩ := exec_frame hi
  rw [hexec] at ht
  cases ht
  obtain ⟨hmem, -, hsched, hanswers⟩ := hlegal s.cfg s.chip s.env
  refine ⟨rfl, rfl, rfl, rfl, rfl, rfl, hsched, hanswers, fun hclear x => ?_⟩
  rcases hmem with hmem | ⟨-, hz⟩
  · exact congrArg (·.read x) hmem
  · cases hz.symm.trans hclear

/-! Read data -/

/-- R256: where a wrap table's first entry for byte `i` of a read at `a` names an address of the array, the byte comes
from there. -/
theorem readTarget_of_entry {p : Params} {table : List ((Nat × Nat) × Nat)} {a i x : Nat} (hw : p.readWrap = some table)
    (hx : table.find? (fun w => w.1 == (a, i)) = some ((a, i), x)) (hsize : x < p.flashSize) :
    readTarget p a i = some x := by
  simp [readTarget, hw, lookupWrap_eq, hx, hsize]

/-- R256: where it has none, the byte comes from its own address. -/
theorem readTarget_of_no_entry {p : Params} {table : List ((Nat × Nat) × Nat)} {a i : Nat}
    (hw : p.readWrap = some table) (hx : table.find? (fun w => w.1 == (a, i)) = none) (hsize : a + i < p.flashSize) :
    readTarget p a i = some (a + i) := by
  simp [readTarget, hw, lookupWrap_eq, hx, hsize]

/-- Settles O50: each byte is the byte of its target, which the table or the consecutive address gives. -/
theorem readCommandReturnsConsecutiveBytes : Obligations.ReadCommandReturnsConsecutiveBytes := by
  intro s a n hb
  refine ⟨_, rfl, ?_⟩
  rw [State.onChip_chip, State.onChip_bus, chipRead_of_idle hb]
  have hbyte : ∀ i < n, ∀ x, readTarget s.cfg a.toNat i = some x →
      (readBytes s.cfg s.chip.mem a.toNat n 0 s.env).1[i]? = some (s.chip.mem.read x) := fun i hi x hx =>
    readBytes_getElem _ _ _ n 0 _ i x hi (by rwa [Nat.zero_add])
  refine ⟨rfl, readBytes_length _ _ _ _ _ _, fun hw i hi hsize => ?_,
    fun table hw i hi => ⟨fun x hx hsize => ?_, fun hx hsize => ?_⟩⟩
  · exact hbyte i hi _ (readTarget_inside hw hsize)
  · exact hbyte i hi _ (readTarget_of_entry hw hx hsize)
  · exact hbyte i hi _ (readTarget_of_no_entry hw hx hsize)

/-! Commands that break a precondition -/

/-- R261, R262, R268, R270: a program instruction, with a payload or without. -/
theorem exec_pp_of_broken {s : State} {a : Addr} (h : WriteIsBroken s.cfg a s.chip) (d : List Byte) :
    ∃ t, exec (.pp a d) s = .next t ∧ t.chip.hazard = true ∧ t.bus.rx.length = 0 :=
  ⟨_, rfl, onChip_of_hazardOut (by rw [chipPp_of_broken h, ite_self])⟩

/-- R261, R262, R270: an erase instruction. -/
theorem exec_se_of_broken {s : State} {a : Addr} (h : WriteIsBroken s.cfg a s.chip) :
    ∃ t, exec (.se a) s = .next t ∧ t.chip.hazard = true ∧ t.bus.rx.length = 0 :=
  ⟨_, rfl, onChip_of_hazardOut (chipSe_of_broken h s.env)⟩

/-- Settles O54: every one of these commands comes to `hazardOut`. -/
theorem brokenObligationSetsHazard : Obligations.BrokenObligationSetsHazard := by
  intro s a n d k
  refine ⟨fun hb => ⟨?_, ?_, ?_, ?_, ?_⟩, fun h => ⟨exec_pp_of_broken (.inr h) d, exec_se_of_broken (.inr h)⟩⟩
  · exact ⟨_, rfl, onChip_of_hazardOut (chipWren_of_busy hb s.env)⟩
  · exact ⟨_, rfl, onChip_of_hazardOut (chipRead_of_busy hb a n s.env)⟩
  · exact ⟨_, rfl, onChip_of_hazardOut (chipRdid_of_busy hb s.env)⟩
  · exact exec_pp_of_broken (.inl (by simp [hb])) d
  · exact exec_se_of_broken (.inl (by simp [hb]))

/-- R268: a frame on an idle chip's closed line that decodes to no command is a stray one. -/
theorem frameStep_of_stray {s : State} {f : Frame} {x : DecodeError} (hp : s.reg.phase = .idle)
    (hl : s.bus.line s.cfg.chipSlot = none) (hd : decodeFrame s.cfg.eraseOpcode f = .error x) :
    frameStep f s = .next (strayFrame f s) := by
  simp [frameStep, hp, hl, hd]

/-- Settles O6: the step is the stray frame, which comes to `hazardOut`. -/
theorem frameThatIsNoCommandSetsHazard : Obligations.FrameThatIsNoCommandSetsHazard := by
  intro s f x ha he hp hl hd
  have hstep : step s = .next (strayFrame f s.moved) := by
    rw [step_eq_stepEvent ha, he]
    exact frameStep_of_stray (s := s.moved) hp hl hd
  obtain ⟨hz, hrx⟩ := onChip_of_hazardOut (s := s.moved) (f := fun _ c e => hazardOut f.nIn c e) rfl
  exact ⟨_, hstep, hz, hrx, rfl, rfl, rfl, rfl⟩

/-! The other commands on an idle chip, and read status on any -/

/-- Settles O48: the chip's status byte is the one byte answered. -/
theorem readStatusCommandShowsWipAndWel : Obligations.ReadStatusCommandShowsWipAndWel := by
  intro s
  obtain ⟨b, hrx, hshows⟩ := chipRdsr_rx s.cfg s.chip s.env
  exact ⟨_, b, rfl, hrx, rfl, hshows⟩

/-- Settles O49: the latch becomes its own value or the drawn bit. -/
theorem writeEnableCommandSetsOrKeepsTheLatch : Obligations.WriteEnableCommandSetsOrKeepsTheLatch := by
  intro s hb
  have htakes := chipWren_takes_or_ignores hb s.env
  refine ⟨_, rfl, congrArg ChipOut.rx (chipWren_of_idle hb s.env), htakes, fun hw => ?_⟩
  rw [State.onChip_chip, chip_of_takesOrIgnores htakes (.inl hw), ← hw]

/-- R257: the fixed three bytes are the digits of `ID_VALUE` to the base 256. -/
theorem identityBytes_toNat (v : BitVec 24) :
    (identityBytes v).map BitVec.toNat = [v.toNat / 2 ^ 16, v.toNat / 2 ^ 8 % 2 ^ 8, v.toNat % 2 ^ 8] := by
  have hhigh : v.toNat / 2 ^ 16 < 2 ^ 8 := by omega
  simpa [identityBytes, Nat.shiftRight_eq_div_pow] using hhigh

/-- Settles O51: the chip answers `ID_VALUE` and stays. -/
theorem readIdentityCommandReturnsTheConstant : Obligations.ReadIdentityCommandReturnsTheConstant := by
  intro s hb
  refine ⟨_, rfl, ?_⟩
  rw [State.onChip_chip, State.onChip_bus, chipRdid_of_idle hb]
  exact ⟨rfl, identityBytes_toNat s.cfg.idValue⟩

/-- Settles O52: the program starts; `hazard` is its old value or the crossing. -/
theorem programCommandStarts : Obligations.ProgramCommandStarts := by
  intro s a d hd hb hw ha
  refine ⟨_, rfl, ?_⟩
  rw [State.onChip_chip, State.onChip_bus, if_neg (by simpa using hd), chipPp_of_ready hb hw ha]
  refine ⟨rfl, rfl, rfl, rfl, fun hpage => ?_, fun hpage => ?_⟩ <;> simp [withinPage, hpage]

/-- Settles O53: the erase starts and changes nothing else. -/
theorem eraseCommandStarts : Obligations.EraseCommandStarts := by
  intro s a hb hw ha
  refine ⟨_, rfl, ?_⟩
  rw [State.onChip_chip, State.onChip_bus, chipSe_of_ready hb hw ha]
  exact ⟨rfl, rfl⟩

end Sys2Proof.Machine
end

section
/-! Requests that end with an error as they are accepted (R302, R305, R306, R308): the latched request gets its response
and no call is made. -/
namespace Sys2Proof.Machine
open Sys2Proof.Claims

/-! The response -/

/-- The state after request `r` is accepted and, before any call, gets the error `c` (R100, R309). -/
def rejected (c : ResultCode) (r : Request) (s : State) : State :=
  respond c .idle 0 [] (latch r.op r.arg0 r.arg1 r.payload s)

theorem rejected_noTraffic (c : ResultCode) (r : Request) (s : State) : NoTraffic s (rejected c r s) :=
  ⟨rfl, rfl, rfl, rfl, rfl⟩

theorem rejected_responds (c : ResultCode) (r : Request) (s : State) :
    Responds s (rejected c r s) [.req r.op r.arg0 r.arg1 r.payload] ⟨c, .idle, 0, []⟩ := ⟨rfl, rfl, rfl⟩

/-- An idle FLASHCMD writes the latches and the response, and no other register. -/
theorem rejected_reg {s : State} (hp : s.reg.phase = .idle) (c : ResultCode) (r : Request) :
    (rejected c r s).reg =
      { s.reg with op := r.op, arg0 := r.arg0, arg1 := r.arg1, resp := some ⟨c, .idle, 0, []⟩ } := by
  simp [rejected, respond, latch, hp]

/-- A ready FLASHCMD rejects a request whose latched operation starts with the error `c`. -/
theorem exec_of_rejected {i : Instr} {r : Request} {s : State} {c : ResultCode} (hr : IsRequest i r)
    (hs : s.ready = true)
    (h : start r (latch r.op r.arg0 r.arg1 r.payload s) =
      respond c .idle 0 [] (latch r.op r.arg0 r.arg1 r.payload s)) :
    exec i s = .next (rejected c r s) := by
  obtain ⟨e, he⟩ := hr
  obtain ⟨hp, -⟩ := s.ready_iff.1 hs
  rw [exec_idle he hp, accept, if_pos hs, h, rejected]

/-! The checks that fail -/

/-- R305: unbound, every operation with traffic starts with `ConfigError`. -/
theorem start_of_unbound {r : Request} {u : State} (hlo : 1 ≤ r.op.toNat) (hhi : r.op.toNat ≤ 7)
    (hb : u.reg.bound = false) : start r u = respond .configError .idle 0 [] u := by
  have hfails (k : State → State) : requireBound k u = respond .configError .idle 0 [] u := by
    simp [requireBound, hb]
  rcases op_kinds r.op with h | h | h | h | h
  · simp [h] at hlo
  · rw [start_of_plain h, hfails]
  · rw [start_of_addressed h, hfails]
  · rw [start_of_waitReady h, hfails]
  · omega

/-- R302: bound, an operation with an address of 2^24 or more starts with `InvalidAddress`. -/
theorem start_of_invalid_address {r : Request} {u : State} (h : r.op = 4#4 ∨ r.op = 5#4 ∨ r.op = 6#4)
    (hb : u.reg.bound = true) (ha : 2 ^ 24 ≤ r.arg0.toNat) : start r u = respond .invalidAddress .idle 0 [] u := by
  have hinvalid : addressValid r.arg0 = false := decide_eq_false (Nat.not_lt.2 ha)
  simp [start_of_addressed h, requireBound, hb, requireAddress, hinvalid]

/-! The three statements -/

/-- Settles O15: a bind fails on a bound instance or an invalid handle, any other operation on an unbound instance. -/
theorem configErrorIsRaisedForItsCauses : Obligations.ConfigErrorIsRaisedForItsCauses := by
  refine ⟨fun s h g hs hbad => ?_, fun s i r hr hlo hhi hs hb => ?_⟩
  · have hf : s.reg.bound = true ∨ s.cfg.slotValid h = false := by
      rw [← Bool.not_eq_true, slotValid_iff]
      rcases hbad with hlarge | hunbound | hbound
      · exact .inr fun ⟨hlt, _⟩ => absurd hlt (Nat.not_lt.2 hlarge)
      · exact .inr fun ⟨_, hmem⟩ => hunbound hmem
      · exact .inl hbound
    have hr : IsRequest (.bind h g) ⟨0x0, h, g, []⟩ := ⟨0, rfl⟩
    have hstart := start_of_bind (r := ⟨0x0, h, g, []⟩) rfl
    exact ⟨_, exec_of_rejected hr hs ((congrFun hstart _).trans (bindSlot_of_invalid hf)), rejected_noTraffic _ _ s,
      rejected_responds _ _ s⟩
  · exact ⟨_, exec_of_rejected hr hs (start_of_unbound hlo hhi hb), rejected_noTraffic _ r s, hb, rfl,
      rejected_responds _ r s⟩

/-- Settles O16: the address check comes before the first call. -/
theorem addressAbove24BitsIsRejected : Obligations.AddressAbove24BitsIsRejected := by
  intro s i r hr hop hs hb ha
  exact ⟨_, exec_of_rejected hr hs (start_of_invalid_address hop hb ha), rejected_noTraffic _ r s, hb, rfl,
    rejected_responds _ r s⟩

/-- Settles O14: a reserved operation starts with `IllegalOp`, whatever the binding. -/
theorem reservedRequestGetsIllegalOp : Obligations.ReservedRequestGetsIllegalOp := by
  intro s k x y hs
  obtain ⟨hp, -⟩ := s.ready_iff.1 hs
  have hr : IsRequest (.reserved k x y) ⟨1#1 ++ k, x, y, []⟩ := ⟨0, rfl⟩
  have hstart := start_of_reserved (r := ⟨1#1 ++ k, x, y, []⟩) (reservedOp_toNat k)
  exact ⟨_, exec_of_rejected hr hs (congrFun hstart _), rejected_noTraffic _ _ s, rejected_reg hp _ _,
    rejected_responds _ _ s⟩

end Sys2Proof.Machine
end

section
/-! A reset of FLASHCMD (R330, R331): what it leaves of transport and chip. -/
namespace Sys2Proof.Machine
open Sys2Proof.Claims

theorem step_of_reset {s : State} (ha : s.cfg.allowed = true) (he : s.event = .reset) :
    step s = .next (resetBlock s.moved) := by
  rw [step_eq_stepEvent ha, he, stepEvent]

/-- R47: no operation and no response is left. -/
@[simp] theorem resetBlock_ready (s : State) : (resetBlock s).ready = true := (State.ready_iff _).2 ⟨rfl, rfl⟩

/-- R330: outside an operation a reset reaches neither the chip nor the transport. -/
theorem resetBlock_of_idle {s : State} (hp : s.reg.phase = .idle) :
    (resetBlock s).chip = s.chip ∧ (resetBlock s).bus = s.bus := by
  simp [resetBlock, hp]

/-- Settles O8: the registers are those of R46, and only a reset during an operation reaches chip or transport, where
`hazard` stays (R331). -/
theorem blockResetUnbindsAndSendsNothing : Obligations.BlockResetUnbindsAndSendsNothing := by
  intro s ha he
  exact ⟨_, step_of_reset ha he, rfl, rfl, rfl, resetBlock_ready _, rfl, rfl, resetBlock_hazard s.moved,
    resetBlock_of_idle (s := s.moved)⟩

end Sys2Proof.Machine
end
